-- ==== Sys2Proof/Word.lean ====
section
/-! DEFINITION. The word types of the integra biquad core: one abbreviation per width the spec names
(00_scope.md rule R6, 10_state.md rule R10, 30_encoding.md rules R50, R53, R54). -/

namespace Sys2Proof

/-- A binary64 value as the bits on a port or in a register (R6 `W_COEF`, R70). -/
abbrev F64 := BitVec 64

/-- A binary32 value as the bits on a port or in a register (R6 `W_SAMPLE`, R70). -/
abbrev F32 := BitVec 32

/-- The command word `cmd[4:0]` (R50). -/
abbrev CmdBits := BitVec 5

/-- The `kind[2:0]` port of the stand-alone calculator (R54). -/
abbrev KindBits := BitVec 3

/-- What the spec leaves open of a quiet NaN: its sign (top bit) and its payload (R74 `NAN_DRAW`). -/
abbrev NanDraw := BitVec 52

end Sys2Proof
end

