-- ==== Sys2Proof/Config.lean ====
section
/-! DEFINITION. What the spec leaves open, as constants without a body: nothing in Lean can evaluate them,
so a claim about the model holds whatever they are. -/

namespace Sys2Proof

/-- The four elementary functions of the numerics record `NUM` (40_numerics.md rule R76). -/
inductive NumFn where
  | cos64
  | sin64
  | tan64
  | pow64
  deriving DecidableEq, Repr

/-- `NAN_DRAW` (R6, R74; log 3): the sign and payload of the NaN that the operation with this draw number returns. -/
opaque Config.nanDraw : Nat → NanDraw

/-- The coefficients after a calculation whose operands break the contract are "any five binary64 patterns, a free
draw" (R113; log 4): the pattern with this draw number. -/
opaque Config.anyCoefficient : Nat → F64

/-- Which of the binary64 values that bracket the exact result this implementation's elementary function returns
for this operand (R76, R77; log 5). It depends on the function and the operand's bit pattern alone. -/
opaque Config.numChoice : NumFn → F64 → Nat

/-- `N_STAGES - 2` (R6: "OPEN: an integer in 2..4, fixed per instance"; log 7). -/
opaque Config.extraStages : Fin 3

/-- `N_STAGES` (R6, R140). -/
def Config.nStages : Nat := Config.extraStages.val + 2

end Sys2Proof
end

