-- ==== Sys2Proof/Syntax.lean ====
section
/-! DEFINITION. The instructions, whole: one constructor per row of opcode_table.json, and the words, operands and
assembly lines the spec names (30_encoding.md). -/

namespace Sys2Proof

/-- `FilterKind` (R9, R52), in the order the source lists the kinds. -/
inductive FilterKind where
  | lp
  | hp
  | pk
  | ls
  | hs
  | ls1
  | hs1
  deriving DecidableEq, Repr

/-- The commands of the filter stage and the functions of the stand-alone calculator (R58). No instruction has a
field: operands travel on ports, not in the word (R50, R55). -/
inductive Instr where
  | nop
  | reset
  | setcLP
  | setcHP
  | setcPK
  | setcLS
  | setcHS
  | setcLS1
  | setcHS1
  | proc
  | coefLP
  | coefHP
  | coefPK
  | coefLS
  | coefHS
  | coefLS1
  | coefHS1
  deriving DecidableEq, Repr

/-- `SETC.<k>` for a kind (R61, the pseudo-instruction `SETC kind, …`). -/
def Instr.setc : FilterKind → Instr
  | .lp => .setcLP
  | .hp => .setcHP
  | .pk => .setcPK
  | .ls => .setcLS
  | .hs => .setcHS
  | .ls1 => .setcLS1
  | .hs1 => .setcHS1

/-- `COEF.<k>` for a kind (R58). -/
def Instr.coef : FilterKind → Instr
  | .lp => .coefLP
  | .hp => .coefHP
  | .pk => .coefPK
  | .ls => .coefLS
  | .hs => .coefHS
  | .ls1 => .coefLS1
  | .hs1 => .coefHS1

/-- The port an instruction's word arrives on, with the word (R50, R54, R58): the stage's 5-bit command port or the
stand-alone calculator's 3-bit kind port. -/
inductive CodeWord where
  | cmd (w : CmdBits)
  | kind (w : KindBits)
  deriving DecidableEq, Repr

/-- The levels on the operand ports (R53, R54). -/
structure Operands where
  fs : F64
  freq : F64
  q : F64
  gainDb : F64
  sampleIn : F32
  deriving DecidableEq, Repr

/-- A `CoefficientSet` (R9): five coefficients, with `a0 = 1` implicit (R19). -/
structure CoefSet where
  b0 : F64
  b1 : F64
  b2 : F64
  a1 : F64
  a2 : F64
  deriving DecidableEq, Repr

/-- A 64-bit operand as assembly writes it (R60): a bit pattern, a decimal literal `±digits / 10^scale`, or `_`,
"meaning any bits" (the bits it happens to carry). -/
inductive Lit64 where
  | bits (w : F64)
  | dec (neg : Bool) (digits scale : Nat)
  | any (w : F64)
  deriving DecidableEq, Repr

/-- A `PROC` operand as assembly writes it (R60): a bit pattern, or a decimal literal with the suffix `f`. -/
inductive Lit32 where
  | bits (w : F32)
  | dec (neg : Bool) (digits scale : Nat)
  deriving DecidableEq, Repr

/-- One line of an assembly text (R60) or one pseudo-instruction (R61). A command or `PROCBLK` names the stage it
addresses (the prefix `S<i>:`). -/
inductive AsmLine where
  | construct
  | idle
  | nop (stage : Nat)
  | reset (stage : Nat)
  | setc (stage : Nat) (k : FilterKind) (fs freq q gainDb : Lit64)
  | proc (stage : Nat) (sample : Lit32)
  | procblk (stage : Nat) (samples : List Lit32)
  | chain (sample : Lit32)
  deriving DecidableEq, Repr

end Sys2Proof
end

