-- ==== Sys2Proof/WellFormed.lean ====
section
/-! DEFINITION. The checks on what is written down before it reaches the machine. -/

namespace Sys2Proof

/-- An instruction has no field (R55: "There are no immediates"), so there is no instruction that could be
ill-formed: one line per constructor, so that a constructor with a field could not slip past. -/
def Instr.wellFormed : Instr → Bool
  | .nop | .reset | .proc => true
  | .setcLP | .setcHP | .setcPK | .setcLS | .setcHS | .setcLS1 | .setcHS1 => true
  | .coefLP | .coefHP | .coefPK | .coefLS | .coefHS | .coefLS1 | .coefHS1 => true

/-- A word that is not reserved (R57, R116): `NOP`, `RESET` and `PROC` need `kind = 000`; `SETC` and the
calculator's port need `kind ≠ 111`. -/
def CodeWord.wellFormed : CodeWord → Bool
  | .cmd w => if w.extractLsb' 3 2 = 0b10#2 then w.extractLsb' 0 3 != 0b111#3 else w.extractLsb' 0 3 == 0b000#3
  | .kind w => w != 0b111#3

/-- The number of stages of a chain (R6, R140: "2–4 stages"). -/
def wellFormedChain (n : Nat) : Bool := 2 ≤ n && n ≤ 4

/-- An assembly line addresses a stage the chain has (R60), and `_` stands only for an operand the kind ignores
(R60: "An operand a kind ignores may be written `_`"; which these are is R114's table). -/
def AsmLine.wellFormed (nStages : Nat) : AsmLine → Bool
  | .construct | .idle | .chain _ => true
  | .nop i | .reset i | .proc i _ | .procblk i _ => i < nStages
  | .setc i k fs freq q gainDb =>
    i < nStages && notAny fs && notAny freq && (notAny q || ignoresQ k) && (notAny gainDb || ignoresGain k)
where
  notAny : Lit64 → Bool
    | .any _ => false
    | _ => true
  ignoresQ : FilterKind → Bool
    | .ls1 | .hs1 => true
    | _ => false
  ignoresGain : FilterKind → Bool
    | .lp | .hp => true
    | _ => false

end Sys2Proof
end

