-- ==== Sys2Proof/Decode.lean ====
section
/-! DEFINITION. From words to instructions and back (30_encoding.md rules R50 to R59): a decoder that rejects by
name, the opcode map as a table, and the encoder. -/

namespace Sys2Proof

/-- Why a word is no instruction. -/
inductive Reject where
  /-- One of the 22 reserved values of `cmd` (R57). -/
  | reservedCommand (w : CmdBits)
  /-- `kind = 111` at the calculator (R57, R116). -/
  | reservedKind (w : KindBits)
  deriving DecidableEq, Repr

/-- `cmd[4:3]`, the field `op` (R50). -/
def opField (w : CmdBits) : BitVec 2 := w.extractLsb' 3 2

/-- `cmd[2:0]`, the field `kind` (R50). -/
def kindField (w : CmdBits) : KindBits := w.extractLsb' 0 3

/-- The kind a code stands for (R52); `111` stands for none. -/
def kindOfCode (w : KindBits) : Option FilterKind :=
  if w = 0b000#3 then some .lp
  else if w = 0b001#3 then some .hp
  else if w = 0b010#3 then some .pk
  else if w = 0b011#3 then some .ls
  else if w = 0b100#3 then some .hs
  else if w = 0b101#3 then some .ls1
  else if w = 0b110#3 then some .hs1
  else none

/-- The decoder of the stage's command port (R51, R57): "split `cmd` into `op` and `kind`; if the pair is not in the
table, refuse" (R58). -/
def decodeCmd (w : CmdBits) : Except Reject Instr :=
  if opField w = 0b10#2 then
    match kindOfCode (kindField w) with
    | some k => .ok (.setc k)
    | none => .error (.reservedCommand w)
  else if kindField w = 0b000#3 then
    if opField w = 0b00#2 then .ok .nop
    else if opField w = 0b01#2 then .ok .reset
    else .ok .proc
  else .error (.reservedCommand w)

/-- The decoder of the stand-alone calculator's kind port (R52, R58, R116). -/
def decodeKind (w : KindBits) : Except Reject Instr :=
  match kindOfCode w with
  | some k => .ok (.coef k)
  | none => .error (.reservedKind w)

/-- The decoder: total on the words of both ports. -/
def decode : CodeWord → Except Reject Instr
  | .cmd w => decodeCmd w
  | .kind w => decodeKind w

/-- A row of the opcode map (R58): a word `w` of the row's port selects it when `w &&& mask = match`. -/
structure OpRow where
  mnemonic : String
  instr : Instr
  width : Nat
  mtch : Nat
  mask : Nat
  deriving DecidableEq, Repr

/-- The stage's ten rows (R58). -/
def stageRows : List OpRow :=
  [⟨"NOP", .nop, 5, 0x00, 0x1F⟩, ⟨"RESET", .reset, 5, 0x08, 0x1F⟩, ⟨"SETC.LP", .setcLP, 5, 0x10, 0x1F⟩,
   ⟨"SETC.HP", .setcHP, 5, 0x11, 0x1F⟩, ⟨"SETC.PK", .setcPK, 5, 0x12, 0x1F⟩, ⟨"SETC.LS", .setcLS, 5, 0x13, 0x1F⟩,
   ⟨"SETC.HS", .setcHS, 5, 0x14, 0x1F⟩, ⟨"SETC.LS1", .setcLS1, 5, 0x15, 0x1F⟩,
   ⟨"SETC.HS1", .setcHS1, 5, 0x16, 0x1F⟩, ⟨"PROC", .proc, 5, 0x18, 0x1F⟩]

/-- The calculator's seven rows (R58, "a second, smaller map over its 3-bit `kind` port"). -/
def calculatorRows : List OpRow :=
  [⟨"COEF.LP", .coefLP, 3, 0, 7⟩, ⟨"COEF.HP", .coefHP, 3, 1, 7⟩, ⟨"COEF.PK", .coefPK, 3, 2, 7⟩,
   ⟨"COEF.LS", .coefLS, 3, 3, 7⟩, ⟨"COEF.HS", .coefHS, 3, 4, 7⟩, ⟨"COEF.LS1", .coefLS1, 3, 5, 7⟩,
   ⟨"COEF.HS1", .coefHS1, 3, 6, 7⟩]

/-- A word selects a row (R58). -/
def OpRow.selects (r : OpRow) (w : Nat) : Bool := w &&& r.mask == r.mtch

/-- The code of a kind (R52). -/
def FilterKind.code : FilterKind → KindBits
  | .lp => 0b000#3
  | .hp => 0b001#3
  | .pk => 0b010#3
  | .ls => 0b011#3
  | .hs => 0b100#3
  | .ls1 => 0b101#3
  | .hs1 => 0b110#3

/-- `{op, kind}` (R50). -/
def cmdOf (op : BitVec 2) (kind : KindBits) : CmdBits := op ++ kind

/-- The encoder (R50 to R52, R58). -/
def encode : Instr → CodeWord
  | .nop => .cmd (cmdOf 0b00#2 0b000#3)
  | .reset => .cmd (cmdOf 0b01#2 0b000#3)
  | .setcLP => .cmd (cmdOf 0b10#2 (FilterKind.code .lp))
  | .setcHP => .cmd (cmdOf 0b10#2 (FilterKind.code .hp))
  | .setcPK => .cmd (cmdOf 0b10#2 (FilterKind.code .pk))
  | .setcLS => .cmd (cmdOf 0b10#2 (FilterKind.code .ls))
  | .setcHS => .cmd (cmdOf 0b10#2 (FilterKind.code .hs))
  | .setcLS1 => .cmd (cmdOf 0b10#2 (FilterKind.code .ls1))
  | .setcHS1 => .cmd (cmdOf 0b10#2 (FilterKind.code .hs1))
  | .proc => .cmd (cmdOf 0b11#2 0b000#3)
  | .coefLP => .kind (FilterKind.code .lp)
  | .coefHP => .kind (FilterKind.code .hp)
  | .coefPK => .kind (FilterKind.code .pk)
  | .coefLS => .kind (FilterKind.code .ls)
  | .coefHS => .kind (FilterKind.code .hs)
  | .coefLS1 => .kind (FilterKind.code .ls1)
  | .coefHS1 => .kind (FilterKind.code .hs1)

/-- The code word that a table word of `nbits` bits stands for (log 15). A row of 5 bits is a word of the command
port and a row of 3 bits one of the kind port; a width rounded up to whole bytes no longer says which, and then a word
that is a command is read as one, and another word of 3 bits as a kind. -/
def codeWordOfTable (nbits w : Nat) : Option CodeWord :=
  if nbits = 3 then (if w < 8 then some (.kind (BitVec.ofNat 3 w)) else none)
  else if 32 ≤ w then none
  else if nbits = 5 then some (.cmd (BitVec.ofNat 5 w))
  else
    match decodeCmd (BitVec.ofNat 5 w) with
    | .ok _ => some (.cmd (BitVec.ofNat 5 w))
    | .error _ => if w < 8 then some (.kind (BitVec.ofNat 3 w)) else some (.cmd (BitVec.ofNat 5 w))

/-- The instruction the decoder reads from a word as opcode_table.json numbers its bits. -/
def decodeTableWord (nbits w : Nat) : Option Instr :=
  match codeWordOfTable nbits w with
  | some c =>
    match decode c with
    | .ok i => some i
    | .error _ => none
  | none => none

end Sys2Proof
end

