-- ==== Sys2Proof/Machine/State.lean ====
section
/-! DEFINITION. The machine's state as plain data (10_state.md, 43_filter_chain.md), the reasons a step stops, and the
state right after reset. -/

namespace Sys2Proof.Machine

/-- The history file (R13): the last two inputs, widened, and the last two outputs before narrowing. -/
structure History where
  x1 : F64
  x2 : F64
  y1 : F64
  y2 : F64
  deriving DecidableEq, Repr

/-- One `biquad_filter_stage`: "the following eleven registers and nothing else" (R10). `bank` is `b0 b1 b2 a1 a2`
(R18), `hist` is `x1 x2 y1 y2` (R13), `out` and `outValid` are `OUT` and `OUT_VALID` (R20). -/
structure Stage where
  bank : CoefSet
  hist : History
  out : F32
  outValid : Bool
  deriving DecidableEq, Repr

/-- What the host, and the implementation's timing, present on one stage's ports in one clock cycle (R53).
`cmdReady` is the stage's own output, "a function of the implementation's internal timing only": the model takes it as
data of the cycle (log 11), but in the first cycle after a reset, in which it is 1 (log 25). -/
structure StagePins where
  cmdValid : Bool
  cmdReady : Bool
  cmd : CmdBits
  operands : Operands
  deriving DecidableEq, Repr

/-- One thing the host does to the hardware (log 1). -/
inductive Event where
  /-- A clock cycle of the chain, ended by a rising edge: the level of the shared `rst` pin and the ports of the
  stages, in the chain's order (R53, R145). A stage that is not listed has `cmd_valid = 0`. -/
  | clock (rst : Bool) (pins : List StagePins)
  /-- An evaluation of the stand-alone calculator at these input levels (R54, log 13). -/
  | calculator (kind : KindBits) (fs freq q gainDb : F64)
  deriving DecidableEq, Repr

/-- The hardware raises no fault: "The core raises none. … The complete table of exception causes is therefore empty"
(R150). So there is no constructor: no step can answer a fault. Safe: nothing is claimed of a stop that cannot be. -/
inductive Fault
  deriving DecidableEq, Repr

/-- Why the model gives an input no meaning (treatment `refuse`, 93_implementation_defined.md). Each is safe: a claim
about a run that contains one says nothing. -/
inductive Refusal where
  /-- Raised by an instruction's arm that has no meaning yet; safe. -/
  | notModelled (mnemonic : String)
  /-- Raised by the step when one of the 22 reserved command words is presented with `cmd_valid = 1` (R57, R164, U5);
  safe. -/
  | reservedCommand (w : CmdBits)
  /-- Raised by the step when the stand-alone calculator is driven with `kind = 111` (R116, U6); safe. -/
  | reservedKind (w : KindBits)
  /-- Raised by the step at a clock edge with `rst = 0` before the first hardware reset (R25, R173, U9); safe. -/
  | beforeReset
  /-- Raised by a command addressed to a position at which the chain has no stage (log 18); safe. -/
  | noSuchStage
  deriving DecidableEq, Repr

/-- The whole state: the stages of the chain, and what INVENTORY.md lists beside them as the model's own. -/
structure State where
  /-- `S0 .. S(N_STAGES-1)`, in the wiring's order (R140, R141). -/
  stages : List Stage
  /-- An edge with `rst = 1` has happened since power-up (R25, R173; log 2). -/
  resetSeen : Bool
  /-- The last edge was one with `rst = 1`: this is the first cycle after `rst` falls, in which every stage "can accept a
  command" (R172; log 25). -/
  afterRst : Bool
  /-- The output ports of the stand-alone calculator, as its last evaluation drove them (R54; log 13). -/
  calcOut : CoefSet
  /-- The levels on the operand ports that the command being executed reads (R53, R54; log 14). -/
  ports : Operands
  /-- The position of the stage that the command being executed is addressed to (R144; log 14). -/
  active : Nat
  /-- How many free values have been drawn (R74, R113; log 3). -/
  draws : Nat
  /-- What the host will present, one entry a step, oldest first (log 1). -/
  host : List Event
  deriving DecidableEq, Repr

/-- The identity passthrough, `b0 = 1` and all others `+0` (R19, R24). -/
def CoefSet.identity : CoefSet := ⟨0x3FF0000000000000#64, 0, 0, 0, 0⟩

/-- The history after reset: four `+0` (R24). -/
def History.zero : History := ⟨0, 0, 0, 0⟩

/-- A stage after hardware reset or `RESET` (R24, R170). -/
def Stage.reset : Stage := ⟨CoefSet.identity, History.zero, 0, false⟩

/-- A chain of `n` stages as construction leaves it (R145: "construction is hardware reset of every stage"); the
levels on ports are a DESIGN CHOICE (log 13, 14) and so is the first draw (log 3). -/
def State.constructed (stages : List Stage) : State :=
  { stages := stages, resetSeen := true, afterRst := true, calcOut := ⟨0, 0, 0, 0, 0⟩, ports := ⟨0, 0, 0, 0, 0⟩,
    active := 0, draws := 0, host := [] }

/-- The machine right after reset: `N_STAGES` stages (R6, R140), each in the state of R24. -/
def State.reset : State :=
  State.constructed (Stage.reset :: Stage.reset :: List.replicate Config.extraStages.val Stage.reset)

end Sys2Proof.Machine
end

