-- ==== Sys2Proof/Machine/Float.lean ====
section
/-! DEFINITION. IEEE 754 binary64 and binary32 in exact integer arithmetic (40_numerics.md rules R70 to R75, R79 to
R81). A finite value is a whole number of *units*, the smallest subnormal of its format (2^-1074 or 2^-149); an
operation computes the exact result as a ratio of units and rounds it once. -/

namespace Sys2Proof.Machine

/-- The *magnitude* of a binary64 pattern: everything below the sign bit, as a number. Magnitudes are ordered as the
absolute values they stand for (R70). -/
def mag64 (x : F64) : Nat := x.toNat % 2 ^ 63

/-- The sign bit (R70: bit 63). -/
def sign64 (x : F64) : Bool := x.msb

/-- The magnitude of a binary64 infinity: an all-ones exponent and a zero fraction (R70). -/
def inf64 : Nat := 0x7FF0000000000000

/-- R70: an all-ones exponent with a non-zero fraction. -/
def isNaN64 (x : F64) : Bool := inf64 < mag64 x

/-- R70: an all-ones exponent with a zero fraction. -/
def isInf64 (x : F64) : Bool := mag64 x == inf64

/-- Neither an infinity nor a NaN. -/
def isFinite64 (x : F64) : Bool := mag64 x < inf64

/-- `+0` or `-0`. -/
def isZero64 (x : F64) : Bool := mag64 x == 0

/-- R70: a NaN whose top fraction bit is 1. -/
def isQuietNaN64 (x : F64) : Bool := isNaN64 x && x.getLsbD 51

/-- The magnitude of a binary32 pattern (R70). -/
def mag32 (x : F32) : Nat := x.toNat % 2 ^ 31

/-- The sign bit (R70: bit 31). -/
def sign32 (x : F32) : Bool := x.msb

/-- The magnitude of a binary32 infinity (R70). -/
def inf32 : Nat := 0x7F800000

/-- R70: an all-ones exponent with a non-zero fraction. -/
def isNaN32 (x : F32) : Bool := inf32 < mag32 x

/-- R70: an all-ones exponent with a zero fraction. -/
def isInf32 (x : F32) : Bool := mag32 x == inf32

/-- Neither an infinity nor a NaN. -/
def isFinite32 (x : F32) : Bool := mag32 x < inf32

/-- R70: a NaN whose top fraction bit is 1. -/
def isQuietNaN32 (x : F32) : Bool := isNaN32 x && x.getLsbD 22

/-- The absolute value, in units, of a finite pattern of magnitude `m` in a format with `fb` fraction bits (R70): a
zero exponent field is a zero or a subnormal; otherwise the fraction has its hidden bit and each step of the exponent
doubles. -/
def unitsOf (fb m : Nat) : Nat := if m < 2 ^ fb then m else (2 ^ fb + m % 2 ^ fb) * 2 ^ (m / 2 ^ fb - 1)

/-- How many binary64 units make 1: the unit is 2^-1074 (R70). Irreducible, so that no tactic writes the number out. -/
@[irreducible] def unitsPerOne : Nat := 2 ^ 1074

/-- How many binary64 units make a binary32 unit, 2^-149 (R70). -/
@[irreducible] def unitsPerUnit32 : Nat := 2 ^ 925

/-- The absolute value of a binary64 pattern in units of 2^-1074; an infinity counts as 2^1024, above every finite
value. -/
def units64 (x : F64) : Nat := unitsOf 52 (mag64 x)

/-- The absolute value of a binary32 pattern in units of 2^-149. -/
def units32 (x : F32) : Nat := unitsOf 23 (mag32 x)

/-- The signed value of a binary64 pattern in units of 2^-1074. -/
def signed64 (x : F64) : Int := if sign64 x then -(units64 x : Int) else units64 x

/-- The real value of a finite binary64 pattern (R70). -/
def value64 (x : F64) : ℚ := (signed64 x : ℚ) / unitsPerOne

/-- The signed value of a binary32 pattern in units of 2^-149. -/
def signed32 (x : F32) : Int := if sign32 x then -(units32 x : Int) else units32 x

/-- The real value of a finite binary32 pattern (R70). -/
def value32 (x : F32) : ℚ := (signed32 x : ℚ) / 2 ^ 149

/-- How many times the smallest spacing `num/den` units must be halved to leave a whole part of `fb + 1` bits: the
spacing of the format around that value is `2 ^ spacingExp` units. -/
def spacingExp (fb num den : Nat) : Nat := Nat.log2 (num / den) - fb

/-- The magnitude of the format value nearest to `num/den` units, ties to even, overflowing to the infinity of
magnitude `inf` (R71, R73). A carry out of the fraction steps the exponent, as it should. -/
def roundNearest (fb inf num den : Nat) : Nat :=
  let k := spacingExp fb num den
  let spacing := den * 2 ^ k
  let quot := num / spacing
  let twice := 2 * (num % spacing)
  let up := if spacing < twice then 1 else if twice = spacing then quot % 2 else 0
  min inf (k * 2 ^ fb + quot + up)

/-- The magnitude of the largest format value not above `num/den` units. -/
def roundDown (fb inf num den : Nat) : Nat :=
  let k := spacingExp fb num den
  min inf (k * 2 ^ fb + num / (den * 2 ^ k))

/-- The magnitude of the smallest format value not below `num/den` units. -/
def roundUp (fb inf num den : Nat) : Nat :=
  let k := spacingExp fb num den
  min inf (k * 2 ^ fb + (num + den * 2 ^ k - 1) / (den * 2 ^ k))

/-- The binary64 pattern with this sign and this magnitude (R70). -/
def pack64 (neg : Bool) (m : Nat) : F64 := BitVec.ofNat 64 ((if neg then 2 ^ 63 else 0) + m)

/-- The binary32 pattern with this sign and this magnitude (R70). -/
def pack32 (neg : Bool) (m : Nat) : F32 := BitVec.ofNat 32 ((if neg then 2 ^ 31 else 0) + m)

/-- The binary64 value nearest to `±num/den` units (R71). -/
def round64 (neg : Bool) (num den : Nat) : F64 := pack64 neg (roundNearest 52 inf64 num den)

/-- The binary32 value nearest to `±num/den` units (R71). -/
def round32 (neg : Bool) (num den : Nat) : F32 := pack32 neg (roundNearest 23 inf32 num den)

/-- A binary64 quiet NaN with the drawn sign and payload (R70, R74). -/
def nan64 (d : NanDraw) : F64 := d.extractLsb' 51 1 ++ 0xFFF#12 ++ d.extractLsb' 0 51

/-- A binary32 quiet NaN with the drawn sign and payload (R70, R74). -/
def nan32 (d : NanDraw) : F32 := d.extractLsb' 22 1 ++ 0x1FF#9 ++ d.extractLsb' 0 22

/-- `fneg`: bit 63 inverted, "zeros, infinities and NaNs alike" (R72). -/
def fneg (a : F64) : F64 := a ^^^ 0x8000000000000000#64

/-- `fabs`: bit 63 cleared (R72). -/
def fabs (a : F64) : F64 := a &&& 0x7FFFFFFFFFFFFFFF#64

/-- `flt`: a < b, false on a NaN; `-0` and `+0` compare equal (R72). -/
def flt (a b : F64) : Bool := !isNaN64 a && !isNaN64 b && decide (signed64 a < signed64 b)

/-- `fadd`: round(a + b) (R72, R73). `d` is the NaN this operation would return (R74). -/
def fadd (d : NanDraw) (a b : F64) : F64 :=
  if isNaN64 a || isNaN64 b then nan64 d
  else if isInf64 a then (if isInf64 b && sign64 a != sign64 b then nan64 d else a)
  else if isInf64 b then b
  else
    let sum := signed64 a + signed64 b
    if sum = 0 then pack64 (sign64 a && sign64 b) 0 else round64 (decide (sum < 0)) sum.natAbs 1

/-- `fsub`: round(a − b), "equal to `fadd(a, fneg(b))`" (R72). -/
def fsub (d : NanDraw) (a b : F64) : F64 := fadd d a (fneg b)

/-- `fmul`: round(a · b) (R72, R73); the product of two values in units is in units of 2^-2148. -/
def fmul (d : NanDraw) (a b : F64) : F64 :=
  if isNaN64 a || isNaN64 b then nan64 d
  else if isInf64 a || isInf64 b then
    (if isZero64 a || isZero64 b then nan64 d else pack64 (sign64 a != sign64 b) inf64)
  else round64 (sign64 a != sign64 b) (units64 a * units64 b) unitsPerOne

/-- `fdiv`: round(a / b) (R72, R73). -/
def fdiv (d : NanDraw) (a b : F64) : F64 :=
  if isNaN64 a || isNaN64 b then nan64 d
  else if isInf64 a then (if isInf64 b then nan64 d else pack64 (sign64 a != sign64 b) inf64)
  else if isInf64 b then pack64 (sign64 a != sign64 b) 0
  else if isZero64 b then (if isZero64 a then nan64 d else pack64 (sign64 a != sign64 b) inf64)
  else round64 (sign64 a != sign64 b) (units64 a * unitsPerOne) (units64 b)

/-- The bits of a square root from the top down: `r` is the root found so far, `n` the number of bits left. -/
def isqrtBits (m : Nat) : Nat → Nat → Nat
  | 0, r => r
  | n + 1, r => isqrtBits m n (if (r + 2 ^ n) * (r + 2 ^ n) ≤ m then r + 2 ^ n else r)

/-- The whole part of the square root of `m`. -/
def isqrt (m : Nat) : Nat := isqrtBits m (Nat.log2 m / 2 + 1) 0

/-- `fsqrt`: round(√a) (R72, R73). With `a = u` units the root is `√(u·2^1074)` units; `root` is the whole part of its
double, and the odd numerator stands for a root strictly between two halves, which rounds as it does. -/
def fsqrt (d : NanDraw) (a : F64) : F64 :=
  if isNaN64 a then nan64 d
  else if isZero64 a then a
  else if sign64 a then nan64 d
  else if isInf64 a then a
  else
    let radicand := 4 * (units64 a * unitsPerOne)
    let root := isqrt radicand
    round64 false (2 * root + (if root * root = radicand then 0 else 1)) 4

/-- `widen`: binary32 to binary64, exact (R80); a binary32 unit is 2^925 binary64 units. -/
def widen (d : NanDraw) (s : F32) : F64 :=
  if isNaN32 s then nan64 d
  else if isInf32 s then pack64 (sign32 s) inf64
  else round64 (sign32 s) (units32 s * unitsPerUnit32) 1

/-- `narrow`: binary64 to binary32, to nearest even (R81). -/
def narrow (d : NanDraw) (v : F64) : F32 :=
  if isNaN64 v then nan32 d
  else if isInf64 v then pack32 (sign64 v) inf32
  else round32 (sign64 v) (units64 v) unitsPerUnit32

/-- `PI64`, the binary64 nearest π (R79). -/
def pi64 : F64 := 0x400921FB54442D18#64

/-- The binary64 nearest π/2, named by `NUM.sign` (R77). -/
def halfPi64 : F64 := 0x3FF921FB54442D18#64

/-- `THRESH`, the binary64 nearest 10^-20 (R79). -/
def thresh : F64 := 0x3BC79CA10C924223#64

/-- `+0` (R79). -/
def zero64 : F64 := 0x0000000000000000#64

/-- `1.0` (R79). -/
def one64 : F64 := 0x3FF0000000000000#64

/-- `2.0` (R79). -/
def two64 : F64 := 0x4000000000000000#64

/-- `-2.0` (R79). -/
def negTwo64 : F64 := 0xC000000000000000#64

/-- `40.0` (R79). -/
def forty64 : F64 := 0x4044000000000000#64

/-- `+Inf` (R70). -/
def posInf64 : F64 := 0x7FF0000000000000#64

end Sys2Proof.Machine
end

