-- ==== Sys2Proof/Machine/Elementary.lean ====
section
/-! DEFINITION. The numerics record `NUM` (40_numerics.md rules R76 to R78): `cos64 sin64 tan64 pow64`. For each operand
the exact real result is enclosed in fixed-point arithmetic, far below the last place of a binary64; an admissible
`NUM` returns one of the binary64 values that bracket it (`NUM.faithful`), and which one is the implementation's own
choice (log 5). `NUM_CR` returns the nearest. -/

namespace Sys2Proof.Machine

/-- Fixed-point values have this many bits after the point. -/
def fixBits : Nat := 1280

/-- π with 1100 bits more than that, for the reduction of large arguments (log 6). -/
def piFix : Nat :=
  0x3243F6A8885A308D313198A2E03707344A4093822299F31D0082EFA98EC4E6C89452821E638D01377BE5466CF34E90C6CC0AC29B7C97C50DD3F84D5B5B54709179216D5D98979FB1BD1310BA698DFB5AC2FFD72DBD01ADFB7B8E1AFED6A267E96BA7C9045F12C7F9924A19947B3916CF70801F2E2858EFC16636920D871574E69A458FEA3F4933D7E0D95748F728EB658718BCD5882154AEE7B54A41DC25A59B59C30D5392AF26013C5D1B023286085F0CA417918B8DB38EF8E79DCB0603A180E6C9E0E8BB01E8A3ED71577C1BD314B2778AF2FDA55605C60E65525F3AA55AB945748986263E8144055CA396A2AAB10B6B4CC5C341141E8CEA15486AF7C72E993B3EE1411636FBC2A2BA9C55D741831F6CE5C3E169B87931EAFD6BA336C24CF5C7A325381289586773B8

/-- ln 2 in fixed point (log 6). -/
def ln2Fix : Nat :=
  0xB17217F7D1CF79ABC9E3B39803F2F6AF40F343267298B62D8A0D175B8BAAFA2BE7B876206DEBAC98559552FB4AFA1B10ED2EAE35C138214427573B291169B8253E96CA16224AE8C51ACBDA11317C387EB9EA9BC3B136603B256FA0EC7657F74B72CE87B19D6548CAF5DFA6BD38303248655FA1872F20E3A2DA2D97C50F3FD5C607F4CA11FB5BFB90610D30F88FE551A2EE569D6DFC1EFA157D2E23DE1400B396

/-- ln 10 in fixed point (log 6). -/
def ln10Fix : Nat :=
  0x24D763776AAA2B05BA95B58AE0B4C28A38A3FB3E76977E43A0F187A0807C0B5CA58BC0B5EC6A0417331C32F00B17C35A0B1889061042F8B6BEE3DE2100B945B59E0B3E28A2A324479D96A9B0EC360C7EFBD9B3AC12ACF1BE94586ED2748671EEF299ECD6C8D8142163A4CDA3511E2713D6C22C15F57B7883D1A7A963A4C17A607891E3F2AB4EBBA627356D0B9A89C586691FB2C9A5E31753F6C74A3A95F53F703

/-- What the fixed-point results below are taken to be off by, in units of their last bit; they are off by at most half of
it (log 5). -/
def fixError : Nat := 2 ^ 16

/-- The power series of `e^x` from the term `t = x^k/k!` on, with the terms' signs turned by `turn` at every second
step: `(even terms, odd terms)` summed. -/
def expSeries (turn : Int) (x : Int) : Nat → Nat → Int → Int × Int
  | 0, _, _ => (0, 0)
  | n + 1, k, t =>
    let rest := expSeries turn x n (k + 1) (t * x / (2 ^ fixBits * (k + 1)))
    (t + turn * rest.2, rest.1)

/-- `(cos x, sin x)` in fixed point, for |x| at most about π/4: 240 terms. -/
def cosSinFix (x : Int) : Int × Int := expSeries (-1) x 240 0 (2 ^ fixBits)

/-- `e^x` in fixed point, for |x| at most about (ln 2)/2: 240 terms. -/
def expFix (x : Int) : Int :=
  let s := expSeries 1 x 240 0 (2 ^ fixBits)
  s.1 + s.2

/-- An angle of `u` units (2^-1074 radians) as a number of quarter turns and a remainder in fixed point, the remainder
at most half a quarter turn. -/
def quarterTurns (u : Nat) : Nat × Int :=
  let a := u * 2 ^ (fixBits - 1074 + 1100)
  let n := (4 * a + piFix) / (2 * piFix)
  (n, (2 * (a : Int) - n * piFix) / 2 ^ 1101)

/-- A cosine and a sine, of an angle turned on by `n` quarter turns. -/
def turnQuarters (n : Nat) (cs : Int × Int) : Int × Int :=
  match n % 4 with
  | 0 => (cs.1, cs.2)
  | 1 => (-cs.2, cs.1)
  | 2 => (-cs.1, -cs.2)
  | _ => (cs.2, -cs.1)

/-- The cosine and sine of an angle of `u` units, in fixed point. -/
def cosSinUnits (u : Nat) : Int × Int := turnQuarters (quarterTurns u).1 (cosSinFix (quarterTurns u).2)

/-- An exact real result, enclosed: its sign, and its absolute value in units of 2^-1074 between
`(num - numErr) / (den + denErr)` and `(num + numErr) / (den - denErr)`. -/
structure Enclosure where
  neg : Bool
  num : Nat
  numErr : Nat
  den : Nat
  denErr : Nat
  deriving DecidableEq, Repr

/-- A fixed-point value as an enclosure. -/
def Enclosure.ofFix (v : Int) : Enclosure := ⟨decide (v < 0), v.natAbs, fixError, 2 ^ (fixBits - 1074), 0⟩

/-- cos of a finite operand. -/
def cosEnclosure (a : F64) : Enclosure := Enclosure.ofFix (cosSinUnits (units64 a)).1

/-- sin of a finite operand; the sine is odd. -/
def sinEnclosure (a : F64) : Enclosure :=
  let v := (cosSinUnits (units64 a)).2
  Enclosure.ofFix (if sign64 a then -v else v)

/-- tan of a finite operand: the quotient of the two. -/
def tanEnclosure (a : F64) : Enclosure :=
  let cs := cosSinUnits (units64 a)
  ⟨(decide (cs.1 < 0) != decide (cs.2 < 0)) != sign64 a, cs.2.natAbs * unitsPerOne, fixError * unitsPerOne, cs.1.natAbs,
    fixError⟩

/-- 10 raised to a whole power, exactly. -/
def pow10Whole (neg : Bool) (n : Nat) : Enclosure :=
  if neg then ⟨false, unitsPerOne, 0, 10 ^ n, 0⟩ else ⟨false, 10 ^ n * unitsPerOne, 0, 1, 0⟩

/-- `y·ln 10` in fixed point, for `y` of `±u` units. -/
def pow10Log (neg : Bool) (u : Nat) : Int :=
  let size := u * 2 ^ (fixBits - 1074) * ln10Fix / 2 ^ fixBits
  if neg then -(size : Int) else size

/-- How often ln 2 goes into `t`, to the nearest whole number. -/
def pow10Shift (t : Int) : Int := (2 * t + ln2Fix) / (2 * ln2Fix)

/-- The fixed-point value `v`, times `2^k`, as an enclosure; `k` is at least -1400. -/
def pow10Fix (v : Nat) (k : Int) : Enclosure :=
  ⟨false, v * 2 ^ (k + 1400).toNat, fixError * 2 ^ (k + 1400).toNat, 2 ^ (fixBits - 1074 + 1400), 0⟩

/-- 10 raised to `±u` units: `10^y = 2^k · e^r` with `k` whole and `r = y·ln 10 − k·ln 2`. -/
def pow10Units (neg : Bool) (u : Nat) : Enclosure :=
  let t := pow10Log neg u
  let k := pow10Shift t
  pow10Fix (expFix (t - k * ln2Fix)).natAbs k

/-- 10 raised to a finite operand; `pow64` asks only between `pow10Zero` and `pow10Inf`. -/
def powEnclosure (y : F64) : Enclosure :=
  let u := units64 y
  if u % unitsPerOne = 0 then pow10Whole (sign64 y) (u / unitsPerOne)
  else pow10Units (sign64 y) u

/-- How an implementation turns an enclosed result into a magnitude: from the function, the operand, the magnitude of
the bracketing value below, of the nearest value, and of the bracketing value above. -/
abbrev NumRounding := NumFn → F64 → Nat → Nat → Nat → Nat

/-- The bracketing magnitude below an enclosed result. -/
def Enclosure.below (e : Enclosure) : Nat := roundDown 52 inf64 (e.num - e.numErr) (e.den + e.denErr)

/-- The magnitude nearest to it. -/
def Enclosure.nearest (e : Enclosure) : Nat := roundNearest 52 inf64 e.num e.den

/-- The bracketing magnitude above it; infinity when the divisor may be zero. -/
def Enclosure.above (e : Enclosure) : Nat :=
  if e.den ≤ e.denErr then inf64 else roundUp 52 inf64 (e.num + e.numErr) (e.den - e.denErr)

/-- The magnitude returned, kept between `least` and `most`. -/
def Enclosure.magnitude (e : Enclosure) (rnd : NumRounding) (f : NumFn) (a : F64) (least most : Nat) : Nat :=
  max least (min most (rnd f a e.below e.nearest e.above))

/-- `cos64` (R76, R77): `qNaN` on an infinity or a NaN (`NUM.special`), 1.0 at `±0` (`NUM.exact_points`), otherwise a
faithful result of magnitude at most 1.0 (`NUM.range`), positive up to π/2 either way (`NUM.sign`). -/
def cos64 (rnd : NumRounding) (d : NanDraw) (a : F64) : F64 :=
  if !isFinite64 a then nan64 d
  else if isZero64 a then one64
  else
    let e := cosEnclosure a
    if mag64 a ≤ mag64 halfPi64 then pack64 false (e.magnitude rnd .cos64 a 1 (mag64 one64))
    else pack64 e.neg (e.magnitude rnd .cos64 a 0 (mag64 one64))

/-- `sin64` (R76, R77): `±0` at `±0`, otherwise a faithful result of magnitude at most 1.0 and, as |sin a| < |a|, at most
|a|; up to π it has the operand's sign, and between 0 and `PI64` it is not zero (`NUM.sign`). -/
def sin64 (rnd : NumRounding) (d : NanDraw) (a : F64) : F64 :=
  if !isFinite64 a then nan64 d
  else if isZero64 a then a
  else
    let e := sinEnclosure a
    let most := min (mag64 one64) (mag64 a)
    if mag64 a < mag64 pi64 then pack64 (sign64 a) (e.magnitude rnd .sin64 a (if sign64 a then 0 else 1) most)
    else pack64 e.neg (e.magnitude rnd .sin64 a 0 most)

/-- `tan64` (R76, R77): `±0` at `±0`, otherwise a faithful result; up to π/2, where |tan a| > |a|, of the operand's sign
and at least its magnitude (`NUM.sign`). -/
def tan64 (rnd : NumRounding) (d : NanDraw) (a : F64) : F64 :=
  if !isFinite64 a then nan64 d
  else if isZero64 a then a
  else
    let e := tanEnclosure a
    if mag64 a ≤ mag64 halfPi64 then pack64 (sign64 a) (e.magnitude rnd .tan64 a (mag64 a) inf64)
    else pack64 e.neg (e.magnitude rnd .tan64 a 0 inf64)

/-- `NUM_CR` (R78): the nearest value. -/
def numCR : NumRounding := fun _ _ _ nearest _ => nearest

/-- The smallest operand whose power of 10 is at or above 2^1024 (log 22). -/
def pow10Inf : F64 := 0x40734413509F79FF#64

/-- The largest operand whose power of 10 is below 2^-1022, about -307.65 (log 22). -/
def pow10Subnormal : F64 := 0xC0733A7146F72A42#64

/-- -324.0: 10^-324 is below 2^-1075, half the smallest subnormal, so from here down the rounding is `+0` (log 22). -/
def pow10Zero : F64 := 0xC074400000000000#64

/-- Which NUM is asked for `10^y`: below 2^-1022 the result is "a subnormal or `+0` by rule R71" (`NUM.special`, R77), the
nearest value whatever the implementation; above, the implementation's own. -/
def powRounding (rnd : NumRounding) (y : F64) : NumRounding :=
  if sign64 y && mag64 pow10Subnormal ≤ mag64 y then numCR else rnd

/-- `pow64(y)`, 10 raised to `y` (R76, R77): `qNaN` on a NaN, `+Inf` at `+Inf`, `+0` at `-Inf`, `+Inf` from 2^1024 on and
rounded by R71 below 2^-1022 (`NUM.special`), 1.0 at `±0` (`NUM.exact_points`), otherwise a faithful result, never negative
and never a NaN (`NUM.range`), on the operand's side of 1.0. -/
def pow64 (rnd : NumRounding) (d : NanDraw) (y : F64) : F64 :=
  if isNaN64 y then nan64 d
  else if isZero64 y then one64
  else if sign64 y && mag64 pow10Zero ≤ mag64 y then zero64
  else if !sign64 y && mag64 pow10Inf ≤ mag64 y then posInf64
  else if sign64 y then pack64 false ((powEnclosure y).magnitude (powRounding rnd y) .pow64 y 0 (mag64 one64))
  else pack64 false ((powEnclosure y).magnitude rnd .pow64 y (mag64 one64) inf64)

/-- The hardware's own `NUM`: one of the bracketing values, the choice left open (R76, R77; log 5). -/
def numHW : NumRounding := fun f a below _ above => below + Config.numChoice f a % (above - below + 1)

end Sys2Proof.Machine
end

