-- ==== Sys2Proof/Machine/Operands.lean ====
section
/-! DEFINITION. Operands: which a kind uses, when they are inside the contract, and where a stage's `sample_in` comes
from (41_coeff_calculator.md rules R101, R114; 43_filter_chain.md rule R141). Operands are taken whole from their
ports, with no conversion but `widen` (R55). -/

namespace Sys2Proof.Machine

/-- R114: the kinds that use `q` (the second-order ones). -/
def usesQ : FilterKind → Bool
  | .lp | .hp | .pk | .ls | .hs => true
  | .ls1 | .hs1 => false

/-- R114: the kinds that use `gain_db`. -/
def usesGain : FilterKind → Bool
  | .lp | .hp => false
  | .pk | .ls | .hs | .ls1 | .hs1 => true

/-- Finite and `> 0` (R101). -/
def isPositiveFinite (x : F64) : Bool := !sign64 x && 0 < mag64 x && isFinite64 x

/-- `0 < freq < fs/2`, compared on the real values (R101, U2): `2·freq < fs` in units, exact. -/
def isBelowNyquist (freq fs : F64) : Bool := isPositiveFinite freq && 2 * units64 freq < units64 fs

/-- The contract of a FilterSpec (R101), less the operands its kind ignores (R114). -/
def inContract (k : FilterKind) (o : Operands) : Bool :=
  isPositiveFinite o.fs && isBelowNyquist o.freq o.fs && (!usesQ k || isPositiveFinite o.q) &&
    (!usesGain k || isFinite64 o.gainDb)

/-- The level on the `sample_in` port of the stage at position `i`: the chain's input for the first stage, `sample_out`
of the stage before it for the others (R141). -/
def sampleInOf (stages : List Stage) (i : Nat) (chainInput : F32) : F32 :=
  match i with
  | 0 => chainInput
  | j + 1 =>
    match stages[j]? with
    | some st => st.out
    | none => chainInput

end Sys2Proof.Machine
end

