-- ==== Sys2Proof/Machine/Flags.lean ====
section
/-! DEFINITION. "The hardware has no status flags, no condition codes and no predicate registers" (R17), and the IEEE
exception flags are not recorded (R75): no operation of this model computes a flag. What is left is `OUT_VALID`, "a
strobe of the output port, not a condition code". -/

namespace Sys2Proof.Machine

/-- `OUT_VALID <- 1` (R20: by `PROC` alone). -/
def Stage.strobe (st : Stage) : Stage := { st with outValid := true }

/-- `OUT_VALID <- 0` (R20: by every other command, by reset and by an idle cycle). -/
def Stage.unstrobe (st : Stage) : Stage := { st with outValid := false }

end Sys2Proof.Machine
end

