-- ==== Sys2Proof/Machine/Ops.lean ====
section
/-! DEFINITION. The named operations over the state: the addressed stage, the free values, the two resets, the idle
cycle. There is no memory to operate on (R21, R30), and no exception to take or return from: "The core raises none"
(R150), "Trap entry. None." (R154), "Trap return and nesting. None" (R155). -/

namespace Sys2Proof.Machine

/-- What a step answers. -/
abbrev Answer := Host.Outcome State Fault Refusal

/-- Go on from a next state; a fault or a refusal stands. -/
def andThen (o : Answer) (f : State → Answer) : Answer :=
  match o with
  | .next s => f s
  | .fault r => .fault r
  | .refused r => .refused r

/-- A command consumes this many draw numbers, more than it has operations, so that every operation of every command
has a draw of its own (R74: "new at each operation"; log 3). -/
def drawsPerCommand : Nat := 64

/-- The NaN draw of the operation numbered `site` of the command being executed (R74). -/
def State.nanDraw (s : State) (site : Nat) : NanDraw := Config.nanDraw (s.draws + site)

/-- The free coefficient set of the command being executed (R113; log 4). -/
def State.anyBank (s : State) : CoefSet :=
  ⟨Config.anyCoefficient s.draws, Config.anyCoefficient (s.draws + 1), Config.anyCoefficient (s.draws + 2),
    Config.anyCoefficient (s.draws + 3), Config.anyCoefficient (s.draws + 4)⟩

/-- The draws of the command being executed are used up. -/
def State.spend (s : State) : State := { s with draws := s.draws + drawsPerCommand }

/-- The stage that the command being executed is addressed to. -/
def State.stage? (s : State) : Option Stage := s.stages[s.active]?

/-- The addressed stage becomes `st`; every other stage, and all else, stays (R144). -/
def State.setStage (s : State) (st : Stage) : State := { s with stages := s.stages.set s.active st }

/-- A command's whole effect on the stage it is addressed to, at one edge (R36, R120). -/
def State.onStage (s : State) (f : Stage → Stage) : Answer :=
  match s.stage? with
  | some st => .next (s.setStage (f st)).spend
  | none => .refused .noSuchStage

/-- Hardware reset (R170, R172): every stage takes the values of R24 (R145: one `rst` for all of them). -/
def State.hardwareReset (s : State) : State :=
  { s with stages := s.stages.map (fun _ => Stage.reset), resetSeen := true, afterRst := true }

/-- A cycle in which no stage accepts a command: "it changes nothing but `OUT_VALID`, which becomes 0" (R53, R20);
it is no longer the first cycle after a reset. -/
def State.idleEdge (s : State) : State := { s with stages := s.stages.map Stage.unstrobe, afterRst := false }

/-- The levels on the ports of the stage at position `i` in this cycle are what the next command reads (R53, R141). -/
def State.present (s : State) (i : Nat) (o : Operands) : State :=
  { s with active := i, ports := { o with sampleIn := sampleInOf s.stages i o.sampleIn } }

/-- The levels on the stand-alone calculator's ports are what the next command reads (R54). -/
def State.presentCalc (s : State) (fs freq q gainDb : F64) : State :=
  { s with ports := { s.ports with fs := fs, freq := freq, q := q, gainDb := gainDb } }

/-- The stand-alone calculator drives its output ports (R54); no stage is touched. -/
def State.driveCalc (s : State) (c : CoefSet) : Answer := .next { s with calcOut := c }.spend

end Sys2Proof.Machine
end

