-- ==== Sys2Proof/Machine/Calculator.lean ====
section
/-! DEFINITION. The coefficient calculator (41_coeff_calculator.md): the evaluation trees of the seven kinds, the shared
final step, and the meanings of the seven `COEF` functions. In every tree `rnd` is the numerics record `NUM` and `d`
numbers the operations, for the NaN each of them would return (R74). -/

namespace Sys2Proof.Machine

/-- `omega = fdiv(fmul(fmul(2.0, PI64), freq), fs)` (R102). -/
def omegaOf (d : Nat → NanDraw) (o : Operands) : F64 :=
  fdiv (d 2) (fmul (d 1) (fmul (d 0) two64 pi64) o.freq) o.fs

/-- `cs = cos64(omega)` (R102). -/
def csOf (rnd : NumRounding) (d : Nat → NanDraw) (o : Operands) : F64 := cos64 rnd (d 3) (omegaOf d o)

/-- `sn = sin64(omega)` (R102). -/
def snOf (rnd : NumRounding) (d : Nat → NanDraw) (o : Operands) : F64 := sin64 rnd (d 4) (omegaOf d o)

/-- `alpha = fdiv(sn, fmul(2.0, q))` (R102). -/
def alphaOf (rnd : NumRounding) (d : Nat → NanDraw) (o : Operands) : F64 :=
  fdiv (d 6) (snOf rnd d o) (fmul (d 5) two64 o.q)

/-- `A = pow64(fdiv(gain_db, 40.0))` (R102; the same tree for the first-order kinds, D32). -/
def gainOf (rnd : NumRounding) (d : Nat → NanDraw) (o : Operands) : F64 :=
  pow64 rnd (d 8) (fdiv (d 7) o.gainDb forty64)

/-- The six pre-normalisation values of a branch (R103, R117). -/
structure PreNorm where
  b0 : F64
  b1 : F64
  b2 : F64
  a1 : F64
  a2 : F64
  a0 : F64
  deriving DecidableEq, Repr

/-- The branch of `COEF.LP` (R103). -/
def preLP (rnd : NumRounding) (d : Nat → NanDraw) (o : Operands) : PreNorm :=
  let cs := csOf rnd d o
  let alpha := alphaOf rnd d o
  let t := fsub (d 10) one64 cs
  { b0 := fdiv (d 11) t two64
    b1 := t
    b2 := fdiv (d 12) t two64
    a0 := fadd (d 13) one64 alpha
    a1 := fmul (d 14) negTwo64 cs
    a2 := fsub (d 15) one64 alpha }

/-- The branch of `COEF.HP` (R104). -/
def preHP (rnd : NumRounding) (d : Nat → NanDraw) (o : Operands) : PreNorm :=
  let cs := csOf rnd d o
  let alpha := alphaOf rnd d o
  let t := fadd (d 10) one64 cs
  { b0 := fdiv (d 11) t two64
    b1 := fneg t
    b2 := fdiv (d 12) t two64
    a0 := fadd (d 13) one64 alpha
    a1 := fmul (d 14) negTwo64 cs
    a2 := fsub (d 15) one64 alpha }

/-- The branch of `COEF.PK` (R105). -/
def prePK (rnd : NumRounding) (d : Nat → NanDraw) (o : Operands) : PreNorm :=
  let cs := csOf rnd d o
  let alpha := alphaOf rnd d o
  let A := gainOf rnd d o
  let u := fmul (d 10) alpha A
  let v := fdiv (d 11) alpha A
  { b0 := fadd (d 12) one64 u
    b1 := fmul (d 13) negTwo64 cs
    b2 := fsub (d 14) one64 u
    a0 := fadd (d 15) one64 v
    a1 := fmul (d 16) negTwo64 cs
    a2 := fsub (d 17) one64 v }

/-- The sub-terms that the two second-order shelves share (R106). -/
structure ShelfTerms where
  A : F64
  beta : F64
  pm : F64
  pp : F64
  mm : F64
  mp : F64
  deriving DecidableEq, Repr

/-- R106: `Ap1`, `Am1`, then `beta`, `pm`, `pp`, `mm`, `mp`, sums of three terms from left to right. -/
def shelfTerms (rnd : NumRounding) (d : Nat → NanDraw) (o : Operands) : ShelfTerms :=
  let cs := csOf rnd d o
  let A := gainOf rnd d o
  let Ap1 := fadd (d 10) A one64
  let Am1 := fsub (d 11) A one64
  { A := A
    beta := fmul (d 14) (fmul (d 13) two64 (fsqrt (d 12) A)) (alphaOf rnd d o)
    pm := fsub (d 16) Ap1 (fmul (d 15) Am1 cs)
    pp := fadd (d 18) Ap1 (fmul (d 17) Am1 cs)
    mm := fsub (d 20) Am1 (fmul (d 19) Ap1 cs)
    mp := fadd (d 22) Am1 (fmul (d 21) Ap1 cs) }

/-- The branch of `COEF.LS` (R107). -/
def preLS (rnd : NumRounding) (d : Nat → NanDraw) (o : Operands) : PreNorm :=
  let s := shelfTerms rnd d o
  { b0 := fmul (d 24) s.A (fadd (d 23) s.pm s.beta)
    b1 := fmul (d 26) (fmul (d 25) two64 s.A) s.mm
    b2 := fmul (d 28) s.A (fsub (d 27) s.pm s.beta)
    a0 := fadd (d 29) s.pp s.beta
    a1 := fmul (d 30) negTwo64 s.mp
    a2 := fsub (d 31) s.pp s.beta }

/-- The branch of `COEF.HS` (R108). -/
def preHS (rnd : NumRounding) (d : Nat → NanDraw) (o : Operands) : PreNorm :=
  let s := shelfTerms rnd d o
  { b0 := fmul (d 24) s.A (fadd (d 23) s.pp s.beta)
    b1 := fmul (d 26) (fmul (d 25) negTwo64 s.A) s.mp
    b2 := fmul (d 28) s.A (fsub (d 27) s.pp s.beta)
    a0 := fadd (d 29) s.pm s.beta
    a1 := fmul (d 30) two64 s.mm
    a2 := fsub (d 31) s.pm s.beta }

/-- `K = tan64(fdiv(fmul(PI64, freq), fs))` (R109). -/
def kOf (rnd : NumRounding) (d : Nat → NanDraw) (o : Operands) : F64 :=
  tan64 rnd (d 12) (fdiv (d 11) (fmul (d 10) pi64 o.freq) o.fs)

/-- `V0 = fmul(A, A)` (R109). -/
def v0Of (rnd : NumRounding) (d : Nat → NanDraw) (o : Operands) : F64 :=
  fmul (d 13) (gainOf rnd d o) (gainOf rnd d o)

/-- `norm = fdiv(1.0, fadd(1.0, K))` (R109). -/
def normOf (rnd : NumRounding) (d : Nat → NanDraw) (o : Operands) : F64 :=
  fdiv (d 15) one64 (fadd (d 14) one64 (kOf rnd d o))

/-- The branch of `COEF.LS1` (R110). -/
def preLS1 (rnd : NumRounding) (d : Nat → NanDraw) (o : Operands) : PreNorm :=
  let K := kOf rnd d o
  let norm := normOf rnd d o
  let w := fmul (d 16) (v0Of rnd d o) K
  { b0 := fmul (d 18) (fadd (d 17) w one64) norm
    b1 := fmul (d 20) (fsub (d 19) w one64) norm
    b2 := zero64
    a0 := one64
    a1 := fmul (d 22) (fsub (d 21) K one64) norm
    a2 := zero64 }

/-- The branch of `COEF.HS1` (R111). -/
def preHS1 (rnd : NumRounding) (d : Nat → NanDraw) (o : Operands) : PreNorm :=
  let K := kOf rnd d o
  let V0 := v0Of rnd d o
  let norm := normOf rnd d o
  { b0 := fmul (d 17) (fadd (d 16) K V0) norm
    b1 := fmul (d 19) (fsub (d 18) K V0) norm
    b2 := zero64
    a0 := one64
    a1 := fmul (d 21) (fsub (d 20) K one64) norm
    a2 := zero64 }

/-- The multiplexer steered by `kind` (R117). -/
def preNorm (rnd : NumRounding) (d : Nat → NanDraw) (o : Operands) : FilterKind → PreNorm
  | .lp => preLP rnd d o
  | .hp => preHP rnd d o
  | .pk => prePK rnd d o
  | .ls => preLS rnd d o
  | .hs => preHS rnd d o
  | .ls1 => preLS1 rnd d o
  | .hs1 => preHS1 rnd d o

/-- `NORMALISE`: five true divisions by `a0` (R112). -/
def normalise (d : Nat → NanDraw) (p : PreNorm) : CoefSet :=
  { b0 := fdiv (d 40) p.b0 p.a0
    b1 := fdiv (d 41) p.b1 p.a0
    b2 := fdiv (d 42) p.b2 p.a0
    a1 := fdiv (d 43) p.a1 p.a0
    a2 := fdiv (d 44) p.a2 p.a0 }

/-- What the datapath evaluates, on any operands: one branch, then the one final step (R100, R117). -/
def calcTrees (rnd : NumRounding) (d : Nat → NanDraw) (k : FilterKind) (o : Operands) : CoefSet :=
  normalise d (preNorm rnd d o k)

/-- `CALC` (R100) of the operand ports: the trees inside the contract (R101, R119), any five patterns outside it
(R113, R118). -/
def State.calculate (s : State) (k : FilterKind) : CoefSet :=
  if inContract k s.ports then calcTrees numHW s.nanDraw k s.ports else s.anyBank

/-- `COEF.LP` (R103). -/
def execCoefLP (s : State) : Answer := s.driveCalc (s.calculate .lp)

/-- `COEF.HP` (R104). -/
def execCoefHP (s : State) : Answer := s.driveCalc (s.calculate .hp)

/-- `COEF.PK` (R105). -/
def execCoefPK (s : State) : Answer := s.driveCalc (s.calculate .pk)

/-- `COEF.LS` (R107). -/
def execCoefLS (s : State) : Answer := s.driveCalc (s.calculate .ls)

/-- `COEF.HS` (R108). -/
def execCoefHS (s : State) : Answer := s.driveCalc (s.calculate .hs)

/-- `COEF.LS1` (R110). -/
def execCoefLS1 (s : State) : Answer := s.driveCalc (s.calculate .ls1)

/-- `COEF.HS1` (R111). -/
def execCoefHS1 (s : State) : Answer := s.driveCalc (s.calculate .hs1)

end Sys2Proof.Machine
end

