-- ==== Sys2Proof/Machine/StageCommands.lean ====
section
/-! DEFINITION. The commands of the filter stage (42_stage_commands.md): `NOP`, `RESET`, the seven `SETC`, `PROC`. -/

namespace Sys2Proof.Machine

/-- `NOP`: `OUT_VALID <- 0` and nothing else (R121). -/
def execNop (s : State) : Answer := s.onStage Stage.unstrobe

/-- `RESET`: "The state it leaves is exactly the hardware-reset state" (R122, R24). -/
def execReset (s : State) : Answer := s.onStage fun _ => Stage.reset

/-- What every `SETC` writes (R123): the whole coefficient bank, and `OUT_VALID <- 0`. -/
def Stage.loadBank (c : CoefSet) (st : Stage) : Stage := ({ st with bank := c } : Stage).unstrobe

/-- `SETC.LP` (R124). -/
def execSetcLP (s : State) : Answer := s.onStage (Stage.loadBank (s.calculate .lp))

/-- `SETC.HP` (R125). -/
def execSetcHP (s : State) : Answer := s.onStage (Stage.loadBank (s.calculate .hp))

/-- `SETC.PK` (R126). -/
def execSetcPK (s : State) : Answer := s.onStage (Stage.loadBank (s.calculate .pk))

/-- `SETC.LS` (R127). -/
def execSetcLS (s : State) : Answer := s.onStage (Stage.loadBank (s.calculate .ls))

/-- `SETC.HS` (R128). -/
def execSetcHS (s : State) : Answer := s.onStage (Stage.loadBank (s.calculate .hs))

/-- `SETC.LS1` (R129). -/
def execSetcLS1 (s : State) : Answer := s.onStage (Stage.loadBank (s.calculate .ls1))

/-- `SETC.HS1` (R130). -/
def execSetcHS1 (s : State) : Answer := s.onStage (Stage.loadBank (s.calculate .hs1))

/-- `raw = b0·in + b1·x1 + b2·x2 − a1·y1 − a2·y2`, five rounded products and four rounded sums from left to right
(R131). -/
def rawOf (d : Nat → NanDraw) (c : CoefSet) (h : History) (inp : F64) : F64 :=
  let t0 := fmul (d 1) c.b0 inp
  let t1 := fadd (d 3) t0 (fmul (d 2) c.b1 h.x1)
  let t2 := fadd (d 5) t1 (fmul (d 4) c.b2 h.x2)
  let t3 := fsub (d 7) t2 (fmul (d 6) c.a1 h.y1)
  fsub (d 9) t3 (fmul (d 8) c.a2 h.y2)

/-- The squelch (R132): `+0` when `|raw| < THRESH`, strictly; a NaN and an infinity pass. -/
def squelch (raw : F64) : F64 := if flt (fabs raw) thresh then zero64 else raw

/-- What `PROC` writes (R131): the shifted history, `OUT` and `OUT_VALID`. -/
def Stage.process (d : Nat → NanDraw) (sample : F32) (st : Stage) : Stage :=
  let inp := widen (d 0) sample
  let out := squelch (rawOf d st.bank st.hist inp)
  ({ st with hist := ⟨inp, st.hist.x1, out, st.hist.y1⟩, out := narrow (d 10) out } : Stage).strobe

/-- `PROC` (R131). -/
def execProc (s : State) : Answer := s.onStage (Stage.process s.nanDraw s.ports.sampleIn)

end Sys2Proof.Machine
end

