-- ==== Sys2Proof/Machine/Dispatch.lean ====
section
/-! DEFINITION. One arm per instruction. -/

namespace Sys2Proof.Machine

def exec (i : Instr) (s : State) : Host.Outcome State Fault Refusal :=
  match i with
  | .nop => Sys2Proof.Machine.execNop s
  | .reset => Sys2Proof.Machine.execReset s
  | .setcLP => Sys2Proof.Machine.execSetcLP s
  | .setcHP => Sys2Proof.Machine.execSetcHP s
  | .setcPK => Sys2Proof.Machine.execSetcPK s
  | .setcLS => Sys2Proof.Machine.execSetcLS s
  | .setcHS => Sys2Proof.Machine.execSetcHS s
  | .setcLS1 => Sys2Proof.Machine.execSetcLS1 s
  | .setcHS1 => Sys2Proof.Machine.execSetcHS1 s
  | .proc => Sys2Proof.Machine.execProc s
  | .coefLP => Sys2Proof.Machine.execCoefLP s
  | .coefHP => Sys2Proof.Machine.execCoefHP s
  | .coefPK => Sys2Proof.Machine.execCoefPK s
  | .coefLS => Sys2Proof.Machine.execCoefLS s
  | .coefHS => Sys2Proof.Machine.execCoefHS s
  | .coefLS1 => Sys2Proof.Machine.execCoefLS1 s
  | .coefHS1 => Sys2Proof.Machine.execCoefHS1 s

end Sys2Proof.Machine
end

