-- ==== Sys2Proof/Machine/Clock.lean ====
section
/-! DEFINITION. One thing the host does: a clock edge of the chain, or an evaluation of the stand-alone calculator
(30_encoding.md rules R53, R54; 43_filter_chain.md; 70_reset_and_hazards.md rule R172). -/

namespace Sys2Proof.Machine

/-- "A command is accepted at a rising edge of `clk` at which `rst = 0`, `cmd_valid = 1` and `cmd_ready = 1`" (R53);
`rst` is looked at first, in `clockEdge`. -/
def StagePins.accepts (p : StagePins) : Bool := p.cmdValid && p.cmdReady

/-- Run the instruction a word stands for; a reserved word is refused (R57, R116). -/
def execWord (c : CodeWord) (s : State) : Answer :=
  match decode c with
  | .ok i => exec i s
  | .error (.reservedCommand w) => .refused (.reservedCommand w)
  | .error (.reservedKind w) => .refused (.reservedKind w)

/-- The stage at position `i` at this edge: it executes the command it accepts, if it accepts one. -/
def stageEdge (i : Nat) (p : StagePins) (s : State) : Answer :=
  if p.accepts then execWord (.cmd p.cmd) (s.present i p.operands) else .next s

/-- The stages from position `i` on at this edge. All of them see the levels before the edge (R142): the later stages
are taken first, so that a stage reads `sample_out` of the one before it as it was (log 8). -/
def stagesEdge : Nat → List StagePins → State → Answer
  | _, [], s => .next s
  | i, p :: ps, s => andThen (stagesEdge (i + 1) ps s) (stageEdge i p)

/-- A stage's ports as they are in this cycle: in the first cycle after `rst` falls the stage "can accept a command"
(R172), that is, `cmd_ready = 1` (R53). -/
def State.seen (s : State) (p : StagePins) : StagePins := { p with cmdReady := p.cmdReady || s.afterRst }

/-- The stage accepts the command on its ports at this edge, if `rst = 0`. -/
def State.accepts (s : State) (p : StagePins) : Bool := (s.seen p).accepts

/-- A "reserved `cmd` value with `cmd_valid = 1`" (R164), whatever `cmd_ready`: "a host that presents one breaks the
contract" (R57). -/
def StagePins.presentsReserved (p : StagePins) : Bool :=
  p.cmdValid &&
    match decode (.cmd p.cmd) with
    | .ok _ => false
    | .error _ => true

/-- A rising edge of `clk` (R53, R172): `rst` first, "whatever `cmd_valid`, `cmd` and the operand ports carry"; without
it nothing before the first reset has a meaning (R173), nor has an edge at which a reserved word is presented (R164); then
every stage either executes the command it accepts or idles. -/
def clockEdge (rst : Bool) (pins : List StagePins) (s : State) : Answer :=
  if rst then .next s.hardwareReset
  else if s.resetSeen then
    match pins.find? StagePins.presentsReserved with
    | some p => .refused (.reservedCommand p.cmd)
    | none => stagesEdge 0 (pins.map s.seen) s.idleEdge
  else .refused .beforeReset

/-- What an entry of the host's list does. -/
def runEvent (e : Event) (s : State) : Answer :=
  match e with
  | .clock rst pins => clockEdge rst pins s
  | .calculator kind fs freq q gainDb => execWord (.kind kind) (s.presentCalc fs freq q gainDb)

/-- The event that presents a word to the hardware with these operand levels: the command port of the first stage, or
the kind port of the stand-alone calculator. -/
def eventOfWord (o : Operands) : CodeWord → Event
  | .cmd w => .clock false [⟨true, true, w, o⟩]
  | .kind w => .calculator w o.fs o.freq o.q o.gainDb

/-- The event for a word as opcode_table.json numbers its bits (log 15, 16); a number that is no word of either port
stands for the reserved kind, which is refused. -/
def eventOfTableWord (o : Operands) (nbits w : Nat) : Event :=
  eventOfWord o ((codeWordOfTable nbits w).getD (.kind 0b111#3))

end Sys2Proof.Machine
end

