-- ==== Sys2Proof/Machine/Step.lean ====
section
/-! DEFINITION. The step: the oldest entry of what the host presents, or an idle cycle when it presents nothing. -/

namespace Sys2Proof.Machine

/-- One step (R53, R54; log 1). -/
def step (s : State) : Host.Outcome State Fault Refusal :=
  match s.host with
  | [] => clockEdge false [] s
  | e :: rest => runEvent e { s with host := rest }

/-- `s` with a table word presented as the very next thing the host does, at the operand levels now on the ports
(log 15, 16). The word needs a machine that has been reset (R173). -/
def State.withFetchWord (s : State) (nbits w : Nat) : State :=
  { s with resetSeen := true, host := eventOfTableWord s.ports nbits w :: s.host }

end Sys2Proof.Machine
end

