-- ==== Sys2Proof/Machine/Assembler.lean ====
section
/-! DEFINITION. The assembly notation and the pseudo-instructions (30_encoding.md rules R60, R61): a line of text, the
line it stands for, and what the host then presents. "The text is a notation of this spec; the hardware sees only the
ports" (R60): nothing here adds a step to the machine. -/

namespace Sys2Proof.Machine

/-- The pattern of a 64-bit operand (R60): a decimal literal "stands for the binary64 value nearest to it, ties to
even". -/
def valueOfLit64 : Lit64 → F64
  | .bits w => w
  | .dec neg digits scale => round64 neg (digits * unitsPerOne) (10 ^ scale)
  | .any w => w

/-- The pattern of a `PROC` operand (R60). -/
def valueOfLit32 : Lit32 → F32
  | .bits w => w
  | .dec neg digits scale => round32 neg (digits * 2 ^ 149) (10 ^ scale)

/-- The ports of a stage to which nothing is presented. -/
def StagePins.idle : StagePins := ⟨false, true, 0, ⟨0, 0, 0, 0, 0⟩⟩

/-- One cycle in which the stage at position `i`, and no other, is presented a command word. -/
def commandEvent (i : Nat) (op : BitVec 2) (kind : KindBits) (o : Operands) : Event :=
  .clock false (List.replicate i StagePins.idle ++ [⟨true, true, cmdOf op kind, o⟩])

/-- One `PROC` presented to the stage at position `i`. -/
def procEvent (i : Nat) (sample : F32) : Event := commandEvent i 0b11#2 0b000#3 ⟨0, 0, 0, 0, sample⟩

/-- `CHAIN s` (R61, R142): one `PROC` per stage, in chain order; each stage after the first takes `sample_out` of the
one before it by the wiring, whatever its own pins carry. -/
def chainEvents (nStages : Nat) (sample : F32) : List Event :=
  (List.range nStages).map fun i => procEvent i sample

/-- What the host presents for a line (R60, R61). -/
def AsmLine.expand (nStages : Nat) : AsmLine → List Event
  | .construct => [.clock true []]
  | .idle => [.clock false []]
  | .nop i => [commandEvent i 0b00#2 0b000#3 ⟨0, 0, 0, 0, 0⟩]
  | .reset i => [commandEvent i 0b01#2 0b000#3 ⟨0, 0, 0, 0, 0⟩]
  | .setc i k fs freq q gainDb =>
    [commandEvent i 0b10#2 k.code ⟨valueOfLit64 fs, valueOfLit64 freq, valueOfLit64 q, valueOfLit64 gainDb, 0⟩]
  | .proc i sample => [procEvent i (valueOfLit32 sample)]
  | .procblk i samples => samples.map fun s => procEvent i (valueOfLit32 s)
  | .chain sample => chainEvents nStages (valueOfLit32 sample)

/-- A list of lines, "one command per line, executed top to bottom" (R60); refused when a line is ill-formed. -/
def assemble (nStages : Nat) (lines : List AsmLine) : Option (List Event) :=
  if lines.all (AsmLine.wellFormed nStages) then some (lines.flatMap (AsmLine.expand nStages)) else none

/-- The value of a digit: the number below 16 that is written with it, in either case (R7, R60). -/
def hexDigit (c : Char) : Option Nat := (List.range 16).find? fun v => Nat.digitChar v == c.toLower

/-- Digits of a base, most significant first (R7); `none` on any other character. -/
def digitsValue (base : Nat) : List Char → Nat → Option Nat
  | [], n => some n
  | c :: cs, n =>
    match hexDigit c with
    | some v => if v < base then digitsValue base cs (n * base + v) else none
    | none => none

/-- A hexadecimal pattern of exactly `len` digits after `0x` (R60). -/
def readHex (len : Nat) : List Char → Option Nat
  | '0' :: 'x' :: ds => if ds.length = len then digitsValue 16 ds 0 else none
  | _ => none

/-- A decimal literal: an optional sign, digits, and optionally a point and more digits (R60): its sign, its digits and
how many of them stand after the point. -/
def readDec (cs : List Char) : Option (Bool × Nat × Nat) :=
  let neg := cs.head? == some '-'
  let body := if neg then cs.drop 1 else cs
  let whole := body.takeWhile (· != '.')
  let part := (body.dropWhile (· != '.')).drop 1
  if whole.isEmpty then none
  else
    match digitsValue 10 (whole ++ part) 0 with
    | some n => some (neg, n, part.length)
    | none => none

/-- A 64-bit operand (R60); `_` gets the bits 0. -/
def readLit64 (cs : List Char) : Option Lit64 :=
  if cs = ['_'] then some (.any 0)
  else
    match readHex 16 cs with
    | some n => some (.bits (BitVec.ofNat 64 n))
    | none => (readDec cs).map fun v => .dec v.1 v.2.1 v.2.2

/-- A `PROC` operand (R60): a pattern of 8 digits, or a decimal literal with the suffix `f`. -/
def readLit32 (cs : List Char) : Option Lit32 :=
  match readHex 8 cs with
  | some n => some (.bits (BitVec.ofNat 32 n))
  | none => if cs.getLast? = some 'f' then (readDec cs.dropLast).map fun v => .dec v.1 v.2.1 v.2.2 else none

/-- All of a list, or nothing. -/
def readAll (read : List Char → Option Lit32) : List (List Char) → Option (List Lit32)
  | [] => some []
  | w :: ws =>
    match read w, readAll read ws with
    | some v, some vs => some (v :: vs)
    | _, _ => none

/-- The words of a line: what stands between spaces and commas, up to a `;` (R60). -/
def lineWords (cs : List Char) : List (List Char) :=
  let ws := (cs.takeWhile (· != ';')).foldr
    (fun c acc => if c = ' ' ∨ c = ',' then [] :: acc
      else match acc with
        | w :: ws => (c :: w) :: ws
        | [] => [[c]]) [[]]
  ws.filter fun w => !w.isEmpty

/-- The suffix of a kind (R52). -/
def kindOfSuffix (cs : List Char) : Option FilterKind :=
  if cs = ['L', 'P'] then some .lp
  else if cs = ['H', 'P'] then some .hp
  else if cs = ['P', 'K'] then some .pk
  else if cs = ['L', 'S'] then some .ls
  else if cs = ['H', 'S'] then some .hs
  else if cs = ['L', 'S', '1'] then some .ls1
  else if cs = ['H', 'S', '1'] then some .hs1
  else none

/-- The four operands of a `SETC`. -/
def readSetc (i : Nat) (k : Option FilterKind) : List (List Char) → Option AsmLine
  | [fs, freq, q, g] =>
    match k, readLit64 fs, readLit64 freq, readLit64 q, readLit64 g with
    | some k, some fs, some freq, some q, some g => some (.setc i k fs freq q g)
    | _, _, _, _, _ => none
  | _ => none

/-- A command's words, addressed to the stage at position `i`. -/
def readCommand (i : Nat) : List (List Char) → Option AsmLine
  | [] => none
  | op :: args =>
    if op = ['N', 'O', 'P'] ∧ args = [] then some (.nop i)
    else if op = ['R', 'E', 'S', 'E', 'T'] ∧ args = [] then some (.reset i)
    else if op.take 5 = ['S', 'E', 'T', 'C', '.'] then readSetc i (kindOfSuffix (op.drop 5)) args
    else if op = ['S', 'E', 'T', 'C'] then readSetc i (kindOfSuffix (args.headD [])) (args.drop 1)
    else if op = ['P', 'R', 'O', 'C', 'B', 'L', 'K'] then (readAll readLit32 args).map (.procblk i)
    else if op = ['P', 'R', 'O', 'C'] then
      match args with
      | [a] => (readLit32 a).map (.proc i)
      | _ => none
    else none

/-- The stage that the first word of a line names, if it is of the form `S<i>:` (R60). -/
def readStage (w : List Char) : Option Nat :=
  if w.head? = some 'S' ∧ w.getLast? = some ':' ∧ 2 < w.length then digitsValue 10 ((w.drop 1).dropLast) 0 else none

/-- A line of text (R60, R61); without a stage named, a command addresses the first. -/
def readLine (cs : List Char) : Option AsmLine :=
  match lineWords cs with
  | [] => none
  | w :: ws =>
    match readStage w with
    | some i => readCommand i ws
    | none =>
      if w = ['C', 'O', 'N', 'S', 'T', 'R', 'U', 'C', 'T'] ∧ ws = [] then some .construct
      else if w = ['I', 'D', 'L', 'E'] ∧ ws = [] then some .idle
      else if w = ['C', 'H', 'A', 'I', 'N'] then
        match ws with
        | [a] => (readLit32 a).map .chain
        | _ => none
      else readCommand 0 (w :: ws)

end Sys2Proof.Machine
end

