-- ==== Sys2Proof/Machine/Ideal.lean ====
section
/-! DEFINITION. The source's formulas in exact arithmetic over any field (41_coeff_calculator.md, the table of section 3 and
rules R109 to R111), and the gains and pole conditions of R115. "None of this section is a rule of the datapath": no
step uses it; it is what claims about the meaning of the coefficients are stated with. -/

namespace Sys2Proof.Machine

/-- The pre-normalisation values of a branch, exact. -/
structure IdealBranch (K : Type) where
  b0 : K
  b1 : K
  b2 : K
  a0 : K
  a1 : K
  a2 : K

variable {K : Type} [Field K]

/-- LowPass, from `cs` and `alpha` (R103). -/
def idealLP (cs alpha : K) : IdealBranch K :=
  ⟨(1 - cs) / 2, 1 - cs, (1 - cs) / 2, 1 + alpha, -2 * cs, 1 - alpha⟩

/-- HighPass (R104). -/
def idealHP (cs alpha : K) : IdealBranch K :=
  ⟨(1 + cs) / 2, -(1 + cs), (1 + cs) / 2, 1 + alpha, -2 * cs, 1 - alpha⟩

/-- Peaking (R105). -/
def idealPK (cs alpha A : K) : IdealBranch K :=
  ⟨1 + alpha * A, -2 * cs, 1 - alpha * A, 1 + alpha / A, -2 * cs, 1 - alpha / A⟩

/-- LowShelf (R107), with `beta = 2·√A·alpha` (R106). -/
def idealLS (cs beta A : K) : IdealBranch K :=
  ⟨A * ((A + 1) - (A - 1) * cs + beta), 2 * A * ((A - 1) - (A + 1) * cs), A * ((A + 1) - (A - 1) * cs - beta),
    (A + 1) + (A - 1) * cs + beta, -2 * ((A - 1) + (A + 1) * cs), (A + 1) + (A - 1) * cs - beta⟩

/-- HighShelf (R108). -/
def idealHS (cs beta A : K) : IdealBranch K :=
  ⟨A * ((A + 1) + (A - 1) * cs + beta), -2 * A * ((A - 1) + (A + 1) * cs), A * ((A + 1) + (A - 1) * cs - beta),
    (A + 1) - (A - 1) * cs + beta, 2 * ((A - 1) - (A + 1) * cs), (A + 1) - (A - 1) * cs - beta⟩

/-- LowShelf1 (R110), from `K = tan(π·freq/fs)` and `V0`. -/
def idealLS1 (k V0 : K) : IdealBranch K :=
  ⟨(V0 * k + 1) / (1 + k), (V0 * k - 1) / (1 + k), 0, 1, (k - 1) / (1 + k), 0⟩

/-- HighShelf1 (R111). -/
def idealHS1 (k V0 : K) : IdealBranch K :=
  ⟨(k + V0) / (1 + k), (k - V0) / (1 + k), 0, 1, (k - 1) / (1 + k), 0⟩

/-- `H(1)`, the gain at DC (R115); the common divisor `a0` of the normalised coefficients cancels. -/
def IdealBranch.dcGain (p : IdealBranch K) : K :=
  (p.b0 / p.a0 + p.b1 / p.a0 + p.b2 / p.a0) / (1 + p.a1 / p.a0 + p.a2 / p.a0)

/-- `H(-1)`, the gain at the Nyquist frequency (R115). -/
def IdealBranch.nyquistGain (p : IdealBranch K) : K :=
  (p.b0 / p.a0 - p.b1 / p.a0 + p.b2 / p.a0) / (1 - p.a1 / p.a0 + p.a2 / p.a0)

end Sys2Proof.Machine
end

