-- ==== Sys2Proof/Safety.lean ====
section
/-! DEFINITION. What claims are stated with: a safe answer, the invariants of 10_state.md rules R27 and R28, the shape of
a chain, and the states a run can reach. -/

namespace Sys2Proof.Machine

/-- A step that goes on. A step can stop only by refusing what the host presents (R57, R116, R173): there is no fault
(R150). -/
def Answer.goesOn : Answer → Bool
  | .next _ => true
  | .fault _ => false
  | .refused _ => false

/-- What `y1` and `y2` may hold (R27): `+0`, a NaN, an infinity, or a finite value not below `THRESH` in magnitude. -/
def outputRange64 (y : F64) : Bool :=
  y == zero64 || isNaN64 y || isInf64 y || (isFinite64 y && mag64 thresh ≤ mag64 y)

/-- What `OUT` may hold (R27): the same "with `narrow(THRESH) = 0x1E3CE508` as the bound". -/
def outputRange32 (z : F32) : Bool :=
  z == 0 || isNaN32 z || isInf32 z || (isFinite32 z && mag32 0x1E3CE508#32 ≤ mag32 z)

/-- `OUT = narrow(y1)` whenever `y1` is not a NaN, "and `OUT` is a NaN whenever `y1` is" (R28). -/
def outIsNarrowedY1 (st : Stage) : Prop :=
  (isNaN64 st.hist.y1 = false → ∀ d, st.out = narrow d st.hist.y1) ∧ (isNaN64 st.hist.y1 = true → isNaN32 st.out = true)

/-- R27 for a stage. -/
def Stage.inRange (st : Stage) : Prop :=
  outputRange64 st.hist.y1 = true ∧ outputRange64 st.hist.y2 = true ∧ outputRange32 st.out = true

/-- R27 and R28 for every stage of the chain. -/
def State.outputsOk (s : State) : Prop := ∀ st ∈ s.stages, st.inRange ∧ outIsNarrowedY1 st

/-- The chain has 2 to 4 stages (R6, R140). -/
def State.chainOk (s : State) : Prop := wellFormedChain s.stages.length = true

/-- The states that runs from the reset state reach, whatever the host presents. -/
inductive Reachable : State → Prop
  | reset (events : List Event) : Reachable { State.reset with host := events }
  | step {s t : State} : Reachable s → step s = .next t → Reachable t
  | present {s : State} (events : List Event) : Reachable s → Reachable { s with host := events }

/-- `r` is the real number `x` rounded once to binary64, to nearest with ties to even (R71, R72): from the midpoint above
the largest finite value on an infinity, otherwise the nearest finite value, of two equally near ones the one whose
last bit is 0; a non-zero `x` gives the result its sign, also where the result is a zero. -/
def NearestEven64 (r : F64) (x : ℝ) : Prop :=
  (x ≠ 0 → (sign64 r = true ↔ x < 0)) ∧
    ((2 : ℝ) ^ 1024 - 2 ^ 970 ≤ |x| → isInf64 r = true) ∧
    (|x| < (2 : ℝ) ^ 1024 - 2 ^ 970 → isFinite64 r = true ∧ ∀ c : F64, isFinite64 c = true →
      |(value64 r : ℝ) - x| ≤ |(value64 c : ℝ) - x| ∧
        (value64 c ≠ value64 r → |(value64 c : ℝ) - x| = |(value64 r : ℝ) - x| → r.getLsbD 0 = false))

/-- `r` is the real number `x` rounded once to binary32, to nearest with ties to even (R71, R81). -/
def NearestEven32 (r : F32) (x : ℝ) : Prop :=
  (x ≠ 0 → (sign32 r = true ↔ x < 0)) ∧
    ((2 : ℝ) ^ 128 - 2 ^ 103 ≤ |x| → isInf32 r = true) ∧
    (|x| < (2 : ℝ) ^ 128 - 2 ^ 103 → isFinite32 r = true ∧ ∀ c : F32, isFinite32 c = true →
      |(value32 r : ℝ) - x| ≤ |(value32 c : ℝ) - x| ∧
        (value32 c ≠ value32 r → |(value32 c : ℝ) - x| = |(value32 r : ℝ) - x| → r.getLsbD 0 = false))

/-- An implementation of `NUM` of the kind R77 admits: of the magnitudes between the bracketing ones below and above the
exact result it may return any. -/
def NumRounding.Admissible (rnd : NumRounding) : Prop :=
  ∀ (f : NumFn) (a : F64) (below nearest above : Nat), below ≤ nearest → nearest ≤ above →
    below ≤ rnd f a below nearest above ∧ rnd f a below nearest above ≤ above

/-- `r` is one of the two binary64 values that bracket the real number `x` (`NUM.faithful`, R77), up to a margin `e`: no
finite value lies between the two by that margin, so that `r` is at least every finite value up to `x - e` and at most
every finite value from `x + e` on. An infinity counts as 2^1024. -/
def FaithfulWithin (e : ℝ) (r : F64) (x : ℝ) : Prop :=
  isNaN64 r = false ∧ ∀ c : F64, isFinite64 c = true →
    ((value64 c : ℝ) + e ≤ x → value64 c ≤ value64 r) ∧ (x + e ≤ value64 c → value64 r ≤ value64 c)

/-- `r` is the real number `x` rounded once to nearest (R71, R78), up to a margin `e`: no finite value is nearer to `x` by
more than `e`, below the midpoint above the largest finite value by that margin; above it by that margin, an infinity. -/
def NearestWithin (e : ℝ) (r : F64) (x : ℝ) : Prop :=
  ((2 : ℝ) ^ 1024 - 2 ^ 970 + e ≤ |x| → isInf64 r = true) ∧
    (|x| + e < (2 : ℝ) ^ 1024 - 2 ^ 970 → isFinite64 r = true ∧ ∀ c : F64, isFinite64 c = true →
      |(value64 r : ℝ) - x| ≤ |(value64 c : ℝ) - x| + e)

/-- The contract of R101 in real values: `fs` finite and positive, `0 < freq < fs/2`, `q` finite and positive for the
second-order kinds, `gain_db` finite for the kinds that use it. -/
def ValidSpec (k : FilterKind) (o : Operands) : Prop :=
  (isFinite64 o.fs = true ∧ 0 < value64 o.fs) ∧
    (isFinite64 o.freq = true ∧ 0 < value64 o.freq ∧ value64 o.freq < value64 o.fs / 2) ∧
    (usesQ k = true → isFinite64 o.q = true ∧ 0 < value64 o.q) ∧ (usesGain k = true → isFinite64 o.gainDb = true)

/-- The operands a kind uses (R114), the ignored ones blanked. -/
def consumedByKind (k : FilterKind) (o : Operands) : Operands :=
  { fs := o.fs, freq := o.freq, q := if usesQ k then o.q else 0, gainDb := if usesGain k then o.gainDb else 0,
    sampleIn := 0 }

/-- The operands an instruction consumes (R56), the ignored ones blanked. -/
def consumedBy (i : Instr) (o : Operands) : Operands :=
  match i with
  | .nop | .reset => ⟨0, 0, 0, 0, 0⟩
  | .proc => ⟨0, 0, 0, 0, o.sampleIn⟩
  | .setcLP | .coefLP => consumedByKind .lp o
  | .setcHP | .coefHP => consumedByKind .hp o
  | .setcPK | .coefPK => consumedByKind .pk o
  | .setcLS | .coefLS => consumedByKind .ls o
  | .setcHS | .coefHS => consumedByKind .hs o
  | .setcLS1 | .coefLS1 => consumedByKind .ls1 o
  | .setcHS1 | .coefHS1 => consumedByKind .hs1 o

/-- Every one of five coefficients is a number or an infinity. -/
def NoNaN (c : CoefSet) : Prop :=
  isNaN64 c.b0 = false ∧ isNaN64 c.b1 = false ∧ isNaN64 c.b2 = false ∧ isNaN64 c.a1 = false ∧ isNaN64 c.a2 = false

/-- Bit for bit the same, or two NaNs, whose bits the spec does not fix (R74). -/
def SameOrNaN (x y : F64) : Prop := x = y ∨ (isNaN64 x = true ∧ isNaN64 y = true)

end Sys2Proof.Machine
end

