-- ==== Sys2Proof/Laws/Rounding.lean ====
section
/-! SUPPORT. What rounding does, once and for all: the magnitudes of a format are ordered as their values, and
`roundNearest` is the nearest of them (R71). -/

namespace Sys2Proof.Machine

/-- The magnitude just at or below `num/den` units, before any cap at infinity. -/
def floorMag (fb num den : Nat) : Nat :=
  spacingExp fb num den * 2 ^ fb + num / (den * 2 ^ spacingExp fb num den)

theorem unitsOf_small {fb m : Nat} (h : m < 2 ^ fb) : unitsOf fb m = m := by
  simp [unitsOf, h]

/-- A magnitude with exponent `k` and significand `q` is worth `q · 2^k` units, the carry into the next exponent
included. -/
theorem unitsOf_scaled {fb k q : Nat} (hq : q ≤ 2 ^ (fb + 1)) (hk : k = 0 ∨ 2 ^ fb ≤ q) :
    unitsOf fb (k * 2 ^ fb + q) = q * 2 ^ k := by
  have hp : 0 < 2 ^ fb := Nat.two_pow_pos fb
  rw [pow_succ] at hq
  rcases Nat.lt_or_ge q (2 ^ fb) with hlt | hge
  · have hk0 : k = 0 := hk.resolve_right (by omega)
    subst hk0
    simp [unitsOf_small hlt]
  · obtain ⟨r, rfl⟩ : ∃ r, q = 2 ^ fb + r := ⟨q - 2 ^ fb, by omega⟩
    have hnot : ¬ k * 2 ^ fb + (2 ^ fb + r) < 2 ^ fb := by
      have := Nat.zero_le (k * 2 ^ fb)
      omega
    rcases Nat.lt_or_ge r (2 ^ fb) with hr | hr
    · have e : k * 2 ^ fb + (2 ^ fb + r) = r + (k + 1) * 2 ^ fb := by ring
      rw [unitsOf, if_neg hnot, e, Nat.add_mul_mod_self_right, Nat.mod_eq_of_lt hr, Nat.add_mul_div_right _ _ hp,
        Nat.div_eq_of_lt hr]
      simp
    · have hr' : r = 2 ^ fb := by omega
      subst hr'
      have e : k * 2 ^ fb + (2 ^ fb + 2 ^ fb) = 0 + (k + 2) * 2 ^ fb := by ring
      rw [unitsOf, if_neg hnot, e, Nat.add_mul_mod_self_right, Nat.add_mul_div_right _ _ hp]
      simp only [Nat.zero_mod, Nat.zero_div, Nat.add_zero, Nat.zero_add]
      rw [show k + 2 - 1 = k + 1 by omega, pow_succ]
      ring

/-- Every magnitude has an exponent and a significand. -/
theorem exists_scaled (fb m : Nat) :
    ∃ k q, m = k * 2 ^ fb + q ∧ q < 2 ^ (fb + 1) ∧ (k = 0 ∨ 2 ^ fb ≤ q) := by
  have hp : 0 < 2 ^ fb := Nat.two_pow_pos fb
  rcases Nat.lt_or_ge m (2 ^ fb) with h | h
  · exact ⟨0, m, by simp, by rw [pow_succ]; omega, .inl rfl⟩
  · refine ⟨m / 2 ^ fb - 1, m % 2 ^ fb + 2 ^ fb, ?_, ?_, .inr (by omega)⟩
    · have h1 : 1 ≤ m / 2 ^ fb := (Nat.one_le_div_iff hp).2 h
      have h2 := Nat.div_add_mod m (2 ^ fb)
      obtain ⟨j, hj⟩ : ∃ j, m / 2 ^ fb = j + 1 := ⟨m / 2 ^ fb - 1, by omega⟩
      rw [hj] at h2 ⊢
      simp only [Nat.add_sub_cancel]
      nlinarith
    · have := Nat.mod_lt m hp
      rw [pow_succ]
      omega

theorem unitsOf_lt_succ (fb m : Nat) : unitsOf fb m < unitsOf fb (m + 1) := by
  obtain ⟨k, q, rfl, hq, hk⟩ := exists_scaled fb m
  rw [unitsOf_scaled hq.le hk, Nat.add_assoc, unitsOf_scaled (by omega) (hk.imp_right (by omega))]
  have := Nat.two_pow_pos k
  nlinarith

theorem unitsOf_strictMono (fb : Nat) : StrictMono (unitsOf fb) := strictMono_nat_of_lt_succ (unitsOf_lt_succ fb)

@[simp] theorem unitsOf_zero (fb : Nat) : unitsOf fb 0 = 0 := unitsOf_small (Nat.two_pow_pos fb)

theorem spacingExp_spec {fb num den : Nat} :
    num / (den * 2 ^ spacingExp fb num den) < 2 ^ (fb + 1) ∧
      (spacingExp fb num den = 0 ∨ 2 ^ fb ≤ num / (den * 2 ^ spacingExp fb num den)) := by
  unfold spacingExp
  rw [← Nat.div_div_eq_div_mul]
  generalize num / den = v
  rcases Nat.eq_zero_or_pos v with rfl | hv
  · simp
  · constructor
    · rw [Nat.div_lt_iff_lt_mul (Nat.two_pow_pos _), ← pow_add]
      refine lt_of_lt_of_le (Nat.lt_log2_self (n := v)) (Nat.pow_le_pow_right (by omega) (by omega))
    · by_cases h : v.log2 ≤ fb
      · left; omega
      · right
        rw [Nat.le_div_iff_mul_le (Nat.two_pow_pos _), ← pow_add, show fb + (v.log2 - fb) = v.log2 by omega]
        exact Nat.log2_self_le (by omega)

/-- The value lies between the floor magnitude and the next one. -/
theorem floorMag_bounds (fb : Nat) {num den : Nat} (hd : 0 < den) :
    unitsOf fb (floorMag fb num den) * den ≤ num ∧ num < unitsOf fb (floorMag fb num den + 1) * den := by
  obtain ⟨h1, h2⟩ := spacingExp_spec (fb := fb) (num := num) (den := den)
  unfold floorMag
  generalize hk : spacingExp fb num den = k at h1 h2 ⊢
  generalize hq : num / (den * 2 ^ k) = q at h1 h2 ⊢
  have hpos : 0 < den * 2 ^ k := Nat.mul_pos hd (Nat.two_pow_pos k)
  rw [unitsOf_scaled h1.le h2, Nat.add_assoc, unitsOf_scaled (by omega) (h2.imp_right (by omega))]
  have a : q * (den * 2 ^ k) ≤ num := by rw [← hq]; exact Nat.div_mul_le_self _ _
  have b : num < (q + 1) * (den * 2 ^ k) := by
    rw [← hq, Nat.add_mul, Nat.one_mul]
    exact Nat.lt_div_mul_add hpos
  constructor <;> nlinarith

/-- Those bounds say which magnitude it is. -/
theorem floorMag_eq {fb num den m : Nat} (hd : 0 < den) (h1 : unitsOf fb m * den ≤ num)
    (h2 : num < unitsOf fb (m + 1) * den) : floorMag fb num den = m := by
  obtain ⟨a, b⟩ := floorMag_bounds fb (num := num) hd
  have c : floorMag fb num den < m + 1 :=
    (unitsOf_strictMono fb).lt_iff_lt.1 (Nat.lt_of_mul_lt_mul_right (a := den) (by omega))
  have d : m < floorMag fb num den + 1 :=
    (unitsOf_strictMono fb).lt_iff_lt.1 (Nat.lt_of_mul_lt_mul_right (a := den) (by omega))
  omega

/-- What is added to the floor magnitude: 1 above the midpoint, and at the midpoint 1 from an odd magnitude (ties to
even). -/
def roundStep (fb num den m : Nat) : Nat :=
  let mid := (unitsOf fb m + unitsOf fb (m + 1)) * den
  if mid < 2 * num then 1 else if mid = 2 * num then m % 2 else 0

theorem roundStep_le_one (fb num den m : Nat) : roundStep fb num den m ≤ 1 := by
  simp only [roundStep]
  split
  · exact le_rfl
  · split <;> omega

/-- Everything `roundNearest` does: the floor magnitude, one more where that is nearer, at most infinity. -/
theorem roundNearest_eq {fb inf num den : Nat} (hfb : 0 < fb) (hd : 0 < den) :
    roundNearest fb inf num den =
      min inf (floorMag fb num den + roundStep fb num den (floorMag fb num den)) := by
  obtain ⟨h1, h2⟩ := spacingExp_spec (fb := fb) (num := num) (den := den)
  unfold roundNearest floorMag roundStep
  generalize hk : spacingExp fb num den = k at h1 h2 ⊢
  generalize hq : num / (den * 2 ^ k) = q at h1 h2 ⊢
  have hpos : 0 < den * 2 ^ k := Nat.mul_pos hd (Nat.two_pow_pos k)
  have hnum : num = (den * 2 ^ k) * q + num % (den * 2 ^ k) := by rw [← hq]; exact (Nat.div_add_mod _ _).symm
  have hmid : (unitsOf fb (k * 2 ^ fb + q) + unitsOf fb (k * 2 ^ fb + q + 1)) * den =
      2 * ((den * 2 ^ k) * q) + den * 2 ^ k := by
    rw [unitsOf_scaled h1.le h2, Nat.add_assoc, unitsOf_scaled (by omega) (h2.imp_right (by omega))]
    ring
  have hpar : (k * 2 ^ fb + q) % 2 = q % 2 := by
    obtain ⟨n, rfl⟩ : ∃ n, fb = n + 1 := ⟨fb - 1, by omega⟩
    rw [pow_succ, ← Nat.mul_assoc]
    omega
  simp only [hq, hmid, hpar]
  generalize den * 2 ^ k = w at *
  generalize num % w = r at *
  generalize w * q = wq at *
  have c1 : (2 * wq + w < 2 * num) = (w < 2 * r) := by rw [eq_iff_iff]; omega
  have c2 : (2 * wq + w = 2 * num) = (2 * r = w) := by rw [eq_iff_iff]; omega
  simp only [c1, c2]

/-- A value that the format has is its own rounding (R72: exact results stay). -/
theorem roundNearest_exact {fb inf num den m : Nat} (hfb : 0 < fb) (hd : 0 < den) (h : num = unitsOf fb m * den) :
    roundNearest fb inf num den = min inf m := by
  have hlt := unitsOf_lt_succ fb m
  have hf : floorMag fb num den = m :=
    floorMag_eq hd (by omega) (by rw [h]; exact Nat.mul_lt_mul_of_pos_right hlt hd)
  have hstep : roundStep fb num den m = 0 := by
    have : 2 * num < (unitsOf fb m + unitsOf fb (m + 1)) * den := by rw [h]; nlinarith
    unfold roundStep
    simp only
    rw [if_neg (by omega), if_neg (by omega)]
  rw [roundNearest_eq hfb hd, hf, hstep, Nat.add_zero]

theorem floorMag_mono {fb n₁ d₁ n₂ d₂ : Nat} (h₁ : 0 < d₁) (h₂ : 0 < d₂) (h : n₁ * d₂ ≤ n₂ * d₁) :
    floorMag fb n₁ d₁ ≤ floorMag fb n₂ d₂ := by
  have a := (floorMag_bounds fb (num := n₁) h₁).1
  have b := (floorMag_bounds fb (num := n₂) h₂).2
  refine Nat.lt_succ_iff.1 ((unitsOf_strictMono fb).lt_iff_lt.1 ?_)
  have c : unitsOf fb (floorMag fb n₁ d₁) * (d₁ * d₂) < unitsOf fb (floorMag fb n₂ d₂ + 1) * (d₁ * d₂) := by
    calc unitsOf fb (floorMag fb n₁ d₁) * (d₁ * d₂) = unitsOf fb (floorMag fb n₁ d₁) * d₁ * d₂ := by ring
      _ ≤ n₁ * d₂ := Nat.mul_le_mul_right _ a
      _ ≤ n₂ * d₁ := h
      _ < unitsOf fb (floorMag fb n₂ d₂ + 1) * d₂ * d₁ := Nat.mul_lt_mul_of_pos_right b h₁
      _ = unitsOf fb (floorMag fb n₂ d₂ + 1) * (d₁ * d₂) := by ring
  exact Nat.lt_of_mul_lt_mul_right c

/-- Rounding keeps order: `num/den` is never rounded above what a larger value is rounded to. -/
theorem roundNearest_mono {fb inf n₁ d₁ n₂ d₂ : Nat} (hfb : 0 < fb) (h₁ : 0 < d₁) (h₂ : 0 < d₂)
    (h : n₁ * d₂ ≤ n₂ * d₁) : roundNearest fb inf n₁ d₁ ≤ roundNearest fb inf n₂ d₂ := by
  rw [roundNearest_eq hfb h₁, roundNearest_eq hfb h₂]
  refine min_le_min le_rfl ?_
  have hm := floorMag_mono (fb := fb) h₁ h₂ h
  rcases Nat.lt_or_ge (floorMag fb n₁ d₁) (floorMag fb n₂ d₂) with hlt | hge
  · have := roundStep_le_one fb n₁ d₁ (floorMag fb n₁ d₁)
    omega
  · have e : floorMag fb n₁ d₁ = floorMag fb n₂ d₂ := by omega
    rw [e]
    generalize floorMag fb n₂ d₂ = m
    refine Nat.add_le_add_left ?_ m
    unfold roundStep
    simp only
    generalize unitsOf fb m + unitsOf fb (m + 1) = mid
    have key : ∀ {x : Nat}, x * d₁ * d₂ = x * d₂ * d₁ := by intro x; ring
    rcases lt_trichotomy (mid * d₁) (2 * n₁) with c | c | c
    · have : mid * d₂ < 2 * n₂ := by
        refine Nat.lt_of_mul_lt_mul_right (a := d₁) ?_
        rw [← key]
        calc mid * d₁ * d₂ < 2 * n₁ * d₂ := Nat.mul_lt_mul_of_pos_right c h₂
          _ ≤ 2 * n₂ * d₁ := by nlinarith
      rw [if_pos c, if_pos this]
    · have : mid * d₂ ≤ 2 * n₂ := by
        refine Nat.le_of_mul_le_mul_right (c := d₁) ?_ h₁
        rw [← key, c]
        nlinarith
      rw [if_neg (by omega), if_pos c]
      rcases Nat.lt_or_ge (mid * d₂) (2 * n₂) with d | d
      · rw [if_pos d]; omega
      · rw [if_neg (by omega), if_pos (by omega)]
    · rw [if_neg (by omega), if_neg (by omega)]
      exact Nat.zero_le _

/-- No magnitude below infinity is nearer to the value than its rounding, when that is below infinity. -/
theorem roundNearest_nearest {fb inf num den : Nat} (hfb : 0 < fb) (hd : 0 < den)
    (hfin : roundNearest fb inf num den < inf) (m : Nat) :
    |(unitsOf fb (roundNearest fb inf num den) * den : Int) - num| ≤ |(unitsOf fb m * den : Int) - num| := by
  obtain ⟨a, b⟩ := floorMag_bounds fb (num := num) hd
  rw [roundNearest_eq hfb hd] at hfin ⊢
  generalize floorMag fb num den = f at *
  rw [min_eq_right (by omega)]
  have hm : unitsOf fb m * den ≤ unitsOf fb f * den ∨ unitsOf fb (f + 1) * den ≤ unitsOf fb m * den := by
    rcases Nat.lt_or_ge f m with h | h
    · exact .inr (Nat.mul_le_mul_right _ ((unitsOf_strictMono fb).monotone h))
    · exact .inl (Nat.mul_le_mul_right _ ((unitsOf_strictMono fb).monotone h))
  have hmid : (unitsOf fb f + unitsOf fb (f + 1)) * den = unitsOf fb f * den + unitsOf fb (f + 1) * den := by ring
  have hstep : (roundStep fb num den f = 0 ∧ 2 * num ≤ unitsOf fb f * den + unitsOf fb (f + 1) * den) ∨
      (roundStep fb num den f = 1 ∧ unitsOf fb f * den + unitsOf fb (f + 1) * den ≤ 2 * num) := by
    unfold roundStep
    simp only [hmid]
    split
    · right; omega
    · split
      · rcases Nat.mod_two_eq_zero_or_one f with h | h <;> rw [h] <;> omega
      · left; omega
  have cast : ∀ x : Nat, (unitsOf fb x : Int) * den = ((unitsOf fb x * den : Nat) : Int) := fun x => by push_cast; rfl
  rw [cast, cast]
  have habs : ∀ x y n : Nat, (y ≤ x ∧ x ≤ n ∨ n ≤ x ∧ x ≤ y ∨ x ≤ n ∧ 2 * n ≤ x + y ∨ n ≤ x ∧ x + y ≤ 2 * n) →
      |((x : Nat) : Int) - n| ≤ |((y : Nat) : Int) - n| := by
    intro x y n h
    rcases abs_cases ((x : Int) - n) with ⟨e, _⟩ | ⟨e, _⟩ <;> rcases abs_cases ((y : Int) - n) with ⟨e', _⟩ | ⟨e', _⟩ <;>
      omega
  rcases hstep with ⟨h0, h⟩ | ⟨h1, h⟩
  · rw [h0, Nat.add_zero]
    exact habs _ _ _ (by omega)
  · rw [h1]
    exact habs _ _ _ (by omega)

theorem roundNearest_le_inf (fb inf num den : Nat) : roundNearest fb inf num den ≤ inf := by
  simp only [roundNearest]
  exact Nat.min_le_left _ _

theorem roundDown_eq (fb inf num den : Nat) : roundDown fb inf num den = min inf (floorMag fb num den) := rfl

end Sys2Proof.Machine
end

