-- ==== Sys2Proof/Laws/Float.lean ====
section
/-! SUPPORT. The patterns of 40_numerics.md: a pattern is its sign and its magnitude, and what each primitive does to
them. -/

namespace Sys2Proof.Machine

/-! ### A pattern is its sign and its magnitude -/

theorem mag64_lt (x : F64) : mag64 x < 2 ^ 63 := Nat.mod_lt _ (by decide)

theorem mag32_lt (x : F32) : mag32 x < 2 ^ 31 := Nat.mod_lt _ (by decide)

theorem toNat_eq64 (x : F64) : x.toNat = (if sign64 x then 2 ^ 63 else 0) + mag64 x := by
  have h := x.isLt
  simp only [sign64, mag64, BitVec.msb_eq_decide, decide_eq_true_eq]
  split <;> omega

theorem toNat_eq32 (x : F32) : x.toNat = (if sign32 x then 2 ^ 31 else 0) + mag32 x := by
  have h := x.isLt
  simp only [sign32, mag32, BitVec.msb_eq_decide, decide_eq_true_eq]
  split <;> omega

/-- Two patterns of one sign and one magnitude are one pattern. -/
theorem eq_of_sign_mag64 {x y : F64} (hs : sign64 x = sign64 y) (hm : mag64 x = mag64 y) : x = y := by
  apply BitVec.eq_of_toNat_eq
  rw [toNat_eq64, toNat_eq64, hs, hm]

theorem eq_of_sign_mag32 {x y : F32} (hs : sign32 x = sign32 y) (hm : mag32 x = mag32 y) : x = y := by
  apply BitVec.eq_of_toNat_eq
  rw [toNat_eq32, toNat_eq32, hs, hm]

theorem mag64_pack {s : Bool} {m : Nat} (h : m < 2 ^ 63) : mag64 (pack64 s m) = m := by
  cases s <;> simp [mag64, pack64, BitVec.toNat_ofNat] <;> omega

theorem sign64_pack {s : Bool} {m : Nat} (h : m < 2 ^ 63) : sign64 (pack64 s m) = s := by
  cases s <;> simp [sign64, pack64, BitVec.msb_eq_decide, BitVec.toNat_ofNat] <;> omega

theorem mag32_pack {s : Bool} {m : Nat} (h : m < 2 ^ 31) : mag32 (pack32 s m) = m := by
  cases s <;> simp [mag32, pack32, BitVec.toNat_ofNat] <;> omega

theorem sign32_pack {s : Bool} {m : Nat} (h : m < 2 ^ 31) : sign32 (pack32 s m) = s := by
  cases s <;> simp [sign32, pack32, BitVec.msb_eq_decide, BitVec.toNat_ofNat] <;> omega

@[simp] theorem pack64_sign_mag (x : F64) : pack64 (sign64 x) (mag64 x) = x :=
  eq_of_sign_mag64 (sign64_pack (mag64_lt x)) (mag64_pack (mag64_lt x))

@[simp] theorem pack32_sign_mag (x : F32) : pack32 (sign32 x) (mag32 x) = x :=
  eq_of_sign_mag32 (sign32_pack (mag32_lt x)) (mag32_pack (mag32_lt x))

theorem inf64_lt : inf64 < 2 ^ 63 := by decide

theorem inf32_lt : inf32 < 2 ^ 31 := by decide

/-- A pattern is exactly one of finite, infinite and NaN. -/
theorem isFinite64_eq (x : F64) : isFinite64 x = (!isNaN64 x && !isInf64 x) := by
  simp only [isFinite64, isNaN64, isInf64]
  generalize mag64 x = m
  rcases Nat.lt_trichotomy m inf64 with h | h | h
  · simp [h, Nat.ne_of_lt h, Nat.lt_asymm h]
  · simp [h]
  · simp [h, Nat.lt_asymm h]

theorem isFinite32_eq (x : F32) : isFinite32 x = (!isNaN32 x && !isInf32 x) := by
  simp only [isFinite32, isNaN32, isInf32]
  generalize mag32 x = m
  rcases Nat.lt_trichotomy m inf32 with h | h | h
  · simp [h, Nat.ne_of_lt h, Nat.lt_asymm h]
  · simp [h]
  · simp [h, Nat.lt_asymm h]

/-! ### The sign primitives -/

@[simp] theorem mag64_fneg (x : F64) : mag64 (fneg x) = mag64 x := by
  have : (fneg x).toNat % 2 ^ 63 = x.toNat % 2 ^ 63 := by
    rw [← Nat.and_two_pow_sub_one_eq_mod, ← Nat.and_two_pow_sub_one_eq_mod, fneg, BitVec.toNat_xor,
      Nat.and_xor_distrib_right]
    simp
  exact this

@[simp] theorem sign64_fneg (x : F64) : sign64 (fneg x) = !sign64 x := by
  simp only [sign64, fneg, BitVec.msb_xor, show (0x8000000000000000#64).msb = true from rfl, Bool.xor_true]

@[simp] theorem mag64_fabs (x : F64) : mag64 (fabs x) = mag64 x := by
  have : (fabs x).toNat % 2 ^ 63 = x.toNat % 2 ^ 63 := by
    rw [← Nat.and_two_pow_sub_one_eq_mod, ← Nat.and_two_pow_sub_one_eq_mod, fabs, BitVec.toNat_and, Nat.and_assoc]
    simp
  exact this

@[simp] theorem sign64_fabs (x : F64) : sign64 (fabs x) = false := by
  simp only [sign64, fabs, BitVec.msb_and, show (0x7FFFFFFFFFFFFFFF#64).msb = false from rfl, Bool.and_false]

@[simp] theorem isNaN64_fneg (x : F64) : isNaN64 (fneg x) = isNaN64 x := by simp [isNaN64]

@[simp] theorem isNaN64_fabs (x : F64) : isNaN64 (fabs x) = isNaN64 x := by simp [isNaN64]

@[simp] theorem isInf64_fneg (x : F64) : isInf64 (fneg x) = isInf64 x := by simp [isInf64]

@[simp] theorem isInf64_fabs (x : F64) : isInf64 (fabs x) = isInf64 x := by simp [isInf64]

@[simp] theorem units64_fneg (x : F64) : units64 (fneg x) = units64 x := by simp [units64]

@[simp] theorem units64_fabs (x : F64) : units64 (fabs x) = units64 x := by simp [units64]

theorem signed64_fneg (x : F64) : signed64 (fneg x) = -signed64 x := by
  simp only [signed64, sign64_fneg, units64_fneg]
  cases sign64 x <;> simp

theorem signed64_fabs (x : F64) : signed64 (fabs x) = units64 x := by simp [signed64]

/-! ### NaNs -/

theorem toNat_nan64 (d : NanDraw) :
    (nan64 d).toNat = (d.toNat / 2 ^ 51) * 2 ^ 63 + 0xFFF * 2 ^ 51 + d.toNat % 2 ^ 51 := by
  have hd := d.isLt
  have hx : (d.extractLsb' 51 1).toNat = d.toNat / 2 ^ 51 := by
    simp [BitVec.extractLsb'_toNat, Nat.shiftRight_eq_div_pow]
    omega
  have hz : (d.extractLsb' 0 51).toNat = d.toNat % 2 ^ 51 := by simp [BitVec.extractLsb'_toNat]
  unfold nan64
  rw [BitVec.toNat_append, BitVec.toNat_append, hx, hz, ← Nat.shiftLeft_add_eq_or_of_lt (by omega),
    ← Nat.shiftLeft_add_eq_or_of_lt (by simp), Nat.shiftLeft_eq, Nat.shiftLeft_eq]
  simp
  omega

theorem mag64_nan64 (d : NanDraw) : mag64 (nan64 d) = 0xFFF * 2 ^ 51 + d.toNat % 2 ^ 51 := by
  have hd := d.isLt
  rw [mag64, toNat_nan64]
  omega

/-- Every NaN an operation returns is a quiet one (R74). -/
@[simp] theorem isQuietNaN64_nan64 (d : NanDraw) : isQuietNaN64 (nan64 d) = true := by
  have hbit : (nan64 d).getLsbD 51 = true := by
    rw [BitVec.getLsbD, toNat_nan64, Nat.testBit_eq_decide_div_mod_eq]
    simp
    omega
  have h := mag64_nan64 d
  simp only [isQuietNaN64, hbit, Bool.and_true, isNaN64, inf64, h]
  simp
  omega

@[simp] theorem isNaN64_nan64 (d : NanDraw) : isNaN64 (nan64 d) = true := by
  have h := isQuietNaN64_nan64 d
  simp only [isQuietNaN64, Bool.and_eq_true] at h
  exact h.1

theorem toNat_nan32 (d : NanDraw) :
    (nan32 d).toNat = (d.toNat / 2 ^ 22 % 2) * 2 ^ 31 + 0x1FF * 2 ^ 22 + d.toNat % 2 ^ 22 := by
  have hx : (d.extractLsb' 22 1).toNat = d.toNat / 2 ^ 22 % 2 := by
    simp [BitVec.extractLsb'_toNat, Nat.shiftRight_eq_div_pow]
  have hz : (d.extractLsb' 0 22).toNat = d.toNat % 2 ^ 22 := by simp [BitVec.extractLsb'_toNat]
  unfold nan32
  rw [BitVec.toNat_append, BitVec.toNat_append, hx, hz, ← Nat.shiftLeft_add_eq_or_of_lt (by omega),
    ← Nat.shiftLeft_add_eq_or_of_lt (by simp), Nat.shiftLeft_eq, Nat.shiftLeft_eq]
  simp
  omega

@[simp] theorem isQuietNaN32_nan32 (d : NanDraw) : isQuietNaN32 (nan32 d) = true := by
  have hbit : (nan32 d).getLsbD 22 = true := by
    rw [BitVec.getLsbD, toNat_nan32, Nat.testBit_eq_decide_div_mod_eq]
    simp
    omega
  have h : mag32 (nan32 d) = 0x1FF * 2 ^ 22 + d.toNat % 2 ^ 22 := by
    rw [mag32, toNat_nan32]
    omega
  simp only [isQuietNaN32, hbit, Bool.and_true, isNaN32, inf32, h]
  simp
  omega

@[simp] theorem isNaN32_nan32 (d : NanDraw) : isNaN32 (nan32 d) = true := by
  have h := isQuietNaN32_nan32 d
  simp only [isQuietNaN32, Bool.and_eq_true] at h
  exact h.1

/-! ### Rounded patterns -/

theorem roundNearest64_lt (num den : Nat) : roundNearest 52 inf64 num den < 2 ^ 63 :=
  lt_of_le_of_lt (roundNearest_le_inf ..) inf64_lt

theorem roundNearest32_lt (num den : Nat) : roundNearest 23 inf32 num den < 2 ^ 31 :=
  lt_of_le_of_lt (roundNearest_le_inf ..) inf32_lt

@[simp] theorem mag64_round64 (s : Bool) (num den : Nat) : mag64 (round64 s num den) = roundNearest 52 inf64 num den :=
  mag64_pack (roundNearest64_lt ..)

@[simp] theorem sign64_round64 (s : Bool) (num den : Nat) : sign64 (round64 s num den) = s :=
  sign64_pack (roundNearest64_lt ..)

@[simp] theorem mag32_round32 (s : Bool) (num den : Nat) : mag32 (round32 s num den) = roundNearest 23 inf32 num den :=
  mag32_pack (roundNearest32_lt ..)

@[simp] theorem sign32_round32 (s : Bool) (num den : Nat) : sign32 (round32 s num den) = s :=
  sign32_pack (roundNearest32_lt ..)

/-- A rounded result is never a NaN (R73: too large becomes an infinity). -/
@[simp] theorem isNaN64_round64 (s : Bool) (num den : Nat) : isNaN64 (round64 s num den) = false := by
  have := roundNearest_le_inf 52 inf64 num den
  simp [isNaN64, this]

@[simp] theorem isNaN32_round32 (s : Bool) (num den : Nat) : isNaN32 (round32 s num den) = false := by
  have := roundNearest_le_inf 23 inf32 num den
  simp [isNaN32, this]

/-- Rounding a value that a pattern has gives the pattern back. -/
theorem round64_exact {x : F64} {num den : Nat} (hx : isNaN64 x = false) (hd : 0 < den) (h : num = units64 x * den) :
    round64 (sign64 x) num den = x := by
  have hm : mag64 x ≤ inf64 := by simpa [isNaN64] using hx
  rw [round64, roundNearest_exact (by decide) hd h, min_eq_right hm, pack64_sign_mag]

theorem round32_exact {x : F32} {num den : Nat} (hx : isNaN32 x = false) (hd : 0 < den) (h : num = units32 x * den) :
    round32 (sign32 x) num den = x := by
  have hm : mag32 x ≤ inf32 := by simpa [isNaN32] using hx
  rw [round32, roundNearest_exact (by decide) hd h, min_eq_right hm, pack32_sign_mag]

theorem units64_pos {x : F64} : 0 < units64 x ↔ 0 < mag64 x := by
  rw [← unitsOf_zero 52]
  exact (unitsOf_strictMono 52).lt_iff_lt

theorem units64_eq_zero {x : F64} : units64 x = 0 ↔ mag64 x = 0 := by
  have := @units64_pos x
  omega

theorem signed64_eq_zero {x : F64} : signed64 x = 0 ↔ mag64 x = 0 := by
  rw [← units64_eq_zero, signed64]
  split <;> omega

theorem sign_of_signed64 {x : F64} (h : mag64 x ≠ 0) : decide (signed64 x < 0) = sign64 x := by
  have hp : (0 : Int) < units64 x := Int.natCast_pos.2 (units64_pos.2 (Nat.pos_of_ne_zero h))
  cases hs : sign64 x
  · simp only [signed64, hs, Bool.false_eq_true, if_false, decide_eq_false_iff_not]
    exact Int.not_lt.2 hp.le
  · simp only [signed64, hs, if_true, decide_eq_true_eq]
    exact Int.neg_neg_of_pos hp

theorem natAbs_signed64 (x : F64) : (signed64 x).natAbs = units64 x := by
  rw [signed64]
  split <;> simp

/-- The absolute values of magnitudes are ordered as the magnitudes. -/
theorem units64_le {x y : F64} : units64 x ≤ units64 y ↔ mag64 x ≤ mag64 y := (unitsOf_strictMono 52).le_iff_le

theorem units64_lt {x y : F64} : units64 x < units64 y ↔ mag64 x < mag64 y := (unitsOf_strictMono 52).lt_iff_lt

/-! ### Sums, products and quotients with a simple operand (the last rows of R73) -/

theorem fadd_of_finite {d : NanDraw} {a b : F64} (ha : isFinite64 a = true) (hb : isFinite64 b = true) :
    fadd d a b = if signed64 a + signed64 b = 0 then pack64 (sign64 a && sign64 b) 0
      else round64 (decide (signed64 a + signed64 b < 0)) (signed64 a + signed64 b).natAbs 1 := by
  rw [isFinite64_eq] at ha hb
  simp only [Bool.and_eq_true, Bool.not_eq_true'] at ha hb
  simp [fadd, ha.1, ha.2, hb.1, hb.2]

theorem fmul_of_finite {d : NanDraw} {a b : F64} (ha : isFinite64 a = true) (hb : isFinite64 b = true) :
    fmul d a b = round64 (sign64 a != sign64 b) (units64 a * units64 b) unitsPerOne := by
  rw [isFinite64_eq] at ha hb
  simp only [Bool.and_eq_true, Bool.not_eq_true'] at ha hb
  simp [fmul, ha.1, ha.2, hb.1, hb.2]

theorem fdiv_of_finite {d : NanDraw} {a b : F64} (ha : isFinite64 a = true) (hb : isFinite64 b = true)
    (h : mag64 b ≠ 0) : fdiv d a b = round64 (sign64 a != sign64 b) (units64 a * unitsPerOne) (units64 b) := by
  rw [isFinite64_eq] at ha hb
  simp only [Bool.and_eq_true, Bool.not_eq_true'] at ha hb
  simp [fdiv, ha.1, ha.2, hb.1, hb.2, isZero64, h]

/-- Adding a zero of either sign to a non-zero value changes nothing. -/
theorem fadd_zero {d : NanDraw} {x z : F64} (hx : isFinite64 x = true) (h : mag64 x ≠ 0) (hz : mag64 z = 0) :
    fadd d x z = x := by
  have hzf : isFinite64 z = true := by simp [isFinite64, hz, inf64]
  have hsx : signed64 x ≠ 0 := fun c => h (signed64_eq_zero.1 c)
  rw [fadd_of_finite hx hzf, signed64_eq_zero.2 hz, add_zero, if_neg hsx, natAbs_signed64]
  rw [sign_of_signed64 h]
  rw [isFinite64_eq] at hx
  simp only [Bool.and_eq_true, Bool.not_eq_true'] at hx
  exact round64_exact hx.1 Nat.one_pos (by simp)

theorem unitsPerOne_pos : 0 < unitsPerOne := by decide +kernel

theorem unitsPerUnit32_pos : 0 < unitsPerUnit32 := by decide +kernel

theorem units64_one : units64 one64 = unitsPerOne := by decide +kernel

/-- `fmul(1.0, x)` is `x`, for every `x` that is not a NaN (R73). -/
theorem fmul_one {d : NanDraw} {x : F64} (hx : isNaN64 x = false) : fmul d one64 x = x := by
  have h1 : isFinite64 one64 = true := by decide
  have hs1 : sign64 one64 = false := by decide
  by_cases hi : isInf64 x = true
  · have hm : mag64 x = inf64 := by simpa [isInf64] using hi
    have e : pack64 (sign64 x) inf64 = x := by rw [← hm, pack64_sign_mag]
    have hz : isZero64 one64 = false := by decide
    have hzx : isZero64 x = false := by simp [isZero64, hm, inf64]
    have hn : isNaN64 one64 = false := by decide
    simp [fmul, hx, hi, hz, hzx, hn, hs1, e]
  · have hf : isFinite64 x = true := by simp [isFinite64_eq, hx, hi]
    rw [fmul_of_finite h1 hf, units64_one, hs1, Bool.false_bne]
    exact round64_exact hx unitsPerOne_pos (Nat.mul_comm _ _)

/-- A finite value times a zero is a zero of the combined sign (R73). -/
theorem fmul_zero {d : NanDraw} {z x : F64} (hz : mag64 z = 0) (hx : isFinite64 x = true) :
    fmul d z x = pack64 (sign64 z != sign64 x) 0 := by
  have hzf : isFinite64 z = true := by simp [isFinite64, hz, inf64]
  rw [fmul_of_finite hzf hx, units64_eq_zero.2 hz, Nat.zero_mul, round64,
    roundNearest_exact (m := 0) (by decide) unitsPerOne_pos (by simp), Nat.min_zero]

end Sys2Proof.Machine
end

