-- ==== Sys2Proof/Laws/State.lean ====
section
/-! SUPPORT. One lemma per field per update, so that no later proof unfolds a record update. -/

namespace Sys2Proof.Machine

@[simp] theorem State.spend_stages (s : State) : s.spend.stages = s.stages := rfl

@[simp] theorem State.spend_resetSeen (s : State) : s.spend.resetSeen = s.resetSeen := rfl

@[simp] theorem State.spend_afterRst (s : State) : s.spend.afterRst = s.afterRst := rfl

@[simp] theorem State.spend_calcOut (s : State) : s.spend.calcOut = s.calcOut := rfl

@[simp] theorem State.spend_ports (s : State) : s.spend.ports = s.ports := rfl

@[simp] theorem State.spend_active (s : State) : s.spend.active = s.active := rfl

@[simp] theorem State.spend_draws (s : State) : s.spend.draws = s.draws + drawsPerCommand := rfl

@[simp] theorem State.spend_host (s : State) : s.spend.host = s.host := rfl

@[simp] theorem State.setStage_stages (s : State) (st : Stage) : (s.setStage st).stages = s.stages.set s.active st := rfl

@[simp] theorem State.setStage_resetSeen (s : State) (st : Stage) : (s.setStage st).resetSeen = s.resetSeen := rfl

@[simp] theorem State.setStage_afterRst (s : State) (st : Stage) : (s.setStage st).afterRst = s.afterRst := rfl

@[simp] theorem State.setStage_calcOut (s : State) (st : Stage) : (s.setStage st).calcOut = s.calcOut := rfl

@[simp] theorem State.setStage_ports (s : State) (st : Stage) : (s.setStage st).ports = s.ports := rfl

@[simp] theorem State.setStage_active (s : State) (st : Stage) : (s.setStage st).active = s.active := rfl

@[simp] theorem State.setStage_draws (s : State) (st : Stage) : (s.setStage st).draws = s.draws := rfl

@[simp] theorem State.setStage_host (s : State) (st : Stage) : (s.setStage st).host = s.host := rfl

@[simp] theorem State.hardwareReset_stages (s : State) : s.hardwareReset.stages = s.stages.map (fun _ => Stage.reset) := rfl

@[simp] theorem State.hardwareReset_resetSeen (s : State) : s.hardwareReset.resetSeen = true := rfl

@[simp] theorem State.hardwareReset_afterRst (s : State) : s.hardwareReset.afterRst = true := rfl

@[simp] theorem State.hardwareReset_calcOut (s : State) : s.hardwareReset.calcOut = s.calcOut := rfl

@[simp] theorem State.hardwareReset_ports (s : State) : s.hardwareReset.ports = s.ports := rfl

@[simp] theorem State.hardwareReset_active (s : State) : s.hardwareReset.active = s.active := rfl

@[simp] theorem State.hardwareReset_draws (s : State) : s.hardwareReset.draws = s.draws := rfl

@[simp] theorem State.hardwareReset_host (s : State) : s.hardwareReset.host = s.host := rfl

@[simp] theorem State.idleEdge_stages (s : State) : s.idleEdge.stages = s.stages.map Stage.unstrobe := rfl

@[simp] theorem State.idleEdge_resetSeen (s : State) : s.idleEdge.resetSeen = s.resetSeen := rfl

@[simp] theorem State.idleEdge_afterRst (s : State) : s.idleEdge.afterRst = false := rfl

@[simp] theorem State.idleEdge_calcOut (s : State) : s.idleEdge.calcOut = s.calcOut := rfl

@[simp] theorem State.idleEdge_ports (s : State) : s.idleEdge.ports = s.ports := rfl

@[simp] theorem State.idleEdge_active (s : State) : s.idleEdge.active = s.active := rfl

@[simp] theorem State.idleEdge_draws (s : State) : s.idleEdge.draws = s.draws := rfl

@[simp] theorem State.idleEdge_host (s : State) : s.idleEdge.host = s.host := rfl

@[simp] theorem State.present_stages (s : State) (i : Nat) (o : Operands) : (s.present i o).stages = s.stages := rfl

@[simp] theorem State.present_resetSeen (s : State) (i : Nat) (o : Operands) : (s.present i o).resetSeen = s.resetSeen := rfl

@[simp] theorem State.present_afterRst (s : State) (i : Nat) (o : Operands) : (s.present i o).afterRst = s.afterRst := rfl

@[simp] theorem State.present_calcOut (s : State) (i : Nat) (o : Operands) : (s.present i o).calcOut = s.calcOut := rfl

@[simp] theorem State.present_ports (s : State) (i : Nat) (o : Operands) : (s.present i o).ports = { o with sampleIn := sampleInOf s.stages i o.sampleIn } := rfl

@[simp] theorem State.present_active (s : State) (i : Nat) (o : Operands) : (s.present i o).active = i := rfl

@[simp] theorem State.present_draws (s : State) (i : Nat) (o : Operands) : (s.present i o).draws = s.draws := rfl

@[simp] theorem State.present_host (s : State) (i : Nat) (o : Operands) : (s.present i o).host = s.host := rfl

@[simp] theorem State.presentCalc_stages (s : State) (fs freq q g : F64) : (s.presentCalc fs freq q g).stages = s.stages := rfl

@[simp] theorem State.presentCalc_resetSeen (s : State) (fs freq q g : F64) : (s.presentCalc fs freq q g).resetSeen = s.resetSeen := rfl

@[simp] theorem State.presentCalc_afterRst (s : State) (fs freq q g : F64) : (s.presentCalc fs freq q g).afterRst = s.afterRst := rfl

@[simp] theorem State.presentCalc_calcOut (s : State) (fs freq q g : F64) : (s.presentCalc fs freq q g).calcOut = s.calcOut := rfl

@[simp] theorem State.presentCalc_ports (s : State) (fs freq q g : F64) : (s.presentCalc fs freq q g).ports = { s.ports with fs := fs, freq := freq, q := q, gainDb := g } := rfl

@[simp] theorem State.presentCalc_active (s : State) (fs freq q g : F64) : (s.presentCalc fs freq q g).active = s.active := rfl

@[simp] theorem State.presentCalc_draws (s : State) (fs freq q g : F64) : (s.presentCalc fs freq q g).draws = s.draws := rfl

@[simp] theorem State.presentCalc_host (s : State) (fs freq q g : F64) : (s.presentCalc fs freq q g).host = s.host := rfl

@[simp] theorem Stage.strobe_bank (st : Stage) : st.strobe.bank = st.bank := rfl

@[simp] theorem Stage.strobe_hist (st : Stage) : st.strobe.hist = st.hist := rfl

@[simp] theorem Stage.strobe_out (st : Stage) : st.strobe.out = st.out := rfl

@[simp] theorem Stage.strobe_outValid (st : Stage) : st.strobe.outValid = true := rfl

@[simp] theorem Stage.unstrobe_bank (st : Stage) : st.unstrobe.bank = st.bank := rfl

@[simp] theorem Stage.unstrobe_hist (st : Stage) : st.unstrobe.hist = st.hist := rfl

@[simp] theorem Stage.unstrobe_out (st : Stage) : st.unstrobe.out = st.out := rfl

@[simp] theorem Stage.unstrobe_outValid (st : Stage) : st.unstrobe.outValid = false := rfl

@[simp] theorem Stage.loadBank_bank (c : CoefSet) (st : Stage) : (st.loadBank c).bank = c := rfl

@[simp] theorem Stage.loadBank_hist (c : CoefSet) (st : Stage) : (st.loadBank c).hist = st.hist := rfl

@[simp] theorem Stage.loadBank_out (c : CoefSet) (st : Stage) : (st.loadBank c).out = st.out := rfl

@[simp] theorem Stage.loadBank_outValid (c : CoefSet) (st : Stage) : (st.loadBank c).outValid = false := rfl

@[simp] theorem Stage.process_bank (d : Nat → NanDraw) (x : F32) (st : Stage) : (st.process d x).bank = st.bank := rfl

@[simp] theorem Stage.process_outValid (d : Nat → NanDraw) (x : F32) (st : Stage) : (st.process d x).outValid = true := rfl

@[simp] theorem Stage.process_x1 (d : Nat → NanDraw) (x : F32) (st : Stage) :
    (st.process d x).hist.x1 = widen (d 0) x := rfl

@[simp] theorem Stage.process_x2 (d : Nat → NanDraw) (x : F32) (st : Stage) :
    (st.process d x).hist.x2 = st.hist.x1 := rfl

@[simp] theorem Stage.process_y1 (d : Nat → NanDraw) (x : F32) (st : Stage) :
    (st.process d x).hist.y1 = squelch (rawOf d st.bank st.hist (widen (d 0) x)) := rfl

@[simp] theorem Stage.process_y2 (d : Nat → NanDraw) (x : F32) (st : Stage) :
    (st.process d x).hist.y2 = st.hist.y1 := rfl

/-- `OUT` is `y1`, narrowed (R131). -/
@[simp] theorem Stage.process_out (d : Nat → NanDraw) (x : F32) (st : Stage) :
    (st.process d x).out = narrow (d 10) (st.process d x).hist.y1 := rfl

@[simp] theorem State.seen_cmd (s : State) (p : StagePins) : (s.seen p).cmd = p.cmd := rfl

@[simp] theorem State.seen_cmdValid (s : State) (p : StagePins) : (s.seen p).cmdValid = p.cmdValid := rfl

@[simp] theorem State.seen_operands (s : State) (p : StagePins) : (s.seen p).operands = p.operands := rfl

@[simp] theorem State.seen_accepts (s : State) (p : StagePins) : (s.seen p).accepts = s.accepts p := rfl

theorem State.stage?_eq (s : State) : s.stage? = s.stages[s.active]? := rfl

@[simp] theorem State.stage?_spend (s : State) : s.spend.stage? = s.stage? := rfl

@[simp] theorem State.stage?_present (s : State) (i : Nat) (o : Operands) : (s.present i o).stage? = s.stages[i]? := rfl

end Sys2Proof.Machine
end

