-- ==== Sys2Proof/Laws/Ops.lean ====
section
/-! SUPPORT. What each shared operation can do, said once. -/

namespace Sys2Proof.Machine

/-- `onStage` goes on exactly when the chain has the addressed stage. -/
theorem onStage_next {s t : State} {f : Stage → Stage} :
    s.onStage f = .next t ↔ ∃ st, s.stage? = some st ∧ t = (s.setStage (f st)).spend := by
  unfold State.onStage
  cases s.stage? with
  | none => simp
  | some st => simp [eq_comm]

theorem onStage_of_stage {s : State} {f : Stage → Stage} {st : Stage} (h : s.stage? = some st) :
    s.onStage f = .next (s.setStage (f st)).spend :=
  onStage_next.2 ⟨st, h, rfl⟩

theorem driveCalc_next {s t : State} {c : CoefSet} :
    s.driveCalc c = .next t ↔ t = ({ s with calcOut := c } : State).spend := by
  simp [State.driveCalc, eq_comm]

theorem andThen_next {o : Answer} {f : State → Answer} {t : State} :
    andThen o f = .next t ↔ ∃ s, o = .next s ∧ f s = .next t := by
  cases o <;> simp [andThen]

@[simp] theorem andThen_of_next (s : State) (f : State → Answer) : andThen (.next s) f = f s := rfl

/-- The effect of a stage command on the stage it is addressed to, in the state in which it is executed. -/
def stageEffect (s : State) : Instr → Option (Stage → Stage)
  | .nop => some Stage.unstrobe
  | .reset => some fun _ => Stage.reset
  | .setcLP => some (Stage.loadBank (s.calculate .lp))
  | .setcHP => some (Stage.loadBank (s.calculate .hp))
  | .setcPK => some (Stage.loadBank (s.calculate .pk))
  | .setcLS => some (Stage.loadBank (s.calculate .ls))
  | .setcHS => some (Stage.loadBank (s.calculate .hs))
  | .setcLS1 => some (Stage.loadBank (s.calculate .ls1))
  | .setcHS1 => some (Stage.loadBank (s.calculate .hs1))
  | .proc => some (Stage.process s.nanDraw s.ports.sampleIn)
  | .coefLP | .coefHP | .coefPK | .coefLS | .coefHS | .coefLS1 | .coefHS1 => none

/-- The kind a calculator function is of. -/
def calcKind : Instr → Option FilterKind
  | .coefLP => some .lp
  | .coefHP => some .hp
  | .coefPK => some .pk
  | .coefLS => some .ls
  | .coefHS => some .hs
  | .coefLS1 => some .ls1
  | .coefHS1 => some .hs1
  | _ => none

theorem exec_stage {i : Instr} {s : State} {f : Stage → Stage} (h : stageEffect s i = some f) : exec i s = s.onStage f := by
  cases i <;> cases h <;> rfl

theorem exec_calc {i : Instr} {s : State} {k : FilterKind} (h : calcKind i = some k) :
    exec i s = .next ({ s with calcOut := s.calculate k } : State).spend := by
  cases i <;> cases h <;> rfl

theorem exec_setc (k : FilterKind) (s : State) : exec (.setc k) s = s.onStage (Stage.loadBank (s.calculate k)) := by
  cases k <;> rfl

theorem exec_coef (k : FilterKind) (s : State) :
    exec (.coef k) s = .next ({ s with calcOut := s.calculate k } : State).spend := by
  cases k <;> rfl

/-- Everything an instruction can do when it goes on: a stage command changes the one stage it is addressed to, a
calculator function the calculator's output ports. -/
theorem exec_next_cases {i : Instr} {s t : State} (h : exec i s = .next t) :
    (∃ f st, stageEffect s i = some f ∧ s.stage? = some st ∧ t = (s.setStage (f st)).spend) ∨
      (∃ k, calcKind i = some k ∧ t = ({ s with calcOut := s.calculate k } : State).spend) := by
  rcases hs : stageEffect s i with _ | f
  · rcases hk : calcKind i with _ | k
    · cases i <;> simp [stageEffect, calcKind] at hs hk
    · rw [exec_calc hk] at h
      exact .inr ⟨k, rfl, by simpa using h.symm⟩
  · rw [exec_stage hs] at h
    obtain ⟨st, h1, h2⟩ := onStage_next.1 h
    exact .inl ⟨f, st, rfl, h1, h2⟩

/-- An effect looks at nothing but the levels on the ports and the count of draws. -/
theorem stageEffect_congr {s t : State} (hp : s.ports = t.ports) (hd : s.draws = t.draws) (i : Instr) :
    stageEffect s i = stageEffect t i := by
  have hn : s.nanDraw = t.nanDraw := funext fun n => by rw [State.nanDraw, State.nanDraw, hd]
  have hc : s.calculate = t.calculate := funext fun k => by
    simp only [State.calculate, State.anyBank, hp, hd, hn]
  cases i <;> simp only [stageEffect, hn, hc, hp]

/-- The four effects a stage command can have. -/
theorem stageEffect_cases {s : State} {i : Instr} {f : Stage → Stage} (h : stageEffect s i = some f) :
    f = Stage.unstrobe ∨ (f = fun _ => Stage.reset) ∨ (∃ c, f = Stage.loadBank c) ∨
      f = Stage.process s.nanDraw s.ports.sampleIn := by
  cases i <;> cases h <;> simp

end Sys2Proof.Machine
end

