-- ==== Sys2Proof/Laws/Clock.lean ====
section
/-! SUPPORT. What a step can do to the stages, said once: an invariant of a stage that the four effects of its commands
keep is kept by every step. -/

namespace Sys2Proof.Machine

/-- A property of a stage that every command keeps. -/
structure StageInvariant (P : Stage → Prop) : Prop where
  reset : P Stage.reset
  unstrobe : ∀ st, P st → P st.unstrobe
  loadBank : ∀ c st, P st → P (st.loadBank c)
  process : ∀ d x st, P st → P (st.process d x)

/-- A relation between the list of stages before and after that a replaced stage keeps. -/
theorem exec_keeps_length {i : Instr} {s t : State} (h : exec i s = .next t) : t.stages.length = s.stages.length := by
  rcases exec_next_cases h with ⟨f, st, -, -, rfl⟩ | ⟨k, -, rfl⟩ <;> simp

theorem exec_keeps {P : Stage → Prop} (hP : StageInvariant P) {i : Instr} {s t : State} (h : exec i s = .next t)
    (hs : ∀ st ∈ s.stages, P st) : ∀ st ∈ t.stages, P st := by
  rcases exec_next_cases h with ⟨f, st, hf, hst, rfl⟩ | ⟨k, -, rfl⟩
  · have hst' : P st := hs st (List.mem_of_getElem? hst)
    intro st' hm
    simp only [State.spend_stages, State.setStage_stages] at hm
    rcases List.mem_or_eq_of_mem_set hm with h' | rfl
    · exact hs st' h'
    · rcases stageEffect_cases hf with rfl | rfl | ⟨c, rfl⟩ | rfl
      · exact hP.unstrobe _ hst'
      · exact hP.reset
      · exact hP.loadBank _ _ hst'
      · exact hP.process _ _ _ hst'
  · exact hs

theorem execWord_next {c : CodeWord} {s t : State} (h : execWord c s = .next t) :
    ∃ i, decode c = .ok i ∧ exec i s = .next t := by
  unfold execWord at h
  split at h
  · exact ⟨_, ‹_›, h⟩
  · cases h
  · cases h

/-- At an edge, a stage does nothing or executes one instruction. -/
theorem stageEdge_next {i : Nat} {p : StagePins} {s t : State} (h : stageEdge i p s = .next t) :
    (p.accepts = false ∧ t = s) ∨
      (p.accepts = true ∧ ∃ ins, decode (.cmd p.cmd) = .ok ins ∧ exec ins (s.present i p.operands) = .next t) := by
  unfold stageEdge at h
  split at h
  · exact .inr ⟨‹_›, execWord_next h⟩
  · simp only [Host.Outcome.next.injEq] at h
    exact .inl ⟨by simpa using ‹¬ p.accepts = true›, h.symm⟩

theorem stagesEdge_keeps_length {i : Nat} {ps : List StagePins} {s t : State} (h : stagesEdge i ps s = .next t) :
    t.stages.length = s.stages.length := by
  induction ps generalizing i t with
  | nil => simp only [stagesEdge, Host.Outcome.next.injEq] at h; rw [h]
  | cons p ps ih =>
    obtain ⟨m, hm, ht⟩ := andThen_next.1 h
    rcases stageEdge_next ht with ⟨-, rfl⟩ | ⟨-, ins, -, he⟩
    · exact ih hm
    · simpa [ih hm] using exec_keeps_length he

theorem stagesEdge_keeps {P : Stage → Prop} (hP : StageInvariant P) {i : Nat} {ps : List StagePins} {s t : State}
    (h : stagesEdge i ps s = .next t) (hs : ∀ st ∈ s.stages, P st) : ∀ st ∈ t.stages, P st := by
  induction ps generalizing i t with
  | nil => simp only [stagesEdge, Host.Outcome.next.injEq] at h; exact h ▸ hs
  | cons p ps ih =>
    obtain ⟨m, hm, ht⟩ := andThen_next.1 h
    rcases stageEdge_next ht with ⟨-, rfl⟩ | ⟨-, ins, -, he⟩
    · exact ih hm
    · exact exec_keeps hP he (by simpa using ih hm)

/-- What the host presents next is no instruction's to change. -/
theorem exec_keeps_host {i : Instr} {s t : State} (h : exec i s = .next t) : t.host = s.host := by
  rcases exec_next_cases h with ⟨f, st, -, -, rfl⟩ | ⟨k, -, rfl⟩ <;> rfl

theorem stagesEdge_keeps_host {i : Nat} {ps : List StagePins} {s t : State} (h : stagesEdge i ps s = .next t) :
    t.host = s.host := by
  induction ps generalizing i t with
  | nil => simp only [stagesEdge, Host.Outcome.next.injEq] at h; rw [h]
  | cons p ps ih =>
    obtain ⟨m, hm, ht⟩ := andThen_next.1 h
    rcases stageEdge_next ht with ⟨-, rfl⟩ | ⟨-, ins, -, he⟩
    · exact ih hm
    · rw [exec_keeps_host he, State.present_host, ih hm]

/-- Everything a clock edge can do when it goes on. -/
theorem clockEdge_next {rst : Bool} {pins : List StagePins} {s t : State} (h : clockEdge rst pins s = .next t) :
    (rst = true ∧ t = s.hardwareReset) ∨
      (rst = false ∧ s.resetSeen = true ∧ (∀ p ∈ pins, p.presentsReserved = false) ∧
        stagesEdge 0 (pins.map s.seen) s.idleEdge = .next t) := by
  unfold clockEdge at h
  cases rst
  · cases hr : s.resetSeen
    · simp [hr] at h
    · simp only [Bool.false_eq_true, if_false, hr, if_true] at h
      split at h
      · cases h
      · rename_i hf
        exact .inr ⟨rfl, rfl, by simpa using hf, h⟩
  · simp only [if_true, Host.Outcome.next.injEq] at h
    exact .inl ⟨rfl, h.symm⟩

/-- Everything a step can do when it goes on: a clock edge, or an instruction of the stand-alone calculator. -/
theorem step_next {s t : State} (h : step s = .next t) :
    (∃ rst pins rest, clockEdge rst pins { s with host := rest } = .next t) ∨
      (∃ w fs freq q g rest ins, decode (.kind w) = .ok ins ∧
        exec ins (({ s with host := rest } : State).presentCalc fs freq q g) = .next t) := by
  unfold step at h
  split at h
  · rename_i h0
    exact .inl ⟨false, [], [], by rw [← h0]; exact h⟩
  · rename_i e rest _
    cases e with
    | clock rst pins => exact .inl ⟨rst, pins, rest, h⟩
    | calculator w fs freq q g =>
      obtain ⟨ins, h1, h2⟩ := execWord_next h
      exact .inr ⟨w, fs, freq, q, g, rest, ins, h1, h2⟩

/-- A stage invariant that commands keep is kept by every step. -/
theorem step_keeps {P : Stage → Prop} (hP : StageInvariant P) {s t : State} (h : step s = .next t)
    (hs : ∀ st ∈ s.stages, P st) : ∀ st ∈ t.stages, P st := by
  rcases step_next h with ⟨rst, pins, rest, hc⟩ | ⟨w, fs, freq, q, g, rest, ins, -, he⟩
  · rcases clockEdge_next hc with ⟨-, rfl⟩ | ⟨-, -, -, he⟩
    · intro st hm
      simp only [State.hardwareReset_stages, List.mem_map] at hm
      obtain ⟨_, -, rfl⟩ := hm
      exact hP.reset
    · refine stagesEdge_keeps hP he ?_
      intro st hm
      simp only [State.idleEdge_stages, List.mem_map] at hm
      obtain ⟨st', hm', rfl⟩ := hm
      exact hP.unstrobe _ (hs st' hm')
  · exact exec_keeps hP he hs

/-- A word of the command port is a stage's command. -/
theorem stageEffect_of_cmd {w : CmdBits} {i : Instr} (h : decode (.cmd w) = .ok i) (s : State) :
    ∃ f, stageEffect s i = some f := by
  have key : ∀ w : CmdBits, (match decode (.cmd w) with
      | .ok i => (calcKind i).isNone
      | .error _ => true) = true := by decide
  have := key w
  rw [h] at this
  cases i <;> simp [calcKind] at this <;> exact ⟨_, rfl⟩

/-- What an edge does to the stage at position `i`: the command it accepts, once, at the levels before the edge, or
nothing. -/
theorem stagesEdge_stage {k : Nat} {ps : List StagePins} {s t : State} (h : stagesEdge k ps s = .next t) (i : Nat) :
    (∃ p ins f n st, k ≤ i ∧ ps[i - k]? = some p ∧ p.accepts = true ∧ decode (.cmd p.cmd) = .ok ins ∧
        stageEffect (({ s with draws := n } : State).present i p.operands) ins = some f ∧ s.stages[i]? = some st ∧
        t.stages[i]? = some (f st)) ∨
      ((∀ p, k ≤ i → ps[i - k]? = some p → p.accepts = false) ∧ t.stages[i]? = s.stages[i]?) := by
  induction ps generalizing k t i with
  | nil =>
    simp only [stagesEdge, Host.Outcome.next.injEq] at h
    subst h
    exact .inr ⟨fun p _ hp => by simp at hp, rfl⟩
  | cons b bs ih =>
    obtain ⟨m, hm, ht⟩ := andThen_next.1 h
    have ih := fun i => ih hm i
    have shift : k + 1 ≤ i → (b :: bs)[i - k]? = bs[i - (k + 1)]? := by
      intro hi
      rw [show i - k = (i - (k + 1)) + 1 by omega, List.getElem?_cons_succ]
    have before : ∀ j, j ≤ k → m.stages[j]? = s.stages[j]? := by
      intro j hj
      rcases ih j with ⟨p, ins, f, n, st, h1, -⟩ | ⟨-, h⟩
      · omega
      · exact h
    by_cases hik : i = k
    · subst hik
      have hmi := before i le_rfl
      rcases stageEdge_next ht with ⟨hp, rfl⟩ | ⟨hp, ins, hd, he⟩
      · refine .inr ⟨fun p _ hb => ?_, hmi⟩
        simp at hb
        exact hb ▸ hp
      · obtain ⟨f, hf⟩ := stageEffect_of_cmd hd (m.present i b.operands)
        rw [exec_stage hf] at he
        obtain ⟨st, hst, rfl⟩ := onStage_next.1 he
        have hst' : m.stages[i]? = some st := by simpa using hst
        have hl := (List.getElem?_eq_some_iff.1 hst').1
        have hin : sampleInOf m.stages i b.operands.sampleIn = sampleInOf s.stages i b.operands.sampleIn := by
          cases i with
          | zero => rfl
          | succ j => rw [sampleInOf, sampleInOf, before j (by omega)]
        refine .inl ⟨b, ins, f, m.draws, st, le_rfl, by simp, hp, hd, ?_, by rw [← hmi, hst'], by simp [hl]⟩
        rw [← hf]
        exact stageEffect_congr (by simp [hin]) (by simp) ins
    · have hti : t.stages[i]? = m.stages[i]? := by
        rcases stageEdge_next ht with ⟨-, rfl⟩ | ⟨-, ins, hd, he⟩
        · rfl
        · obtain ⟨f, hf⟩ := stageEffect_of_cmd hd (m.present k b.operands)
          rw [exec_stage hf] at he
          obtain ⟨st, -, rfl⟩ := onStage_next.1 he
          simp [List.getElem?_set_ne (Ne.symm hik)]
      rcases ih i with ⟨p, ins, f, n, st, h1, h2, h3, h4, h5, h6, h7⟩ | ⟨h1, h2⟩
      · exact .inl ⟨p, ins, f, n, st, by omega, by rw [shift (by omega), h2], h3, h4, h5, h6, by rw [hti, h7]⟩
      · refine .inr ⟨fun p hk hp => ?_, by rw [hti, h2]⟩
        have : k + 1 ≤ i := by omega
        exact h1 p this (by rw [← shift this]; exact hp)

/-! ### What a step is, by what the host presents -/

theorem step_of_clock {s : State} {rst : Bool} {pins : List StagePins} {rest : List Event}
    (h : s.host = .clock rst pins :: rest) : step s = clockEdge rst pins { s with host := rest } := by
  simp only [step, h, runEvent]

theorem step_of_calculator {s : State} {w : KindBits} {fs freq q g : F64} {rest : List Event}
    (h : s.host = .calculator w fs freq q g :: rest) :
    step s = execWord (.kind w) (({ s with host := rest } : State).presentCalc fs freq q g) := by
  simp only [step, h, runEvent]

theorem step_of_nothing {s : State} (h : s.host = []) : step s = clockEdge false [] s := by simp only [step, h]

@[simp] theorem clockEdge_reset (pins : List StagePins) (s : State) : clockEdge true pins s = .next s.hardwareReset := rfl

theorem clockEdge_run {pins : List StagePins} {s : State} (h : s.resetSeen = true)
    (hp : ∀ p ∈ pins, p.presentsReserved = false) :
    clockEdge false pins s = stagesEdge 0 (pins.map s.seen) s.idleEdge := by
  rw [clockEdge, List.find?_eq_none.2 (by simpa using hp)]
  simp [h]

/-- An edge at which a reserved word is presented is refused. -/
theorem clockEdge_reserved {pins : List StagePins} {s : State} (h : s.resetSeen = true) {p : StagePins} (hp : p ∈ pins)
    (hr : p.presentsReserved = true) :
    ∃ q ∈ pins, q.presentsReserved = true ∧ clockEdge false pins s = .refused (.reservedCommand q.cmd) := by
  obtain ⟨q, hq⟩ := Option.isSome_iff_exists.1 (List.find?_isSome.2 ⟨p, hp, hr⟩)
  refine ⟨q, List.mem_of_find?_eq_some hq, List.find?_some hq, ?_⟩
  rw [clockEdge, hq]
  simp [h]

/-- A word that decodes is not reserved. -/
theorem presentsReserved_of_ok {p : StagePins} {i : Instr} (h : decode (.cmd p.cmd) = .ok i) : p.presentsReserved = false := by
  simp [StagePins.presentsReserved, h]

/-- A step at an edge without reset, of a machine that has been reset. -/
theorem step_of_run {s : State} {pins : List StagePins} {rest : List Event} (h : s.host = .clock false pins :: rest)
    (hr : s.resetSeen = true) (hp : ∀ p ∈ pins, p.presentsReserved = false) :
    step s = stagesEdge 0 (pins.map s.seen) ({ s with host := rest } : State).idleEdge := by
  rw [step_of_clock h, clockEdge_run (s := { s with host := rest }) hr hp]
  rfl

theorem execWord_of_ok {c : CodeWord} {i : Instr} {s : State} (h : decode c = .ok i) : execWord c s = exec i s := by
  simp only [execWord, h]

theorem stageEdge_idle {i : Nat} {p : StagePins} {s : State} (h : p.accepts = false) : stageEdge i p s = .next s := by
  simp [stageEdge, h]

theorem stageEdge_accepts {i : Nat} {p : StagePins} {s : State} (h : p.accepts = true) :
    stageEdge i p s = execWord (.cmd p.cmd) (s.present i p.operands) := by
  simp [stageEdge, h]

/-- Stages that accept nothing do nothing more at the edge. -/
theorem stagesEdge_idle {i : Nat} {ps : List StagePins} {s : State} (h : ∀ p ∈ ps, p.accepts = false) :
    stagesEdge i ps s = .next s := by
  induction ps generalizing i with
  | nil => rfl
  | cons p ps ih =>
    rw [stagesEdge, ih (fun x hx => h x (List.mem_cons_of_mem _ hx)), andThen_of_next]
    exact stageEdge_idle (h p (List.mem_cons_self ..))

/-- When only the last of the listed stages accepts, the edge is that stage's. -/
theorem stagesEdge_last {i : Nat} {ps : List StagePins} {p : StagePins} {s : State} (h : ∀ b ∈ ps, b.accepts = false) :
    stagesEdge i (ps ++ [p]) s = stageEdge (i + ps.length) p s := by
  induction ps generalizing i with
  | nil => simp [stagesEdge]
  | cons b bs ih =>
    rw [List.cons_append, stagesEdge, ih (fun x hx => h x (List.mem_cons_of_mem _ hx))]
    rw [show i + 1 + bs.length = i + (b :: bs).length by simp; omega]
    generalize stageEdge (i + (b :: bs).length) p s = o
    cases o with
    | next t => exact stageEdge_idle (h b (List.mem_cons_self ..))
    | fault f => rfl
    | refused r => rfl

/-- When one stage alone accepts, and no stage is presented a reserved word, the edge is that stage's instruction. -/
theorem clockEdge_last {before : List StagePins} {p : StagePins} {s : State} {i : Instr} (h : s.resetSeen = true)
    (hb : ∀ b ∈ before, s.accepts b = false ∧ b.presentsReserved = false) (hp : s.accepts p = true)
    (hd : decode (.cmd p.cmd) = .ok i) :
    clockEdge false (before ++ [p]) s = exec i (s.idleEdge.present before.length p.operands) := by
  rw [clockEdge_run h, List.map_append, List.map_singleton, stagesEdge_last, List.length_map, Nat.zero_add,
    stageEdge_accepts (by simpa using hp), State.seen_cmd, execWord_of_ok hd, State.seen_operands]
  · intro b hm
    obtain ⟨b', hm', rfl⟩ := List.mem_map.1 hm
    exact (hb b' hm').1
  · intro b hm
    rcases List.mem_append.1 hm with hm | hm
    · exact (hb b hm).2
    · rw [List.mem_singleton.1 hm]
      exact presentsReserved_of_ok hd

/-- A stage of the chain goes on at every edge at which it is not given a reserved word. -/
theorem stageEdge_goesOn {i : Nat} {p : StagePins} {s : State}
    (h : p.accepts = true → i < s.stages.length ∧ ∃ ins, decode (.cmd p.cmd) = .ok ins) : ∃ t, stageEdge i p s = .next t := by
  by_cases hp : p.accepts = true
  · obtain ⟨hi, ins, hd⟩ := h hp
    obtain ⟨f, hf⟩ := stageEffect_of_cmd hd (s.present i p.operands)
    rw [stageEdge_accepts hp, execWord_of_ok hd, exec_stage hf]
    exact ⟨_, onStage_of_stage (st := s.stages[i]) (by simp [hi])⟩
  · exact ⟨s, stageEdge_idle (by simpa using hp)⟩

/-- And so does the edge as a whole. -/
theorem stagesEdge_goesOn {k : Nat} {ps : List StagePins} {s : State}
    (h : ∀ j p, ps[j]? = some p → p.accepts = true →
      k + j < s.stages.length ∧ ∃ ins, decode (.cmd p.cmd) = .ok ins) : ∃ t, stagesEdge k ps s = .next t := by
  induction ps generalizing k with
  | nil => exact ⟨s, rfl⟩
  | cons b bs ih =>
    obtain ⟨m, hm⟩ := @ih (k + 1) fun j p hp ha => by
      have := h (j + 1) p (by simpa using hp) ha
      exact ⟨by omega, this.2⟩
    rw [stagesEdge, hm, andThen_of_next]
    refine stageEdge_goesOn fun ha => ?_
    rw [stagesEdge_keeps_length hm]
    exact h 0 b rfl ha

end Sys2Proof.Machine
end

