-- ==== Sys2Proof/Laws/FixedPoint.lean ====
section
/-! SUPPORT. The fixed-point series of the elementary functions (R76): each is off from its real function by a stated
number of units of the last bit, and so is each of the three constants. -/

namespace Sys2Proof.Machine

/-- The scale of fixed-point values, as a real number. -/
noncomputable def fixOne : ℝ := 2 ^ fixBits

theorem fixOne_pos : 0 < fixOne := by unfold fixOne; positivity

/-- Integer division is off by at most one. -/
theorem abs_floor_div_sub (a : Int) {b : Int} (hb : 0 < b) : |((a / b : Int) : ℝ) - (a : ℝ) / b| ≤ 1 := by
  have hb' : (0 : ℝ) < b := by exact_mod_cast hb
  have h1 := Int.emod_add_mul_ediv a b
  have h2 := Int.emod_nonneg a hb.ne'
  have h3 := Int.emod_lt_of_pos a hb
  have e : (a : ℝ) / b = ((a / b : Int) : ℝ) + ((a % b : Int) : ℝ) / b := by
    rw [eq_comm, ← sub_eq_zero]
    field_simp
    have : ((a % b + b * (a / b) : Int) : ℝ) = a := by rw [h1]
    push_cast at this
    linarith
  rw [e, sub_add_cancel_left, abs_neg, abs_div, abs_of_pos hb', div_le_one hb', abs_of_nonneg (by exact_mod_cast h2)]
  exact_mod_cast h3.le

/-- The series of `e^(w·X)` cut after `n` terms from the `k`-th, `w` a square root of the turn. -/
noncomputable def expTail (w : ℂ) (X : ℝ) (k n : Nat) : ℂ :=
  ∑ j ∈ Finset.range n, w ^ j * ((X ^ (k + j) / (k + j).factorial : ℝ) : ℂ)

theorem expTail_succ (w : ℂ) (X : ℝ) (k n : Nat) :
    expTail w X k (n + 1) = ((X ^ k / k.factorial : ℝ) : ℂ) + w * expTail w X (k + 1) n := by
  rw [expTail, Finset.sum_range_succ', add_comm, expTail, Finset.mul_sum]
  congr 1
  · simp
  · refine Finset.sum_congr rfl fun j _ => ?_
    rw [show k + 1 + j = k + (j + 1) by omega, pow_succ]
    ring

/-- Each term is off by at most 8, when |x| is at most 7/8. -/
theorem expTerm_step {x t : Int} {k : Nat} {X : ℝ} (hX : X = x / fixOne) (hx : |X| ≤ 7 / 8)
    (ht : |(t : ℝ) - fixOne * (X ^ k / k.factorial)| ≤ 8) :
    |((t * x / (2 ^ fixBits * (k + 1)) : Int) : ℝ) - fixOne * (X ^ (k + 1) / (k + 1).factorial)| ≤ 8 := by
  have hF := fixOne_pos
  have hden : (0 : Int) < 2 ^ fixBits * ((k : Int) + 1) := by positivity
  have h1 := abs_floor_div_sub (t * x) hden
  have hk : (1 : ℝ) ≤ (k : ℝ) + 1 := by linarith [(Nat.cast_nonneg k : (0 : ℝ) ≤ k)]
  have e1 : ((t * x : Int) : ℝ) / ((2 ^ fixBits * ((k : Int) + 1) : Int) : ℝ) = t * (X / (k + 1)) := by
    push_cast
    rw [show (2 : ℝ) ^ fixBits = fixOne from rfl, hX]
    field_simp
  have e2 : fixOne * (X ^ (k + 1) / (k + 1).factorial) = fixOne * (X ^ k / k.factorial) * (X / (k + 1)) := by
    rw [Nat.factorial_succ, pow_succ]
    push_cast
    field_simp
  rw [e1] at h1
  rw [e2]
  have hsmall : |X / (k + 1)| ≤ 7 / 8 := by
    rw [abs_div, abs_of_pos (by linarith : (0 : ℝ) < (k : ℝ) + 1)]
    exact (div_le_self (abs_nonneg X) hk).trans hx
  have h2 : |(t : ℝ) * (X / (k + 1)) - fixOne * (X ^ k / k.factorial) * (X / (k + 1))| ≤ 7 := by
    rw [← sub_mul, abs_mul]
    exact (mul_le_mul ht hsmall (abs_nonneg _) (by norm_num)).trans (by norm_num)
  exact (abs_sub_le _ _ _).trans ((add_le_add h1 h2).trans (by norm_num))

/-- The two sums of `expSeries`, read as one complex number, are the cut series, off by at most 8 a term. -/
theorem expSeries_near {turn x : Int} {w : ℂ} (hw : w ^ 2 = turn) (hn : ‖w‖ = 1) {X : ℝ} (hX : X = x / fixOne)
    (hx : |X| ≤ 7 / 8) (n : Nat) : ∀ (k : Nat) (t : Int), |(t : ℝ) - fixOne * (X ^ k / k.factorial)| ≤ 8 →
    ‖(((expSeries turn x n k t).1 : ℂ) + w * (expSeries turn x n k t).2) - fixOne * expTail w X k n‖ ≤ 8 * n := by
  induction n with
  | zero => intro k t _; simp [expSeries, expTail]
  | succ n ih =>
    intro k t ht
    have h := ih (k + 1) _ (expTerm_step hX hx ht)
    rw [expTail_succ]
    simp only [expSeries]
    generalize expSeries turn x n (k + 1) (t * x / (2 ^ fixBits * (k + 1))) = r at h ⊢
    have e : ((t + turn * r.2 : Int) : ℂ) + w * r.1 - fixOne * (((X ^ k / k.factorial : ℝ) : ℂ) + w * expTail w X (k + 1) n)
        = (((t : ℝ) - fixOne * (X ^ k / k.factorial) : ℝ) : ℂ) + w * ((r.1 + w * r.2) - fixOne * expTail w X (k + 1) n) := by
      push_cast
      rw [← hw]
      ring
    rw [e]
    refine (norm_add_le _ _).trans ?_
    rw [norm_mul, hn, one_mul, Complex.norm_real]
    push_cast
    rw [Real.norm_eq_abs]
    linarith

/-- 240 terms are enough: what is cut off is less than one unit. -/
theorem expTail_near {w : ℂ} (hn : ‖w‖ = 1) {X : ℝ} (hx : |X| ≤ 7 / 8) :
    ‖expTail w X 0 240 - Complex.exp (w * X)‖ ≤ 1 / fixOne := by
  have hw : ‖w * X‖ ≤ 1 := by
    rw [norm_mul, hn, one_mul, Complex.norm_real, Real.norm_eq_abs]; linarith
  have h := Complex.exp_bound hw (n := 240) (by norm_num)
  have e : expTail w X 0 240 = ∑ m ∈ Finset.range 240, (w * X) ^ m / m.factorial := by
    refine Finset.sum_congr rfl fun j _ => ?_
    push_cast
    rw [Nat.zero_add, mul_pow]
    ring
  rw [e, norm_sub_rev]
  refine h.trans ?_
  have h1 : ‖w * X‖ ^ 240 ≤ 1 := pow_le_one₀ (norm_nonneg _) hw
  have h2 : ((Nat.succ 240 : ℕ) : ℝ) * ((Nat.factorial 240 : ℝ) * (240 : ℕ))⁻¹ ≤ 1 / fixOne := by
    rw [fixOne, ← div_eq_mul_inv, div_le_div_iff₀ (by positivity) (by positivity), one_mul]
    have : Nat.succ 240 * 2 ^ fixBits ≤ Nat.factorial 240 * 240 := by decide +kernel
    exact_mod_cast this
  exact (mul_le_of_le_one_left (by positivity) h1).trans h2

/-- `expSeries` of 240 terms, from the first. -/
theorem expSeries_exp {turn x : Int} {w : ℂ} (hw : w ^ 2 = turn) (hn : ‖w‖ = 1) (hx : |(x : ℝ) / fixOne| ≤ 7 / 8) :
    ‖(((expSeries turn x 240 0 (2 ^ fixBits)).1 : ℂ) + w * (expSeries turn x 240 0 (2 ^ fixBits)).2)
      - fixOne * Complex.exp (w * ((x / fixOne : ℝ) : ℂ))‖ ≤ 1921 := by
  have h1 := expSeries_near (x := x) hw hn rfl hx 240 0 (2 ^ fixBits) (by simp [fixOne])
  have h2 := expTail_near hn hx
  generalize expSeries turn x 240 0 (2 ^ fixBits) = r at *
  have h3 : ‖(fixOne : ℂ) * expTail w (x / fixOne) 0 240 - fixOne * Complex.exp (w * ((x / fixOne : ℝ) : ℂ))‖ ≤ 1 := by
    rw [← mul_sub, norm_mul, Complex.norm_real, Real.norm_eq_abs, abs_of_pos fixOne_pos]
    exact (mul_le_mul_of_nonneg_left h2 fixOne_pos.le).trans (by rw [mul_one_div_cancel fixOne_pos.ne'])
  exact (norm_sub_le_norm_sub_add_norm_sub _ _ _).trans ((add_le_add h1 h3).trans (by norm_num))

/-- `cosSinFix` (R76). -/
theorem cosSinFix_near {x : Int} (hx : |(x : ℝ) / fixOne| ≤ 7 / 8) :
    |((cosSinFix x).1 : ℝ) - fixOne * Real.cos (x / fixOne)| ≤ 1921 ∧
      |((cosSinFix x).2 : ℝ) - fixOne * Real.sin (x / fixOne)| ≤ 1921 := by
  have h := expSeries_exp (turn := -1) (w := Complex.I) (by simp) (by simp) hx
  rw [cosSinFix]
  generalize expSeries (-1) x 240 0 (2 ^ fixBits) = r at h ⊢
  rw [mul_comm Complex.I ((x / fixOne : ℝ) : ℂ), Complex.exp_mul_I, ← Complex.ofReal_cos, ← Complex.ofReal_sin] at h
  have e : ((r.1 : ℂ) + Complex.I * r.2) - fixOne * (((Real.cos (x / fixOne) : ℝ) : ℂ) + (Real.sin (x / fixOne) : ℝ) * Complex.I)
      = (((r.1 : ℝ) - fixOne * Real.cos (x / fixOne) : ℝ) : ℂ) + (((r.2 : ℝ) - fixOne * Real.sin (x / fixOne) : ℝ) : ℂ) * Complex.I := by
    push_cast; ring
  rw [e] at h
  have hre := (Complex.abs_re_le_norm _).trans h
  have him := (Complex.abs_im_le_norm _).trans h
  simp only [Complex.add_re, Complex.ofReal_re, Complex.mul_re, Complex.I_re, Complex.I_im, Complex.ofReal_im, mul_zero,
    sub_zero, add_zero, Complex.add_im, Complex.mul_im, mul_one, zero_add] at hre him
  exact ⟨hre, him⟩

/-- `expFix` (R76). -/
theorem expFix_near {x : Int} (hx : |(x : ℝ) / fixOne| ≤ 7 / 8) :
    |((expFix x : Int) : ℝ) - fixOne * Real.exp (x / fixOne)| ≤ 1921 := by
  have h := expSeries_exp (turn := 1) (w := 1) (by simp) (by simp) hx
  rw [expFix]
  generalize expSeries 1 x 240 0 (2 ^ fixBits) = r at h ⊢
  have e : ((r.1 : ℂ) + 1 * r.2) - fixOne * Complex.exp (1 * ((x / fixOne : ℝ) : ℂ))
      = (((r.1 + r.2 : Int) : ℝ) - fixOne * Real.exp (x / fixOne) : ℝ) := by
    push_cast; ring_nf
  rw [e, Complex.norm_real] at h
  exact h

/-! ### The three constants -/

/-- The sum of `turn^j · p / ((k + 2j) · q^(2j))` in fixed point. -/
def oddSeries (turn : Int) (q : Nat) : Nat → Nat → Int → Int
  | 0, _, _ => 0
  | n + 1, k, p => p / k + turn * oddSeries turn q n (k + 2) (p / (q * q))

/-- Each term is off by at most 3: its power of `1/q` by 2, its division by 1. -/
theorem oddSeries_near {turn : Int} (ht : |(turn : ℝ)| = 1) {q : Nat} (hq : 3 ≤ q) {G : ℝ} (n : Nat) :
    ∀ (k : Nat) (p : Int), 0 < k → |(p : ℝ) - G / q ^ k| ≤ 2 →
    |((oddSeries turn q n k p : Int) : ℝ) - G * ∑ j ∈ Finset.range n, (turn : ℝ) ^ j * ((1 / (q : ℝ)) ^ (k + 2 * j) / (k + 2 * j))| ≤ 3 * n := by
  have hq' : (3 : ℝ) ≤ q := by exact_mod_cast hq
  have hq0 : (0 : ℝ) < q := by linarith
  induction n with
  | zero => intro k p _ _; simp [oddSeries]
  | succ n ih =>
    intro k p hk hp
    have hkk : (1 : ℝ) ≤ k := by exact_mod_cast hk
    have a1 := abs_floor_div_sub p (b := (k : Int)) (by exact_mod_cast hk)
    have a2 := abs_floor_div_sub p (b := (q : Int) * q) (by positivity)
    push_cast at a1 a2
    have h := ih (k + 2) (p / (q * q)) (by omega) (by
      have e : |(p : ℝ) / (q * q) - G / q ^ (k + 2)| ≤ 1 := by
        rw [show G / (q : ℝ) ^ (k + 2) = G / q ^ k / (q * q) by rw [pow_add]; field_simp, ← sub_div, abs_div,
          abs_of_pos (by positivity : (0 : ℝ) < q * q), div_le_one (by positivity)]
        nlinarith
      exact (abs_sub_le _ _ _).trans ((add_le_add a2 e).trans (by norm_num)))
    rw [Finset.sum_range_succ', oddSeries]
    generalize oddSeries turn q n (k + 2) (p / (q * q)) = r at h ⊢
    have e : ∑ j ∈ Finset.range n, (turn : ℝ) ^ (j + 1) * ((1 / (q : ℝ)) ^ (k + 2 * (j + 1)) / (k + 2 * ((j + 1 : Nat) : ℝ)))
        = turn * ∑ j ∈ Finset.range n, (turn : ℝ) ^ j * ((1 / (q : ℝ)) ^ (k + 2 + 2 * j) / (((k + 2 : Nat) : ℝ) + 2 * j)) := by
      rw [Finset.mul_sum]
      refine Finset.sum_congr rfl fun j _ => ?_
      rw [show k + 2 * (j + 1) = k + 2 + 2 * j by ring, pow_succ]
      push_cast
      ring
    rw [e]
    have h0 : |((p / k : Int) : ℝ) - G * (1 * ((1 / (q : ℝ)) ^ k / k))| ≤ 3 := by
      have : |(p : ℝ) / k - G * (1 * ((1 / (q : ℝ)) ^ k / k))| ≤ 2 := by
        rw [show G * (1 * ((1 / (q : ℝ)) ^ k / k)) = G / q ^ k / k by rw [one_div, inv_pow]; field_simp, ← sub_div, abs_div,
          abs_of_pos (by linarith : (0 : ℝ) < (k : ℝ)), div_le_iff₀ (by linarith)]
        nlinarith
      exact (abs_sub_le _ _ _).trans ((add_le_add a1 this).trans (by norm_num))
    have e2 : ((p / k + turn * r : Int) : ℝ) - G * (turn * (∑ j ∈ Finset.range n, (turn : ℝ) ^ j * ((1 / (q : ℝ)) ^ (k + 2 + 2 * j) / (((k + 2 : Nat) : ℝ) + 2 * j))) + turn ^ 0 * ((1 / (q : ℝ)) ^ (k + 2 * 0) / (k + 2 * ((0 : Nat) : ℝ))))
        = (((p / k : Int) : ℝ) - G * (1 * ((1 / (q : ℝ)) ^ k / k))) + turn * (r - G * ∑ j ∈ Finset.range n, (turn : ℝ) ^ j * ((1 / (q : ℝ)) ^ (k + 2 + 2 * j) / (((k + 2 : Nat) : ℝ) + 2 * j))) := by
      push_cast
      simp only [pow_zero, mul_zero, add_zero]
      ring
    rw [e2]
    refine (abs_add_le _ _).trans ?_
    rw [abs_mul, ht]
    refine le_trans (add_le_add h0 ((one_mul _).le.trans h)) ?_
    push_cast
    linarith

/-- The sum of the whole series is near, when what is cut off is less than one unit. -/
theorem oddSeries_hasSum {turn : Int} (ht : |(turn : ℝ)| = 1) {q : Nat} (hq : 3 ≤ q) {G : Nat} {n : Nat} {S : ℝ}
    (hS : HasSum (fun j : Nat => (turn : ℝ) ^ j * ((1 / (q : ℝ)) ^ (1 + 2 * j) / (1 + 2 * j))) S) (hG : G ≤ (q * q) ^ n) :
    |((oddSeries turn q n 1 (G / q : Nat) : Int) : ℝ) - G * S| ≤ 3 * n + 1 := by
  have hq' : (3 : ℝ) ≤ q := by exact_mod_cast hq
  have hq0 : (0 : ℝ) < q := by linarith
  have h1 := oddSeries_near ht hq (G := G) n 1 (G / q : Nat) one_pos (by
    have := abs_floor_div_sub (G : Int) (b := (q : Int)) (by positivity)
    push_cast at this ⊢
    rw [pow_one]
    linarith)
  have hr : 1 / ((q : ℝ) * q) ≤ 1 / 9 := by
    rw [div_le_div_iff₀ (by positivity) (by norm_num)]; nlinarith
  have hr0 : 0 ≤ 1 / ((q : ℝ) * q) := by positivity
  have h2 := norm_sub_le_of_geometric_bound_of_hasSum (r := 1 / ((q : ℝ) * q)) (C := 1 / q) (by linarith) (fun j => by
    rw [norm_mul, norm_pow, Real.norm_eq_abs, ht, one_pow, one_mul, norm_div, norm_pow, Real.norm_eq_abs, Real.norm_eq_abs,
      abs_of_pos (by positivity : (0 : ℝ) < 1 / q), abs_of_pos (by positivity : (0 : ℝ) < 1 + 2 * (j : ℝ)), pow_add, pow_one,
      pow_mul, show (1 / (q : ℝ)) ^ 2 = 1 / ((q : ℝ) * q) by rw [div_pow, one_pow, pow_two]]
    exact div_le_self (by positivity) (by linarith [(Nat.cast_nonneg j : (0 : ℝ) ≤ j)])) hS n
  have h3 : |(G : ℝ) * (∑ j ∈ Finset.range n, (turn : ℝ) ^ j * ((1 / (q : ℝ)) ^ (1 + 2 * j) / (1 + 2 * j))) - G * S| ≤ 1 := by
    rw [← mul_sub, abs_mul, abs_of_nonneg (Nat.cast_nonneg G)]
    rw [Real.norm_eq_abs] at h2
    have hG' : (G : ℝ) * (1 / ((q : ℝ) * q)) ^ n ≤ 1 := by
      rw [div_pow, one_pow, mul_one_div, div_le_one (by positivity)]
      exact_mod_cast hG
    have h4 : 1 / (q : ℝ) / (1 - 1 / ((q : ℝ) * q)) ≤ 1 := by
      rw [div_le_one (by linarith)]
      have : 1 / (q : ℝ) ≤ 1 / 3 := by
        rw [div_le_div_iff₀ (by positivity) (by norm_num)]; linarith
      linarith
    refine (mul_le_mul_of_nonneg_left h2 (Nat.cast_nonneg G)).trans ?_
    have : (G : ℝ) * (1 / (q : ℝ) * (1 / ((q : ℝ) * q)) ^ n / (1 - 1 / ((q : ℝ) * q)))
        = (G * (1 / ((q : ℝ) * q)) ^ n) * (1 / (q : ℝ) / (1 - 1 / ((q : ℝ) * q))) := by ring
    rw [this]
    have h0 : 0 ≤ 1 / (q : ℝ) / (1 - 1 / ((q : ℝ) * q)) := div_nonneg (by positivity) (by linarith)
    nlinarith
  refine (abs_sub_le _ _ _).trans (add_le_add (by push_cast at h1; simpa using h1) h3)

/-- A constant with 40 bits less than a sum that is near. -/
theorem near_of_shift {M c : Int} {G : ℝ} {S : ℝ} (h1 : |(M : ℝ) - 2 ^ 40 * G * S| ≤ 2 ^ 39)
    (h2 : (M / 2 ^ 40 - c).natAbs ≤ 1) : |(c : ℝ) - G * S| ≤ 3 := by
  have a := abs_floor_div_sub M (b := 2 ^ 40) (by norm_num)
  have b : |((M / 2 ^ 40 : Int) : ℝ) - c| ≤ 1 := by
    have : |M / 2 ^ 40 - c| ≤ 1 := by rw [Int.abs_eq_natAbs]; exact_mod_cast h2
    exact_mod_cast this
  generalize M / 2 ^ 40 = m at a b
  have d : |(M : ℝ) / ((2 ^ 40 : Int) : ℝ) - G * S| ≤ 1 := by
    rw [show G * S = 2 ^ 40 * G * S / ((2 ^ 40 : Int) : ℝ) by push_cast; ring, ← sub_div, abs_div,
      abs_of_pos (by norm_num : (0 : ℝ) < ((2 ^ 40 : Int) : ℝ)), div_le_one (by norm_num)]
    exact h1.trans (by norm_num)
  rw [abs_le] at *
  constructor <;> linarith [a.1, a.2, b.1, b.2, d.1, d.2]

theorem hasSum_arctan_odd {q : Nat} (hq : 3 ≤ q) :
    HasSum (fun j : Nat => ((-1 : Int) : ℝ) ^ j * ((1 / (q : ℝ)) ^ (1 + 2 * j) / (1 + 2 * j))) (Real.arctan (q : ℝ)⁻¹) := by
  have hq' : (3 : ℝ) ≤ q := by exact_mod_cast hq
  have h := Real.hasSum_arctan (x := (q : ℝ)⁻¹) (by
    rw [Real.norm_eq_abs, abs_of_pos (by positivity)]
    exact inv_lt_one_of_one_lt₀ (by linarith))
  refine h.congr_fun fun j => ?_
  rw [add_comm 1 (2 * j), one_div]
  push_cast
  ring

theorem hasSum_artanh_odd {q : Nat} (hq : 3 ≤ q) :
    HasSum (fun j : Nat => ((1 : Int) : ℝ) ^ j * ((1 / (q : ℝ)) ^ (1 + 2 * j) / (1 + 2 * j)))
      (Real.log ((1 + 1 / q) / (1 - 1 / q)) / 2) := by
  have hq' : (3 : ℝ) ≤ q := by exact_mod_cast hq
  have h1 : 1 / (q : ℝ) ≤ 1 / 3 := by rw [div_le_div_iff₀ (by positivity) (by norm_num)]; linarith
  have h0 : 0 < 1 / (q : ℝ) := by positivity
  have h := Real.hasSum_log_sub_log_of_abs_lt_one (x := 1 / (q : ℝ)) (by rw [abs_of_pos h0]; linarith)
  rw [← Real.log_div (by linarith) (by linarith)] at h
  refine (h.div_const 2).congr_fun fun j => ?_
  rw [add_comm 1 (2 * j)]
  push_cast
  ring

/-- `piFix` has 2380 bits after the point, and is within 3 of π there: Machin's formula. -/
theorem piFix_near : |(piFix : ℝ) - 2 ^ 2380 * Real.pi| ≤ 3 := by
  have a := oddSeries_hasSum (turn := -1) (by simp) (q := 5) (by norm_num) (G := 2 ^ 2420) (n := 530)
    (hasSum_arctan_odd (by norm_num)) (by decide +kernel)
  have b := oddSeries_hasSum (turn := -1) (by simp) (q := 239) (by norm_num) (G := 2 ^ 2420) (n := 160)
    (hasSum_arctan_odd (by norm_num)) (by decide +kernel)
  have c : ((16 * oddSeries (-1) 5 530 1 (2 ^ 2420 / 5 : Nat) - 4 * oddSeries (-1) 239 160 1 (2 ^ 2420 / 239 : Nat)) / 2 ^ 40 -
      (piFix : Int)).natAbs ≤ 1 := by decide +kernel
  have g : ((2 ^ 2420 : Nat) : ℝ) = 2 ^ 40 * 2 ^ 2380 := by rw [← pow_add, Nat.cast_pow, Nat.cast_ofNat]
  have m := Real.four_mul_arctan_inv_5_sub_arctan_inv_239
  generalize oddSeries (-1) 5 530 1 (2 ^ 2420 / 5 : Nat) = A at a c
  generalize oddSeries (-1) 239 160 1 (2 ^ 2420 / 239 : Nat) = B at b c
  refine near_of_shift (M := 16 * A - 4 * B) ?_ c
  have e : ((16 * A - 4 * B : Int) : ℝ) - 2 ^ 40 * 2 ^ 2380 * Real.pi
      = 16 * (A - ((2 ^ 2420 : Nat) : ℝ) * Real.arctan ((5 : Nat) : ℝ)⁻¹) - 4 * (B - ((2 ^ 2420 : Nat) : ℝ) * Real.arctan ((239 : Nat) : ℝ)⁻¹) := by
    rw [show Real.pi = 4 * (4 * Real.arctan 5⁻¹ - Real.arctan 239⁻¹) by rw [m]; ring, g]
    generalize (2 : ℝ) ^ 2380 = P
    push_cast
    ring
  rw [e]
  generalize ((2 ^ 2420 : Nat) : ℝ) = G at a b
  refine (abs_sub _ _).trans ?_
  rw [abs_mul, abs_mul, abs_of_pos (by norm_num : (0 : ℝ) < 16), abs_of_pos (by norm_num : (0 : ℝ) < 4)]
  push_cast at a b ⊢
  linarith

theorem two_pow_1320 : ((2 ^ 1320 : Nat) : ℝ) = 2 ^ 40 * fixOne := by
  rw [fixOne, fixBits, ← pow_add, Nat.cast_pow, Nat.cast_ofNat]

/-- `ln2Fix` is within 3 of ln 2 in fixed point: ln 2 = 2·artanh(1/3). -/
theorem ln2Fix_near : |(ln2Fix : ℝ) - fixOne * Real.log 2| ≤ 3 := by
  have a := oddSeries_hasSum (turn := 1) (by simp) (q := 3) (by norm_num) (G := 2 ^ 1320) (n := 430)
    (hasSum_artanh_odd (by norm_num)) (by decide +kernel)
  have c : (2 * oddSeries 1 3 430 1 (2 ^ 1320 / 3 : Nat) / 2 ^ 40 - (ln2Fix : Int)).natAbs ≤ 1 := by decide +kernel
  generalize oddSeries 1 3 430 1 (2 ^ 1320 / 3 : Nat) = A at a c
  refine near_of_shift (M := 2 * A) ?_ c
  rw [show (1 + 1 / ((3 : Nat) : ℝ)) / (1 - 1 / ((3 : Nat) : ℝ)) = 2 by norm_num] at a
  have e : ((2 * A : Int) : ℝ) - 2 ^ 40 * fixOne * Real.log 2 = 2 * (A - ((2 ^ 1320 : Nat) : ℝ) * (Real.log 2 / 2)) := by
    rw [two_pow_1320]
    push_cast
    ring
  rw [e, abs_mul, abs_of_pos (by norm_num : (0 : ℝ) < 2)]
  generalize ((2 ^ 1320 : Nat) : ℝ) = G at a
  push_cast at a ⊢
  linarith

/-- `ln10Fix` likewise: ln 10 = 6·artanh(1/3) + 2·artanh(1/9). -/
theorem ln10Fix_near : |(ln10Fix : ℝ) - fixOne * Real.log 10| ≤ 3 := by
  have a := oddSeries_hasSum (turn := 1) (by simp) (q := 3) (by norm_num) (G := 2 ^ 1320) (n := 430)
    (hasSum_artanh_odd (by norm_num)) (by decide +kernel)
  have b := oddSeries_hasSum (turn := 1) (by simp) (q := 9) (by norm_num) (G := 2 ^ 1320) (n := 220)
    (hasSum_artanh_odd (by norm_num)) (by decide +kernel)
  have c : ((6 * oddSeries 1 3 430 1 (2 ^ 1320 / 3 : Nat) + 2 * oddSeries 1 9 220 1 (2 ^ 1320 / 9 : Nat)) / 2 ^ 40 -
      (ln10Fix : Int)).natAbs ≤ 1 := by decide +kernel
  generalize oddSeries 1 3 430 1 (2 ^ 1320 / 3 : Nat) = A at a c
  generalize oddSeries 1 9 220 1 (2 ^ 1320 / 9 : Nat) = B at b c
  refine near_of_shift (M := 6 * A + 2 * B) ?_ c
  rw [show (1 + 1 / ((3 : Nat) : ℝ)) / (1 - 1 / ((3 : Nat) : ℝ)) = 2 by norm_num] at a
  rw [show (1 + 1 / ((9 : Nat) : ℝ)) / (1 - 1 / ((9 : Nat) : ℝ)) = 5 / 4 by norm_num] at b
  have l : Real.log 10 = 3 * Real.log 2 + Real.log (5 / 4) := by
    rw [show (10 : ℝ) = 2 ^ 3 * (5 / 4) by norm_num, Real.log_mul (by norm_num) (by norm_num), Real.log_pow]
    push_cast
    ring
  have e : ((6 * A + 2 * B : Int) : ℝ) - 2 ^ 40 * fixOne * Real.log 10
      = 6 * (A - ((2 ^ 1320 : Nat) : ℝ) * (Real.log 2 / 2)) + 2 * (B - ((2 ^ 1320 : Nat) : ℝ) * (Real.log (5 / 4) / 2)) := by
    rw [l, two_pow_1320]
    push_cast
    ring
  rw [e]
  generalize ((2 ^ 1320 : Nat) : ℝ) = G at a b
  refine (abs_add_le _ _).trans ?_
  rw [abs_mul, abs_mul, abs_of_pos (by norm_num : (0 : ℝ) < 6), abs_of_pos (by norm_num : (0 : ℝ) < 2)]
  push_cast at a b ⊢
  linarith

end Sys2Proof.Machine
end

