-- ==== Sys2Proof/Laws/Nearest.lean ====
section
/-! SUPPORT. Rounding to nearest, ties to even, in real numbers: what `round64` and `round32` do, said once for every
operation that rounds (R71). -/
namespace Sys2Proof.Machine

/-- The midpoint below infinity: from there on the rounding is infinity (R73), below it is finite. -/
theorem roundNearest_lt_inf {fb inf num den : Nat} (hfb : 0 < fb) (hd : 0 < den) (hodd : inf % 2 = 0) (hpos : 0 < inf) :
    roundNearest fb inf num den < inf ↔ 2 * num < (unitsOf fb (inf - 1) + unitsOf fb inf) * den := by
  obtain ⟨n, rfl⟩ : ∃ n, inf = n + 1 := ⟨inf - 1, by omega⟩
  rw [Nat.add_sub_cancel, roundNearest_eq hfb hd]
  obtain ⟨a, b⟩ := floorMag_bounds fb (num := num) hd
  have hm := unitsOf_strictMono fb
  have hadd : (unitsOf fb n + unitsOf fb (n + 1)) * den = unitsOf fb n * den + unitsOf fb (n + 1) * den := by ring
  generalize hf : floorMag fb num den = f at *
  rcases lt_trichotomy f n with h | h | h
  · have h1 : unitsOf fb (f + 1) * den ≤ unitsOf fb n * den := Nat.mul_le_mul_right _ (hm.monotone h)
    have h2 : unitsOf fb n * den ≤ unitsOf fb (n + 1) * den := Nat.mul_le_mul_right _ (hm.monotone (by omega))
    have := roundStep_le_one fb num den f
    constructor
    · intro _; omega
    · intro _; omega
  · subst h
    unfold roundStep
    simp only [hadd]
    constructor
    · intro h
      split at h
      · omega
      · split at h <;> omega
    · intro h
      rw [if_neg (by omega), if_neg (by omega)]
      omega
  · have h1 : unitsOf fb (n + 1) * den ≤ unitsOf fb f * den := Nat.mul_le_mul_right _ (hm.monotone h)
    have h2 : unitsOf fb n * den ≤ unitsOf fb (n + 1) * den := Nat.mul_le_mul_right _ (hm.monotone (by omega))
    constructor
    · intro h; omega
    · intro h; omega

/-- Of two magnitudes equally near, the rounding is the even one (R71). -/
theorem roundNearest_tie {fb inf num den : Nat} (hfb : 0 < fb) (hd : 0 < den)
    (hfin : roundNearest fb inf num den < inf) {m : Nat} (hne : m ≠ roundNearest fb inf num den)
    (h : |(unitsOf fb m * den : Int) - num| = |(unitsOf fb (roundNearest fb inf num den) * den : Int) - num|) :
    roundNearest fb inf num den % 2 = 0 := by
  obtain ⟨a, b⟩ := floorMag_bounds fb (num := num) hd
  rw [roundNearest_eq hfb hd] at hfin hne h ⊢
  have hm := unitsOf_strictMono fb
  generalize floorMag fb num den = f at *
  have hadd : (unitsOf fb f + unitsOf fb (f + 1)) * den = unitsOf fb f * den + unitsOf fb (f + 1) * den := by ring
  rw [min_eq_right (by omega)] at hne h ⊢
  have cast : ∀ x : Nat, (unitsOf fb x : Int) * den = ((unitsOf fb x * den : Nat) : Int) := fun x => by push_cast; rfl
  rw [cast, cast] at h
  have hlo : m < f → unitsOf fb m * den < unitsOf fb f * den := fun h => Nat.mul_lt_mul_of_pos_right (hm h) hd
  have hhi : f + 1 < m → unitsOf fb (f + 1) * den < unitsOf fb m * den := fun h => Nat.mul_lt_mul_of_pos_right (hm h) hd
  rcases abs_eq_abs.1 h with h | h
  · exfalso
    apply hne
    apply hm.injective
    refine Nat.eq_of_mul_eq_mul_right hd ?_
    omega
  · unfold roundStep at hne h ⊢
    simp only [hadd] at hne h ⊢
    split at h
    · rename_i hc
      rw [if_pos hc] at hne ⊢
      rcases lt_trichotomy m f with c | c | c
      · have := hlo c; omega
      · subst c; omega
      · have := hhi (by omega); omega
    · rename_i hc
      rw [if_neg hc] at hne ⊢
      split at h
      · rename_i he
        rw [if_pos he] at hne ⊢
        rcases Nat.mod_two_eq_zero_or_one f with hp | hp <;> rw [hp] <;> omega
      · rename_i he
        rw [if_neg he] at hne ⊢
        rw [Nat.add_zero] at h hne ⊢
        exfalso
        rcases lt_trichotomy m f with c | c | c
        · have := hlo c; omega
        · exact hne c
        · rcases Nat.lt_or_ge (f + 1) m with c' | c'
          · have := hhi c'; omega
          · have : m = f + 1 := by omega
            subst this; omega

/-- The sign of a value. -/
def signum (s : Bool) : ℝ := if s then -1 else 1

/-- Rounded to a finite magnitude, a signed value is nearest, ties to even, among all signed magnitudes. -/
theorem signed_nearest {fb inf num den : Nat} (hfb : 0 < fb) (hd : 0 < den) (hfin : roundNearest fb inf num den < inf)
    (s c : Bool) (m : Nat) :
    |signum s * unitsOf fb (roundNearest fb inf num den) - signum s * ((num : ℝ) / den)| ≤
        |signum c * unitsOf fb m - signum s * ((num : ℝ) / den)| ∧
      (signum c * (unitsOf fb m : ℝ) ≠ signum s * unitsOf fb (roundNearest fb inf num den) →
        |signum c * unitsOf fb m - signum s * ((num : ℝ) / den)| =
          |signum s * unitsOf fb (roundNearest fb inf num den) - signum s * ((num : ℝ) / den)| →
        roundNearest fb inf num den % 2 = 0) := by
  have hnear := fun k => roundNearest_nearest hfb hd hfin (m := k)
  have htie := fun k => roundNearest_tie hfb hd hfin (m := k)
  generalize roundNearest fb inf num den = r at *
  have hd' : (0 : ℝ) < den := Nat.cast_pos.2 hd
  have scale : ∀ k : Nat, |(unitsOf fb k : ℝ) - (num : ℝ) / den| * den = ((|(unitsOf fb k * den : Int) - num| : Int) : ℝ) := by
    intro k
    push_cast
    rw [← abs_of_pos hd', ← abs_mul, abs_of_pos hd', sub_mul, div_mul_cancel₀ _ hd'.ne']
  have near : ∀ k : Nat, |(unitsOf fb r : ℝ) - (num : ℝ) / den| ≤ |(unitsOf fb k : ℝ) - (num : ℝ) / den| := by
    intro k
    refine le_of_mul_le_mul_right ?_ hd'
    rw [scale, scale]
    exact_mod_cast hnear k
  have tie : ∀ k : Nat, k ≠ r → |(unitsOf fb k : ℝ) - (num : ℝ) / den| = |(unitsOf fb r : ℝ) - (num : ℝ) / den| →
      r % 2 = 0 := by
    intro k hk he
    refine htie k hk ?_
    have := congrArg (· * (den : ℝ)) he
    simp only [scale] at this
    exact_mod_cast this
  have hv : (0 : ℝ) ≤ (num : ℝ) / den := by positivity
  generalize (num : ℝ) / den = v at *
  have same : ∀ k : Nat, |signum s * unitsOf fb k - signum s * v| = |(unitsOf fb k : ℝ) - v| := by
    intro k
    rw [← mul_sub, abs_mul]
    cases s <;> simp [signum]
  rw [same]
  by_cases hsc : c = s
  · subst hsc
    rw [same]
    exact ⟨near m, fun hne => tie m (fun h => hne (by rw [h]))⟩
  · have opp : |signum c * (unitsOf fb m : ℝ) - signum s * v| = (unitsOf fb m : ℝ) + v := by
      have hu : (0 : ℝ) ≤ unitsOf fb m := Nat.cast_nonneg _
      cases s <;> cases c <;> simp_all [signum]
      · rw [← neg_add', abs_neg, abs_of_nonneg (by positivity)]
      · positivity
    rw [opp]
    have h0 := near 0
    simp only [unitsOf_zero, Nat.cast_zero, zero_sub, abs_neg, abs_of_nonneg hv] at h0
    have hu : (0 : ℝ) ≤ unitsOf fb m := Nat.cast_nonneg _
    refine ⟨by linarith, fun hne he => ?_⟩
    have hm0 : (unitsOf fb m : ℝ) = 0 := by linarith
    by_cases hr : 0 = r
    · subst hr
      simp
    · refine tie 0 hr ?_
      simp only [unitsOf_zero, Nat.cast_zero, zero_sub, abs_neg, abs_of_nonneg hv]
      linarith


theorem value64_eq (x : F64) : (value64 x : ℝ) = signum (sign64 x) * units64 x / unitsPerOne := by
  unfold value64 signed64 signum
  split <;> push_cast <;> ring

theorem value32_eq (x : F32) : (value32 x : ℝ) = signum (sign32 x) * units32 x / 2 ^ 149 := by
  unfold value32 signed32 signum
  split <;> push_cast <;> ring

theorem getLsbD_zero_eq (w : Nat) (x : BitVec w) : x.getLsbD 0 = decide (x.toNat % 2 = 1) := by
  simp [BitVec.getLsbD, Nat.testBit_zero]

theorem lsb64 (x : F64) : x.getLsbD 0 = decide (mag64 x % 2 = 1) := by
  rw [getLsbD_zero_eq, toNat_eq64]
  congr 2
  split <;> omega

theorem lsb32 (x : F32) : x.getLsbD 0 = decide (mag32 x % 2 = 1) := by
  rw [getLsbD_zero_eq, toNat_eq32]
  congr 2
  split <;> omega

/-- What rounding does to a real number of which it is given the sign and the absolute value in units, `u` of them to
1: the sign, the overflow at the midpoint `z` above the largest finite value, and the nearest value, ties to even. -/
theorem round_spec {fb inf num den u : Nat} {s : Bool} {x z : ℝ} (hfb : 0 < fb) (hd : 0 < den) (hu0 : 0 < u)
    (heven : inf % 2 = 0) (hpos : 0 < inf)
    (hmid : ((unitsOf fb (inf - 1) + unitsOf fb inf : Nat) : ℝ) = 2 * z * u)
    (hx : x = signum s * ((num : ℝ) / den) / u) :
    (x ≠ 0 → (s = true ↔ x < 0)) ∧ (z ≤ |x| → roundNearest fb inf num den = inf) ∧
      (|x| < z → roundNearest fb inf num den < inf ∧ ∀ (c : Bool) (m : Nat),
        |signum s * unitsOf fb (roundNearest fb inf num den) / u - x| ≤ |signum c * unitsOf fb m / u - x| ∧
          (signum c * unitsOf fb m / u ≠ signum s * unitsOf fb (roundNearest fb inf num den) / (u : ℝ) →
            |signum c * unitsOf fb m / u - x| = |signum s * unitsOf fb (roundNearest fb inf num den) / u - x| →
            roundNearest fb inf num den % 2 = 0)) := by
  have hu : (0 : ℝ) < u := Nat.cast_pos.2 hu0
  have hd' : (0 : ℝ) < den := Nat.cast_pos.2 hd
  have hv0 : (0 : ℝ) ≤ (num : ℝ) / den := by positivity
  have habs : |x| = (num : ℝ) / den / u := by
    rw [hx, abs_div, abs_mul, abs_of_pos hu, abs_of_nonneg hv0]
    cases s <;> simp [signum]
  have key : roundNearest fb inf num den < inf ↔ |x| < z := by
    rw [roundNearest_lt_inf hfb hd heven hpos, habs, div_lt_iff₀ hu, div_lt_iff₀ hd', ← Nat.cast_lt (α := ℝ),
      Nat.cast_mul _ den, hmid, Nat.cast_mul 2 num, Nat.cast_ofNat]
    constructor <;> intro h <;> linarith
  refine ⟨fun hne => ?_, fun h => ?_, fun h => ⟨key.2 h, fun c m => ?_⟩⟩
  · have hv : 0 < (num : ℝ) / den := by
      rcases hv0.lt_or_eq with h | h
      · exact h
      · rw [← h] at hx; simp at hx; exact absurd hx hne
    have : 0 < (num : ℝ) / den / u := div_pos hv hu
    have hx' : x = signum s * ((num : ℝ) / den / u) := by rw [hx]; ring
    rw [hx']
    cases s
    · simpa [signum] using this.le
    · simpa [signum] using this
  · have := roundNearest_le_inf fb inf num den
    by_contra hne
    exact absurd (key.1 (by omega)) (not_lt.2 h)
  · have sub : ∀ y : ℝ, |y / u - x| = |y - signum s * ((num : ℝ) / den)| / u := by
      intro y
      rw [hx, ← sub_div, abs_div, abs_of_pos hu]
    obtain ⟨h1, h2⟩ := signed_nearest hfb hd (key.2 h) s c m
    rw [sub, sub]
    exact ⟨div_le_div_of_nonneg_right h1 hu.le,
      fun hne he => h2 (fun hc => hne (by rw [hc])) ((div_left_inj' hu.ne').1 he)⟩

theorem midpoint64 : unitsOf 52 (inf64 - 1) + unitsOf 52 inf64 = (2 ^ 1025 - 2 ^ 971) * unitsPerOne := by
  decide +kernel

theorem midpoint32 : unitsOf 23 (inf32 - 1) + unitsOf 23 inf32 = (2 ^ 129 - 2 ^ 104) * 2 ^ 149 := by
  decide +kernel

/-- A difference of two powers of two, as a real number: half of the one with exponents one higher. -/
theorem two_mul_pow_sub {a b : Nat} (h : b ≤ a) : ((2 ^ (a + 1) - 2 ^ (b + 1) : Nat) : ℝ) = 2 * ((2 : ℝ) ^ a - 2 ^ b) := by
  rw [Nat.cast_sub (Nat.pow_le_pow_right (by omega) (by omega)), Nat.cast_pow, Nat.cast_pow, pow_succ, pow_succ,
    Nat.cast_ofNat]
  ring

/-- `round64` of a real number of which it is given the sign and the absolute value in units is its rounding (R71). -/
theorem nearestEven64_round64 {s : Bool} {num den : Nat} {x : ℝ} (hd : 0 < den)
    (hx : x = signum s * ((num : ℝ) / den) / unitsPerOne) : NearestEven64 (round64 s num den) x := by
  obtain ⟨h1, h2, h3⟩ := round_spec (fb := 52) (inf := inf64) (z := (2 : ℝ) ^ 1024 - 2 ^ 970) (by decide) hd unitsPerOne_pos
    (by decide) (by decide) (by rw [midpoint64, Nat.cast_mul, two_mul_pow_sub (by omega)]) hx
  refine ⟨by rwa [sign64_round64], fun h => ?_, fun h => ?_⟩
  · rw [isInf64, mag64_round64, h2 h, beq_self_eq_true]
  · obtain ⟨hfin, hall⟩ := h3 h
    refine ⟨by rw [isFinite64, mag64_round64]; exact decide_eq_true hfin, fun c _ => ?_⟩
    have hr : (value64 (round64 s num den) : ℝ) = signum s * unitsOf 52 (roundNearest 52 inf64 num den) / unitsPerOne := by
      rw [value64_eq, sign64_round64, units64, mag64_round64]
    obtain ⟨a, b⟩ := hall (sign64 c) (mag64 c)
    rw [hr, value64_eq c]
    refine ⟨a, fun hne he => ?_⟩
    rw [lsb64, mag64_round64, b (fun hc => hne ?_) he]
    · rfl
    · have : (value64 c : ℝ) = value64 (round64 s num den) := by rw [value64_eq c, hr]; exact hc
      exact_mod_cast this

/-- `round32`, likewise. -/
theorem nearestEven32_round32 {s : Bool} {num den : Nat} {x : ℝ} (hd : 0 < den)
    (hx : x = signum s * ((num : ℝ) / den) / (2 ^ 149 : Nat)) : NearestEven32 (round32 s num den) x := by
  obtain ⟨h1, h2, h3⟩ := round_spec (fb := 23) (inf := inf32) (z := (2 : ℝ) ^ 128 - 2 ^ 103) (by decide) hd
    (Nat.two_pow_pos 149) (by decide) (by decide) (by rw [midpoint32, Nat.cast_mul, two_mul_pow_sub (by omega)]) hx
  refine ⟨by rwa [sign32_round32], fun h => ?_, fun h => ?_⟩
  · rw [isInf32, mag32_round32, h2 h, beq_self_eq_true]
  · obtain ⟨hfin, hall⟩ := h3 h
    refine ⟨by rw [isFinite32, mag32_round32]; exact decide_eq_true hfin, fun c _ => ?_⟩
    have hr : (value32 (round32 s num den) : ℝ) =
        signum s * unitsOf 23 (roundNearest 23 inf32 num den) / (2 ^ 149 : Nat) := by
      rw [value32_eq, sign32_round32, units32, mag32_round32, Nat.cast_pow, Nat.cast_ofNat]
    have hc32 : (value32 c : ℝ) = signum (sign32 c) * unitsOf 23 (mag32 c) / (2 ^ 149 : Nat) := by
      rw [value32_eq, units32, Nat.cast_pow, Nat.cast_ofNat]
    obtain ⟨a, b⟩ := hall (sign32 c) (mag32 c)
    rw [hr, hc32]
    refine ⟨a, fun hne he => ?_⟩
    rw [lsb32, mag32_round32, b (fun hc => hne ?_) he]
    · rfl
    · have : (value32 c : ℝ) = value32 (round32 s num den) := by rw [hc32, hr]; exact hc
      exact_mod_cast this

/-- `pack64` of magnitude 0 is the rounding of 0. -/
theorem round64_zero (s : Bool) {den : Nat} (hd : 0 < den) : round64 s 0 den = pack64 s 0 := by
  rw [round64, roundNearest_exact (m := 0) (by decide) hd (by simp), Nat.min_zero]

theorem signum_natAbs (z : Int) : signum (decide (z < 0)) * (z.natAbs : ℝ) = z := by
  rw [← Int.cast_natCast (R := ℝ), Int.natCast_natAbs]
  by_cases h : z < 0
  · simp [signum, h, abs_of_neg h]
  · simp [signum, h, abs_of_nonneg (not_lt.1 h)]

theorem signum_bne (s t : Bool) : signum (s != t) = signum s * signum t := by cases s <;> cases t <;> simp [signum]

theorem signum_mul_self (s : Bool) : signum s * signum s = 1 := by cases s <;> simp [signum]

theorem units_ne : (unitsPerOne : ℝ) ≠ 0 := Nat.cast_ne_zero.2 unitsPerOne_pos.ne'

theorem value64_real (x : F64) : (value64 x : ℝ) = (signed64 x : ℝ) / unitsPerOne := by
  unfold value64; push_cast; rfl

theorem nearestEven64_zero (s : Bool) : NearestEven64 (pack64 s 0) 0 := by
  rw [← round64_zero s Nat.one_pos]
  exact nearestEven64_round64 Nat.one_pos (by rw [Nat.cast_zero, zero_div, mul_zero, zero_div])

@[simp] theorem value64_fneg (x : F64) : value64 (fneg x) = -value64 x := by
  unfold value64
  rw [signed64_fneg]
  push_cast
  ring

@[simp] theorem isFinite64_fneg (x : F64) : isFinite64 (fneg x) = isFinite64 x := by simp [isFinite64]

/-- The values of finite patterns are ordered as their whole numbers of units. -/
theorem value64_lt {a b : F64} : value64 a < value64 b ↔ signed64 a < signed64 b := by
  have hu : (0 : ℚ) < unitsPerOne := Nat.cast_pos.2 unitsPerOne_pos
  rw [value64, value64, div_lt_div_iff_of_pos_right hu, Int.cast_lt]

theorem value64_le {a b : F64} : value64 a ≤ value64 b ↔ signed64 a ≤ signed64 b := by
  have hu : (0 : ℚ) < unitsPerOne := Nat.cast_pos.2 unitsPerOne_pos
  rw [value64, value64, div_le_div_iff_of_pos_right hu, Int.cast_le]

theorem isqrtBits_spec (m n r : Nat) (h1 : r * r ≤ m) (h2 : m < (r + 2 ^ n) * (r + 2 ^ n)) :
    isqrtBits m n r * isqrtBits m n r ≤ m ∧ m < (isqrtBits m n r + 1) * (isqrtBits m n r + 1) := by
  induction n generalizing r with
  | zero => simpa [isqrtBits] using ⟨h1, h2⟩
  | succ n ih =>
    rw [isqrtBits]
    split
    · refine ih _ ‹_› ?_
      rw [pow_succ] at h2
      have e : r + 2 ^ n + 2 ^ n = r + 2 ^ n * 2 := by ring
      rw [e]
      exact h2
    · exact ih _ h1 (not_le.1 ‹_›)

/-- `isqrt` is the whole part of the square root. -/
theorem isqrt_spec (m : Nat) : isqrt m * isqrt m ≤ m ∧ m < (isqrt m + 1) * (isqrt m + 1) := by
  refine isqrtBits_spec m _ 0 (by simp) ?_
  rw [Nat.zero_add, ← pow_add]
  refine lt_of_lt_of_le (Nat.lt_log2_self (n := m)) (Nat.pow_le_pow_right (by omega) (by omega))

/-- The distance comparison of two whole numbers from `y` is the same from every `y` strictly between two neighbouring
halves. -/
theorem half_open_compare {k : Int} {y z : ℝ} (hy : (k : ℝ) / 2 < y ∧ y < (k + 1) / 2)
    (hz : (k : ℝ) / 2 < z ∧ z < (k + 1) / 2) (r c : Int) :
    (|(r : ℝ) - y| ≤ |(c : ℝ) - y| ↔ |(r : ℝ) - z| ≤ |(c : ℝ) - z|) ∧ (|(c : ℝ) - y| = |(r : ℝ) - y| → c = r) := by
  have side : ∀ w : ℝ, (k : ℝ) / 2 < w ∧ w < (k + 1) / 2 →
      (|(r : ℝ) - w| ≤ |(c : ℝ) - w| ↔ (r = c ∨ (c < r ∧ r + c ≤ k) ∨ (r < c ∧ k + 1 ≤ r + c))) ∧
        (|(c : ℝ) - w| = |(r : ℝ) - w| → c = r) := by
    intro w hw
    have hlt : ∀ {a b : Int}, a < b → (a : ℝ) < b := fun h => Int.cast_lt.2 h
    have hsum : r + c ≤ k ∨ k + 1 ≤ r + c := by omega
    have hsum' : (r : ℝ) + c ≤ k ∨ (k : ℝ) + 1 ≤ r + c := by
      rcases hsum with h | h
      · left; exact_mod_cast h
      · right; exact_mod_cast h
    rw [← sq_le_sq, ← sq_eq_sq_iff_abs_eq_abs]
    have diff : ((c : ℝ) - w) ^ 2 - ((r : ℝ) - w) ^ 2 = (c - r) * (c + r - 2 * w) := by ring
    rcases lt_trichotomy r c with h | h | h
    · have hrc := hlt h
      constructor
      · rw [← sub_nonneg, diff, mul_nonneg_iff_of_pos_left (by linarith)]
        constructor
        · intro h2
          right; right
          refine ⟨h, ?_⟩
          rcases hsum with h3 | h3
          · have : (r : ℝ) + c ≤ k := by exact_mod_cast h3
            linarith [hw.1]
          · exact h3
        · rintro (h2 | h2 | h2)
          · omega
          · omega
          · have : (k : ℝ) + 1 ≤ r + c := by exact_mod_cast h2.2
            linarith [hw.2]
      · intro h2
        rw [← sub_eq_zero, diff] at h2
        rcases mul_eq_zero.1 h2 with h3 | h3
        · linarith
        · rcases hsum' with h4 | h4 <;> linarith [hw.1, hw.2]
    · subst h; simp
    · have hrc := hlt h
      constructor
      · rw [← sub_nonneg, diff, show ((c : ℝ) - r) * (c + r - 2 * w) = (r - c) * (2 * w - c - r) by ring,
          mul_nonneg_iff_of_pos_left (by linarith)]
        constructor
        · intro h2
          right; left
          refine ⟨h, ?_⟩
          rcases hsum with h3 | h3
          · exact h3
          · have : (k : ℝ) + 1 ≤ r + c := by exact_mod_cast h3
            linarith [hw.2]
        · rintro (h2 | h2 | h2)
          · omega
          · have : (r : ℝ) + c ≤ k := by exact_mod_cast h2.2
            linarith [hw.1]
          · omega
      · intro h2
        rw [← sub_eq_zero, diff] at h2
        rcases mul_eq_zero.1 h2 with h3 | h3
        · linarith
        · rcases hsum' with h4 | h4 <;> linarith [hw.1, hw.2]
  obtain ⟨a, b⟩ := side y hy
  exact ⟨a.trans (side z hz).1.symm, b⟩

/-- The rounding of a value strictly between two neighbouring halves of a unit is the rounding of every other such
value: how the last step of a square root can be taken on a stand-in. -/
theorem NearestEven64.transfer {k : Int} (hk : 0 ≤ k) {y z : ℝ} (hy : (k : ℝ) / 2 < y ∧ y < (k + 1) / 2)
    (hz : (k : ℝ) / 2 < z ∧ z < (k + 1) / 2) {r : F64} (h : NearestEven64 r (y / unitsPerOne)) :
    NearestEven64 r (z / unitsPerOne) := by
  have hu : (0 : ℝ) < unitsPerOne := Nat.cast_pos.2 unitsPerOne_pos
  have hk' : (0 : ℝ) ≤ k := Int.cast_nonneg hk
  have hy0 : 0 < y := by linarith [hy.1]
  have hz0 : 0 < z := by linarith [hz.1]
  have py : 0 < y / unitsPerOne := div_pos hy0 hu
  have pz : 0 < z / unitsPerOne := div_pos hz0 hu
  obtain ⟨h1, h2, h3⟩ := h
  have dist : ∀ (w : ℝ) (c : F64), |(value64 c : ℝ) - w / unitsPerOne| = |(signed64 c : ℝ) - w| / unitsPerOne := by
    intro w c
    rw [show (value64 c : ℝ) = (signed64 c : ℝ) / unitsPerOne by unfold value64; push_cast; rfl, ← sub_div, abs_div, abs_of_pos hu]
  have thr : ∀ w : ℝ, 0 < w → (|w / unitsPerOne| < (2 : ℝ) ^ 1024 - 2 ^ 970 ↔ w < ((((2 ^ 1024 - 2 ^ 970) * unitsPerOne : Nat) : Int) : ℝ)) := by
    intro w hw
    rw [abs_of_pos (div_pos hw hu), div_lt_iff₀ hu, Int.cast_natCast, Nat.cast_mul, Nat.cast_sub (Nat.pow_le_pow_right (by omega) (by omega)), Nat.cast_pow, Nat.cast_pow, Nat.cast_ofNat]
  have side : ∀ t : Int, y < t ↔ z < t := by
    intro t
    have : 2 * t ≤ k ∨ k + 1 ≤ 2 * t := by omega
    rcases this with h | h
    · have : 2 * (t : ℝ) ≤ k := by exact_mod_cast h
      constructor <;> intro h <;> linarith [hy.1, hz.1]
    · have : (k : ℝ) + 1 ≤ 2 * t := by exact_mod_cast h
      constructor <;> intro h <;> linarith [hy.2, hz.2]
  have same : |z / unitsPerOne| < (2 : ℝ) ^ 1024 - 2 ^ 970 ↔ |y / unitsPerOne| < (2 : ℝ) ^ 1024 - 2 ^ 970 := by
    rw [thr z hz0, thr y hy0, side]
  refine ⟨fun _ => ?_, fun h => h2 ?_, fun h => ?_⟩
  · rw [h1 py.ne']
    constructor <;> intro h <;> linarith
  · exact not_lt.1 fun c => absurd (same.2 c) (not_lt.2 h)
  · obtain ⟨a, b⟩ := h3 (same.1 h)
    refine ⟨a, fun c hc => ?_⟩
    obtain ⟨e1, e2⟩ := b c hc
    rw [dist, dist] at e1 ⊢
    obtain ⟨f1, _⟩ := half_open_compare hy hz (signed64 r) (signed64 c)
    obtain ⟨_, f2⟩ := half_open_compare hz hy (signed64 r) (signed64 c)
    refine ⟨div_le_div_of_nonneg_right (f1.1 ((div_le_div_iff_of_pos_right hu).1 e1)) hu.le, fun hne he => ?_⟩
    have := f2 ((div_left_inj' hu.ne').1 he)
    exact absurd (by rw [value64, value64, this]) hne

end Sys2Proof.Machine
end

