-- ==== Sys2Proof/Laws/Primitives.lean ====
section
/-! SUPPORT. What each primitive does to NaNs, infinities and zeros, said once (R73, R133). -/

namespace Sys2Proof.Machine


theorem not_finite64_iff {x : F64} : isFinite64 x = false ↔ isNaN64 x = true ∨ isInf64 x = true := by
  rw [isFinite64_eq]; cases isNaN64 x <;> cases isInf64 x <;> simp

theorem finite64_iff {x : F64} : isFinite64 x = true ↔ isNaN64 x = false ∧ isInf64 x = false := by
  rw [isFinite64_eq]; cases isNaN64 x <;> cases isInf64 x <;> simp

theorem inf64_not_nan {x : F64} (h : isInf64 x = true) : isNaN64 x = false := by
  simp only [isInf64, beq_iff_eq] at h; simp [isNaN64, h]

@[simp] theorem fadd_nan_left {d : NanDraw} {a b : F64} (h : isNaN64 a = true) : fadd d a b = nan64 d := by simp [fadd, h]
@[simp] theorem fadd_nan_right {d : NanDraw} {a b : F64} (h : isNaN64 b = true) : fadd d a b = nan64 d := by simp [fadd, h]
@[simp] theorem fsub_nan_left {d : NanDraw} {a b : F64} (h : isNaN64 a = true) : fsub d a b = nan64 d := by simp [fsub, h]
@[simp] theorem fsub_nan_right {d : NanDraw} {a b : F64} (h : isNaN64 b = true) : fsub d a b = nan64 d := by simp [fsub, h]
@[simp] theorem fmul_nan_left {d : NanDraw} {a b : F64} (h : isNaN64 a = true) : fmul d a b = nan64 d := by simp [fmul, h]
@[simp] theorem fmul_nan_right {d : NanDraw} {a b : F64} (h : isNaN64 b = true) : fmul d a b = nan64 d := by simp [fmul, h]
@[simp] theorem fdiv_nan_left {d : NanDraw} {a b : F64} (h : isNaN64 a = true) : fdiv d a b = nan64 d := by simp [fdiv, h]
@[simp] theorem fdiv_nan_right {d : NanDraw} {a b : F64} (h : isNaN64 b = true) : fdiv d a b = nan64 d := by simp [fdiv, h]
@[simp] theorem fsqrt_nan {d : NanDraw} {a : F64} (h : isNaN64 a = true) : fsqrt d a = nan64 d := by simp [fsqrt, h]

theorem isInf64_pack (s : Bool) : isInf64 (pack64 s inf64) = true := by cases s <;> decide
theorem isNaN64_pack_inf (s : Bool) : isNaN64 (pack64 s inf64) = false := by cases s <;> decide
theorem mag64_pack_inf (s : Bool) : mag64 (pack64 s inf64) = inf64 := by cases s <;> decide
theorem sign64_pack_inf (s : Bool) : sign64 (pack64 s inf64) = s := by cases s <;> decide
theorem mag64_pack_zero (s : Bool) : mag64 (pack64 s 0) = 0 := by cases s <;> decide
theorem sign64_pack_zero (s : Bool) : sign64 (pack64 s 0) = s := by cases s <;> decide

/-- An infinity in a sum gives that infinity, or a NaN where two of opposite signs meet (R73). -/
theorem fadd_inf_left {d : NanDraw} {a b : F64} (ha : isInf64 a = true) (hb : isNaN64 b = false) :
    fadd d a b = if isInf64 b && sign64 a != sign64 b then nan64 d else a := by
  simp [fadd, ha, hb, inf64_not_nan ha]

theorem fadd_inf_right {d : NanDraw} {a b : F64} (ha : isFinite64 a = true) (hb : isInf64 b = true) : fadd d a b = b := by
  rw [finite64_iff] at ha
  simp [fadd, ha.1, ha.2, hb, inf64_not_nan hb]

/-- R133: "A sum with a non-finite term is non-finite". -/
theorem fadd_not_finite {d : NanDraw} {a b : F64} (h : isFinite64 a = false ∨ isFinite64 b = false) :
    isFinite64 (fadd d a b) = false := by
  have hnan : ∀ d, isFinite64 (nan64 d) = false := fun d => not_finite64_iff.2 (.inl (isNaN64_nan64 d))
  by_cases hn : isNaN64 a = true
  · rw [fadd_nan_left hn, hnan]
  by_cases hm : isNaN64 b = true
  · rw [fadd_nan_right hm, hnan]
  by_cases ha : isInf64 a = true
  · rw [fadd_inf_left ha (by simpa using hm)]
    split
    · exact hnan d
    · exact not_finite64_iff.2 (.inr ha)
  · have hfa : isFinite64 a = true := finite64_iff.2 ⟨by simpa using hn, by simpa using ha⟩
    have hfb : isInf64 b = true := by
      rcases not_finite64_iff.1 (h.resolve_left (by simp [hfa])) with h | h
      · exact absurd h hm
      · exact h
    rw [fadd_inf_right hfa hfb]
    exact not_finite64_iff.2 (.inr hfb)

theorem fsub_not_finite {d : NanDraw} {a b : F64} (h : isFinite64 a = false ∨ isFinite64 b = false) :
    isFinite64 (fsub d a b) = false := by
  refine fadd_not_finite (h.imp_right ?_)
  intro h; rw [← h]; simp [isFinite64]

/-- R133: "A product with a non-finite factor (a NaN or an infinity) is itself non-finite". -/
theorem fmul_not_finite {d : NanDraw} {a b : F64} (h : isFinite64 a = false ∨ isFinite64 b = false) :
    isFinite64 (fmul d a b) = false := by
  have hnan : ∀ d, isFinite64 (nan64 d) = false := fun d => not_finite64_iff.2 (.inl (isNaN64_nan64 d))
  by_cases hn : isNaN64 a = true
  · rw [fmul_nan_left hn, hnan]
  by_cases hm : isNaN64 b = true
  · rw [fmul_nan_right hm, hnan]
  have hi : (isInf64 a || isInf64 b) = true := by
    rw [Bool.or_eq_true]
    exact h.imp (fun h => (not_finite64_iff.1 h).resolve_left hn) (fun h => (not_finite64_iff.1 h).resolve_left hm)
  simp only [fmul, hn, hm, hi]
  simp only [Bool.or_self, Bool.false_eq_true, if_false, if_true]
  split
  · exact hnan d
  · exact not_finite64_iff.2 (.inr (isInf64_pack _))

theorem widen_not_finite {d : NanDraw} {x : F32} (h : isFinite32 x = false) : isFinite64 (widen d x) = false := by
  have hnan : ∀ d, isFinite64 (nan64 d) = false := fun d => not_finite64_iff.2 (.inl (isNaN64_nan64 d))
  rw [isFinite32_eq] at h
  unfold widen
  split
  · exact hnan d
  · split
    · exact not_finite64_iff.2 (.inr (isInf64_pack _))
    · simp_all

theorem flt_thresh_not_finite {x : F64} (h : isFinite64 x = false) : flt (fabs x) thresh = false := by
  rcases not_finite64_iff.1 h with h | h
  · simp [flt, h]
  · have e : signed64 (fabs x) = (unitsOf 52 inf64 : Nat) := by
      rw [signed64_fabs, units64]; simp only [isInf64, beq_iff_eq] at h; rw [h]
    have : ¬ signed64 (fabs x) < signed64 thresh := by rw [e]; decide +kernel
    simp [flt, this]

theorem squelch_not_finite {x : F64} (h : isFinite64 x = false) : squelch x = x := by
  simp [squelch, flt_thresh_not_finite h]

theorem narrow_not_finite {d : NanDraw} {x : F64} (h : isFinite64 x = false) : isFinite32 (narrow d x) = false := by
  rcases not_finite64_iff.1 h with h | h
  · simp [narrow, h, isFinite32_eq]
  · rw [narrow, if_neg (by simp [inf64_not_nan h]), if_pos h]
    cases sign64 x <;> decide


/-- Between finite values and infinities, `flt` compares the signed units. -/
theorem flt_eq {a b : F64} (ha : isNaN64 a = false) (hb : isNaN64 b = false) :
    flt a b = decide (signed64 a < signed64 b) := by simp [flt, ha, hb]

/-- The squelch's test looks at the magnitude (R132). -/
theorem flt_fabs_thresh {x : F64} (hx : isNaN64 x = false) : flt (fabs x) thresh = decide (mag64 x < mag64 thresh) := by
  rw [flt_eq (by simpa using hx) (by decide), signed64_fabs, show signed64 thresh = (units64 thresh : Int) by rfl]
  exact decide_eq_decide.2 (by rw [Int.ofNat_lt, units64_lt])

/-- Everything the squelch does: below the threshold, and not a NaN, `+0`; otherwise nothing. -/
theorem squelch_eq (x : F64) : squelch x = if isNaN64 x = false ∧ mag64 x < mag64 thresh then zero64 else x := by
  unfold squelch
  by_cases hx : isNaN64 x = false
  · rw [flt_fabs_thresh hx]; simp [hx]
  · have hx' : isNaN64 x = true := by simpa using hx
    simp [flt, hx']

theorem squelch_range (x : F64) : outputRange64 (squelch x) = true := by
  rw [squelch_eq]
  split
  · decide
  · rename_i h
    unfold outputRange64
    by_cases hn : isNaN64 x = true
    · simp [hn]
    · have hn : isNaN64 x = false := by simpa using hn
      have hm : mag64 thresh ≤ mag64 x := by by_contra hc; exact h ⟨hn, by omega⟩
      by_cases hi : isInf64 x = true
      · simp [hi]
      · simp [finite64_iff, hn, hi, hm]

theorem narrow_of_finite {d : NanDraw} {x : F64} (h : isFinite64 x = true) :
    narrow d x = round32 (sign64 x) (units64 x) unitsPerUnit32 := by
  obtain ⟨h1, h2⟩ := finite64_iff.1 h
  simp [narrow, h1, h2]

theorem narrow_of_inf {d : NanDraw} {x : F64} (h : isInf64 x = true) : narrow d x = pack32 (sign64 x) inf32 := by
  simp [narrow, h, inf64_not_nan h]

theorem narrow_of_nan {d : NanDraw} {x : F64} (h : isNaN64 x = true) : narrow d x = nan32 d := by simp [narrow, h]

/-- What is not a NaN is narrowed without a draw. -/
theorem narrow_draw {x : F64} (h : isNaN64 x = false) (d d' : NanDraw) : narrow d x = narrow d' x := by
  simp [narrow, h]

theorem narrow_thresh : roundNearest 23 inf32 (units64 thresh) unitsPerUnit32 = mag32 0x1E3CE508#32 := by decide +kernel

theorem narrow_range {d : NanDraw} {x : F64} (h : outputRange64 x = true) : outputRange32 (narrow d x) = true := by
  simp only [outputRange64, Bool.or_eq_true, Bool.and_eq_true, decide_eq_true_eq, beq_iff_eq] at h
  rcases h with ((h | h) | h) | ⟨h, hm⟩
  · subst h
    have : narrow d zero64 = 0 := by
      rw [narrow_of_finite (by decide), show units64 zero64 = 0 by decide, round32,
        roundNearest_exact (m := 0) (by decide) unitsPerUnit32_pos (by simp)]
      decide
    rw [this]; decide
  · rw [narrow_of_nan h]; simp [outputRange32]
  · rw [narrow_of_inf h]; cases sign64 x <;> decide
  · rw [narrow_of_finite h]
    have : mag32 0x1E3CE508#32 ≤ roundNearest 23 inf32 (units64 x) unitsPerUnit32 := by
      rw [← narrow_thresh]
      exact roundNearest_mono (by decide) unitsPerUnit32_pos unitsPerUnit32_pos
        (Nat.mul_le_mul_right _ (units64_le.2 hm))
    have hle := roundNearest_le_inf 23 inf32 (units64 x) unitsPerUnit32
    simp only [outputRange32, Bool.or_eq_true, Bool.and_eq_true, decide_eq_true_eq, isFinite32, isInf32, mag32_round32, beq_iff_eq]
    omega

theorem finite32_iff {x : F32} : isFinite32 x = true ↔ isNaN32 x = false ∧ isInf32 x = false := by
  rw [isFinite32_eq]; cases isNaN32 x <;> cases isInf32 x <;> simp

theorem widen_of_finite {d : NanDraw} {x : F32} (h : isFinite32 x = true) :
    widen d x = round64 (sign32 x) (units32 x * unitsPerUnit32) 1 := by
  obtain ⟨h1, h2⟩ := finite32_iff.1 h
  simp [widen, h1, h2]

theorem pow925 : (unitsPerUnit32 : Nat) = 2 ^ 925 := by unfold unitsPerUnit32; rfl

theorem unitsPerOne_eq : unitsPerOne = unitsPerUnit32 * 2 ^ 149 := by
  unfold unitsPerOne unitsPerUnit32; rw [← pow_add]

/-- Every binary32 value is a binary64 value (R80): the magnitude of it. -/
theorem exists_wide (m : Nat) (h : m < inf32) :
    ∃ M, unitsOf 52 M = unitsOf 23 m * unitsPerUnit32 ∧ M < inf64 ∧ (m ≠ 0 → 2 ^ 52 ≤ M) := by
  rcases Nat.eq_zero_or_pos m with rfl | hm
  · exact ⟨0, by simp, by decide, by simp⟩
  obtain ⟨k, q, rfl, hq, hk⟩ := exists_scaled 23 m
  rw [unitsOf_scaled hq.le hk, pow925]
  have hq0 : q ≠ 0 := by
    rintro rfl
    rcases hk with rfl | hk
    · simp at hm
    · simp at hk
  have hl1 := Nat.log2_self_le hq0
  have hl2 := Nat.lt_log2_self (n := q)
  have hl3 : q.log2 < 24 := (Nat.log2_lt hq0).2 hq
  have hk2 : k < 2 ^ 8 := by
    have : k * 2 ^ 23 + q < 2 ^ 8 * 2 ^ 23 := lt_of_lt_of_le h (by decide)
    by_contra hc
    have : 2 ^ 8 * 2 ^ 23 ≤ k * 2 ^ 23 := Nat.mul_le_mul_right _ (by omega)
    omega
  refine ⟨(k + 925 - (52 - q.log2)) * 2 ^ 52 + q * 2 ^ (52 - q.log2), ?_, ?_, ?_⟩
  · rw [unitsOf_scaled]
    · rw [Nat.mul_assoc, ← pow_add, Nat.mul_assoc, ← pow_add]
      congr 2
      omega
    · have : q * 2 ^ (52 - q.log2) ≤ 2 ^ (q.log2 + 1) * 2 ^ (52 - q.log2) := Nat.mul_le_mul_right _ hl2.le
      rw [← pow_add, show q.log2 + 1 + (52 - q.log2) = 52 + 1 by omega] at this
      exact this
    · right
      have : 2 ^ q.log2 * 2 ^ (52 - q.log2) ≤ q * 2 ^ (52 - q.log2) := Nat.mul_le_mul_right _ hl1
      rw [← pow_add, show q.log2 + (52 - q.log2) = 52 by omega] at this
      exact this
  · have : q * 2 ^ (52 - q.log2) < 2 ^ (q.log2 + 1) * 2 ^ (52 - q.log2) := Nat.mul_lt_mul_of_pos_right hl2 (Nat.two_pow_pos _)
    rw [← pow_add, show q.log2 + 1 + (52 - q.log2) = 53 by omega] at this
    have h2 : (k + 925 - (52 - q.log2)) * 2 ^ 52 ≤ (2 ^ 8 + 925) * 2 ^ 52 := Nat.mul_le_mul_right _ (by omega)
    have h3 : inf64 = (2 ^ 8 + 925) * 2 ^ 52 + 866 * 2 ^ 52 := by decide
    have h4 : 2 ^ 53 ≤ 866 * 2 ^ 52 := by decide
    rw [h3]
    exact Nat.add_lt_add_of_le_of_lt h2 (lt_of_lt_of_le this h4)
  · intro _
    have : 2 ^ q.log2 * 2 ^ (52 - q.log2) ≤ q * 2 ^ (52 - q.log2) := Nat.mul_le_mul_right _ hl1
    rw [← pow_add, show q.log2 + (52 - q.log2) = 52 by omega] at this
    omega

/-- `widen` of a finite value is finite, of the same sign and of the same value in units, and normal (R80). -/
theorem widen_spec (d : NanDraw) {x : F32} (h : isFinite32 x = true) :
    isFinite64 (widen d x) = true ∧ sign64 (widen d x) = sign32 x ∧
      units64 (widen d x) = units32 x * unitsPerUnit32 ∧ (mag32 x ≠ 0 → 2 ^ 52 ≤ mag64 (widen d x)) := by
  obtain ⟨M, h1, h2, h3⟩ := exists_wide (mag32 x) (by simpa [isFinite32] using h)
  rw [widen_of_finite h]
  have hm : roundNearest 52 inf64 (units32 x * unitsPerUnit32) 1 = M := by
    rw [roundNearest_exact (m := M) (by decide) Nat.one_pos (by rw [h1, units32]; simp), min_eq_right h2.le]
  refine ⟨by simp [isFinite64, hm, h2], by simp, by rw [units64, mag64_round64, hm, h1]; rfl, fun hx => ?_⟩
  rw [mag64_round64, hm]
  exact h3 hx

theorem narrow_widen (d d' : NanDraw) {x : F32} (h : isNaN32 x = false) : narrow d (widen d' x) = x := by
  by_cases hi : isInf32 x = true
  · have : widen d' x = pack64 (sign32 x) inf64 := by simp [widen, h, hi]
    rw [this, narrow_of_inf (isInf64_pack _), sign64_pack_inf]
    have hm : mag32 x = inf32 := by simpa [isInf32] using hi
    rw [← hm, pack32_sign_mag]
  · have hf : isFinite32 x = true := finite32_iff.2 ⟨h, by simpa using hi⟩
    obtain ⟨h1, h2, h3, -⟩ := widen_spec d' hf
    rw [narrow_of_finite h1, h2, h3]
    exact round32_exact h unitsPerUnit32_pos rfl

theorem isFinite64_of_mag_zero {z : F64} (h : mag64 z = 0) : isFinite64 z = true := by simp [isFinite64, h, inf64]

theorem mag64_fmul_zero {d : NanDraw} {z x : F64} (hz : mag64 z = 0) (hx : isFinite64 x = true) : mag64 (fmul d z x) = 0 := by
  rw [fmul_zero hz hx, mag64_pack_zero]

/-- The sum of two zeros is a zero. -/
theorem mag64_fadd_zeros {d : NanDraw} {x z : F64} (hx : mag64 x = 0) (hz : mag64 z = 0) : mag64 (fadd d x z) = 0 := by
  rw [fadd_of_finite (isFinite64_of_mag_zero hx) (isFinite64_of_mag_zero hz), signed64_eq_zero.2 hx, signed64_eq_zero.2 hz]
  simp [mag64_pack_zero]

theorem units32_le {x y : F32} : units32 x ≤ units32 y ↔ mag32 x ≤ mag32 y := (unitsOf_strictMono 23).le_iff_le

end Sys2Proof.Machine
end

