-- ==== Sys2Proof/Laws/Elementary.lean ====
section
/-! SUPPORT. Angles and powers of 10 in fixed point, and what an enclosure of a real result gives: every magnitude
between its brackets is faithful, and its nearest magnitude is nearest (R76, R77, R78). -/

namespace Sys2Proof.Machine

theorem units_pow : (unitsPerOne : ℝ) = 2 ^ 1074 := by unfold unitsPerOne; rw [Nat.cast_pow, Nat.cast_ofNat]

/-- Fixed-point values have 206 bits below the unit of binary64. -/
theorem fixOne_units : fixOne = 2 ^ 206 * unitsPerOne := by
  rw [fixOne, fixBits, units_pow, ← pow_add]

theorem abs_value64 (a : F64) : |(value64 a : ℝ)| = units64 a / unitsPerOne := by
  rw [value64_eq, abs_div, abs_mul, Nat.abs_cast, Nat.abs_cast]
  cases sign64 a <;> simp [signum]

theorem units64_lt_of_finite {a : F64} (h : isFinite64 a = true) : units64 a < 2 ^ 2098 := by
  have h1 : mag64 a < inf64 := by simpa [isFinite64] using h
  have h2 := unitsOf_strictMono 52 h1
  rw [units64]
  refine h2.trans_le ?_
  decide +kernel

theorem pi_scaled : |(piFix : ℝ) / 2 ^ 2380 - Real.pi| ≤ 3 / 2 ^ 2380 := by
  have h := piFix_near
  have hp : (0 : ℝ) < 2 ^ 2380 := by positivity
  generalize (2 : ℝ) ^ 2380 = P at *
  rw [show (piFix : ℝ) / P - Real.pi = (piFix - P * Real.pi) / P by field_simp, abs_div, abs_of_pos hp]
  exact div_le_div_of_nonneg_right h hp.le

/-- An angle of `u` units is `n` quarter turns and a remainder of at most half a quarter turn, off by at most 3. -/
theorem quarterTurns_near {u : Nat} (hu : u < 2 ^ 2098) :
    |((quarterTurns u).2 : ℝ) / fixOne - ((u : ℝ) / unitsPerOne - (quarterTurns u).1 * (Real.pi / 2))| ≤ 3 / fixOne ∧
      |((quarterTurns u).2 : ℝ) / fixOne| ≤ 7 / 8 := by
  have hpos : 0 < piFix := by decide +kernel
  have hbig : 2 ^ 2381 ≤ piFix ∧ piFix ≤ 2 ^ 2382 ∧ piFix * 5 ≤ 2 ^ 2384 := by decide +kernel
  have hbits : fixBits - 1074 + 1100 = 1306 := rfl
  simp only [quarterTurns, hbits]
  set a := u * 2 ^ 1306 with ha
  set n := (4 * a + piFix) / (2 * piFix) with hn
  have h1 : n * (2 * piFix) ≤ 4 * a + piFix := Nat.div_mul_le_self _ _
  have h2 : 4 * a + piFix < (n + 1) * (2 * piFix) := by
    rw [hn, Nat.add_mul, Nat.one_mul]; exact Nat.lt_div_mul_add (by omega)
  have hnu : n ≤ 2 ^ 1030 := by
    rw [hn]
    refine Nat.div_le_of_le_mul ?_
    have : a < 2 ^ 3404 := by
      rw [ha, show (2 : Nat) ^ 3404 = 2 ^ 2098 * 2 ^ 1306 by rw [← pow_add]]
      exact Nat.mul_lt_mul_of_pos_right hu (by positivity)
    have e : 4 * 2 ^ 3404 + 2 ^ 2382 ≤ 2 * 2 ^ 2381 * 2 ^ 1030 := by decide +kernel
    have : 2 * 2 ^ 2381 * 2 ^ 1030 ≤ 2 * piFix * 2 ^ 1030 := Nat.mul_le_mul_right _ (Nat.mul_le_mul_left _ hbig.1)
    omega
  have hr := abs_floor_div_sub (2 * (a : Int) - n * piFix) (b := 2 ^ 1101) (by norm_num)
  generalize ((2 * (a : Int) - n * piFix) / 2 ^ 1101 : Int) = r at hr ⊢
  have hF := fixOne_pos
  have hP := pi_scaled
  have e1 : ((2 * (a : Int) - n * piFix : Int) : ℝ) / ((2 ^ 1101 : Int) : ℝ)
      = fixOne * ((u : ℝ) / unitsPerOne - n * ((piFix : ℝ) / 2 ^ 2380 / 2)) := by
    rw [ha, fixOne, fixBits, units_pow]
    have p1 : (2 : ℝ) ^ 1306 = 2 ^ 1100 * 2 ^ 206 := by rw [← pow_add]
    have p2 : (2 : ℝ) ^ 2380 = 2 ^ 1280 * 2 ^ 1100 := by rw [← pow_add]
    have p3 : (2 : ℝ) ^ 1280 = 2 ^ 206 * 2 ^ 1074 := by rw [← pow_add]
    have p4 : (2 : ℝ) ^ 1101 = 2 * 2 ^ 1100 := by rw [← pow_succ']
    push_cast
    rw [p1, p2, p3, p4]
    have q1 : (2 : ℝ) ^ 1100 ≠ 0 := by positivity
    have q2 : (2 : ℝ) ^ 206 ≠ 0 := by positivity
    have q3 : (2 : ℝ) ^ 1074 ≠ 0 := by positivity
    generalize (2 : ℝ) ^ 1100 = A at *
    generalize (2 : ℝ) ^ 206 = B at *
    generalize (2 : ℝ) ^ 1074 = C at *
    field_simp
  rw [e1] at hr
  have hn' : (n : ℝ) ≤ 2 ^ 1030 := by exact_mod_cast hnu
  have hF2 : fixOne * (2 ^ 1030 * (3 / 2 ^ 2380 / 2)) ≤ 1 := by
    rw [fixOne, fixBits]
    have p2 : (2 : ℝ) ^ 2380 = 2 ^ 1280 * 2 ^ 1030 * 2 ^ 70 := by rw [← pow_add, ← pow_add]
    rw [p2]
    have q1 : (2 : ℝ) ^ 1280 ≠ 0 := by positivity
    have q2 : (2 : ℝ) ^ 1030 ≠ 0 := by positivity
    generalize (2 : ℝ) ^ 1280 = A at *
    generalize (2 : ℝ) ^ 1030 = B at *
    field_simp
    norm_num
  have key : |fixOne * ((u : ℝ) / unitsPerOne - n * ((piFix : ℝ) / 2 ^ 2380 / 2))
      - fixOne * ((u : ℝ) / unitsPerOne - n * (Real.pi / 2))| ≤ 1 := by
    rw [← mul_sub, show (u : ℝ) / unitsPerOne - n * ((piFix : ℝ) / 2 ^ 2380 / 2) - ((u : ℝ) / unitsPerOne - n * (Real.pi / 2))
      = -(n * (((piFix : ℝ) / 2 ^ 2380 - Real.pi) / 2)) by ring, abs_mul, abs_of_pos hF, abs_neg, abs_mul, Nat.abs_cast,
      abs_div, abs_of_pos (by norm_num : (0 : ℝ) < 2)]
    refine le_trans (mul_le_mul_of_nonneg_left ?_ hF.le) hF2
    exact mul_le_mul hn' (div_le_div_of_nonneg_right hP (by norm_num)) (by positivity) (by positivity)
  have both : |(r : ℝ) - fixOne * ((u : ℝ) / unitsPerOne - n * (Real.pi / 2))| ≤ 2 :=
    (abs_sub_le _ _ _).trans ((add_le_add hr key).trans (by norm_num))
  refine ⟨?_, ?_⟩
  · rw [show (r : ℝ) / fixOne - ((u : ℝ) / unitsPerOne - n * (Real.pi / 2))
      = (r - fixOne * ((u : ℝ) / unitsPerOne - n * (Real.pi / 2))) / fixOne by field_simp, abs_div, abs_of_pos hF]
    exact div_le_div_of_nonneg_right (by linarith) hF.le
  · -- |2a - n piFix| ≤ piFix / 2
    have hb : |(u : ℝ) / unitsPerOne - n * ((piFix : ℝ) / 2 ^ 2380 / 2)| ≤ 13 / 16 := by
      have e2 : (2 : ℝ) ^ 2380 * ((u : ℝ) / unitsPerOne) = a := by
        rw [ha, units_pow, show (2 : ℝ) ^ 2380 = 2 ^ 1306 * 2 ^ 1074 by rw [← pow_add]]
        have q3 : (2 : ℝ) ^ 1074 ≠ 0 := by positivity
        push_cast
        generalize (2 : ℝ) ^ 1306 = A at *
        generalize (2 : ℝ) ^ 1074 = B at *
        field_simp
      have hp : (0 : ℝ) < 2 ^ 2380 := by positivity
      have h1' : (n : ℝ) * (2 * piFix) ≤ 4 * a + piFix := by exact_mod_cast h1
      have h2' : 4 * (a : ℝ) + piFix < (n + 1) * (2 * piFix) := by exact_mod_cast h2
      have h3' : (piFix : ℝ) * 5 ≤ 16 * 2 ^ 2380 := by
        have : ((piFix * 5 : Nat) : ℝ) ≤ ((2 ^ 2384 : Nat) : ℝ) := Nat.cast_le.2 hbig.2.2
        rw [show (16 : ℝ) * 2 ^ 2380 = 2 ^ 2384 by rw [show (16 : ℝ) = 2 ^ 4 by norm_num, ← pow_add]]
        push_cast at this
        exact this
      rw [show (u : ℝ) / unitsPerOne - n * ((piFix : ℝ) / 2 ^ 2380 / 2)
        = (a - n * piFix / 2) / 2 ^ 2380 by rw [← e2]; field_simp, abs_div, abs_of_pos hp, div_le_iff₀ hp, abs_le]
      generalize (2 : ℝ) ^ 2380 = P at *
      generalize (piFix : ℝ) = p at *
      constructor <;> linarith
    have h5 : |(r : ℝ) / fixOne - ((u : ℝ) / unitsPerOne - n * ((piFix : ℝ) / 2 ^ 2380 / 2))| ≤ 1 / fixOne := by
      generalize (u : ℝ) / unitsPerOne - n * ((piFix : ℝ) / 2 ^ 2380 / 2) = X at *
      rw [show (r : ℝ) / fixOne - X = (r - fixOne * X) / fixOne by field_simp, abs_div, abs_of_pos hF]
      exact div_le_div_of_nonneg_right hr hF.le
    have h6 : 1 / fixOne ≤ 1 / 16 := by
      refine one_div_le_one_div_of_le (by norm_num) ?_
      rw [fixOne, show (16 : ℝ) = 2 ^ 4 by norm_num]
      exact pow_le_pow_right₀ (by norm_num) (by decide)
    have := abs_sub_abs_le_abs_sub ((r : ℝ) / fixOne) ((u : ℝ) / unitsPerOne - n * ((piFix : ℝ) / 2 ^ 2380 / 2))
    linarith

/-- The cosine and sine of a sum with whole quarter turns. -/
theorem cos_sin_quarter (n : Nat) (t : ℝ) :
    (Real.cos (t + n * (Real.pi / 2)), Real.sin (t + n * (Real.pi / 2))) =
      match n % 4 with
      | 0 => (Real.cos t, Real.sin t)
      | 1 => (-Real.sin t, Real.cos t)
      | 2 => (-Real.cos t, -Real.sin t)
      | _ => (Real.sin t, -Real.cos t) := by
  have h := Nat.div_add_mod n 4
  have e : t + n * (Real.pi / 2) = (t + (n % 4 : Nat) * (Real.pi / 2)) + (n / 4 : Nat) * (2 * Real.pi) := by
    have : (n : ℝ) = 4 * (n / 4 : Nat) + (n % 4 : Nat) := by exact_mod_cast h.symm
    rw [this]; ring
  rw [e, Real.cos_add_nat_mul_two_pi, Real.sin_add_nat_mul_two_pi]
  have hlt := Nat.mod_lt n (by norm_num : 4 > 0)
  generalize n % 4 = m at hlt ⊢
  interval_cases m
  · simp
  · simp [Real.cos_add_pi_div_two, Real.sin_add_pi_div_two]
  · simp [show (2 : ℝ) * (Real.pi / 2) = Real.pi by ring]
  · rw [show t + ((3 : Nat) : ℝ) * (Real.pi / 2) = t + Real.pi / 2 + Real.pi by push_cast; ring]
    simp [Real.cos_add_pi_div_two, Real.sin_add_pi_div_two]

/-- `cosSinUnits` is off by at most 2^15 (R76). -/
theorem cosSinUnits_near {u : Nat} (hu : u < 2 ^ 2098) :
    |((cosSinUnits u).1 : ℝ) - fixOne * Real.cos (u / unitsPerOne)| ≤ 2 ^ 15 ∧
      |((cosSinUnits u).2 : ℝ) - fixOne * Real.sin (u / unitsPerOne)| ≤ 2 ^ 15 := by
  have hF := fixOne_pos
  obtain ⟨h1, h2⟩ := quarterTurns_near hu
  obtain ⟨hc, hs⟩ := cosSinFix_near h2
  rw [cosSinUnits]
  generalize cosSinFix (quarterTurns u).2 = cs at hc hs ⊢
  generalize (quarterTurns u).1 = n at *
  generalize ((quarterTurns u).2 : ℝ) / fixOne = t' at *
  set t := (u : ℝ) / unitsPerOne - n * (Real.pi / 2) with ht
  have hx : (u : ℝ) / unitsPerOne = t + n * (Real.pi / 2) := by rw [ht]; ring
  have lip : ∀ {f : ℝ → ℝ}, |f t' - f t| ≤ |t' - t| → |fixOne * f t' - fixOne * f t| ≤ 3 := by
    intro f h
    rw [← mul_sub, abs_mul, abs_of_pos hF]
    refine (mul_le_mul_of_nonneg_left (h.trans h1) hF.le).trans ?_
    rw [mul_div_cancel₀ _ hF.ne']
  have c : |(cs.1 : ℝ) - fixOne * Real.cos t| ≤ 2 ^ 15 := by
    have := lip (f := Real.cos) (Real.abs_cos_sub_cos_le t' t)
    exact (abs_sub_le _ _ _).trans (by linarith)
  have s : |(cs.2 : ℝ) - fixOne * Real.sin t| ≤ 2 ^ 15 := by
    have := lip (f := Real.sin) (Real.abs_sin_sub_sin_le t' t)
    exact (abs_sub_le _ _ _).trans (by linarith)
  have q := cos_sin_quarter n t
  rw [← hx] at q
  have neg : ∀ {v : Int} {x : ℝ}, |(v : ℝ) - fixOne * x| ≤ 2 ^ 15 → |((-v : Int) : ℝ) - fixOne * -x| ≤ 2 ^ 15 := by
    intro v x h
    rw [show ((-v : Int) : ℝ) - fixOne * -x = -(v - fixOne * x) by push_cast; ring, abs_neg]
    exact h
  have hm := Nat.mod_lt n (by norm_num : 4 > 0)
  rw [turnQuarters]
  generalize n % 4 = m at hm q ⊢
  obtain rfl | rfl | rfl | rfl : m = 0 ∨ m = 1 ∨ m = 2 ∨ m = 3 := by omega
  all_goals obtain ⟨q1, q2⟩ := Prod.mk.inj q; rw [q1, q2]
  · exact ⟨c, s⟩
  · exact ⟨neg s, c⟩
  · exact ⟨neg c, neg s⟩
  · exact ⟨s, neg c⟩


theorem fixOne_ge : (2 : ℝ) ^ 40 ≤ fixOne := by
  rw [fixOne]
  exact pow_le_pow_right₀ (by norm_num) (by decide)

/-- `y · ln 10` in fixed point, for `y` of `u` units. -/
theorem pow10_size {u l : Nat} (hl : |(l : ℝ) - fixOne * Real.log 10| ≤ 3) (hu : u ≤ 400 * unitsPerOne) :
    |((u * 2 ^ (fixBits - 1074) * l / 2 ^ fixBits : Nat) : ℝ) - fixOne * ((u : ℝ) / unitsPerOne * Real.log 10)| ≤ 1201 := by
  have hU : (0 : ℝ) < unitsPerOne := Nat.cast_pos.2 unitsPerOne_pos
  have hsize := abs_floor_div_sub ((u * 2 ^ (fixBits - 1074) * l : Nat) : Int) (b := 2 ^ fixBits) (by positivity)
  have hcast : ∀ W : Nat, (((W : Int) / 2 ^ fixBits : Int) : ℝ) = ((W / 2 ^ fixBits : Nat) : ℝ) := fun W => by
    rw [← Int.cast_natCast (W / 2 ^ fixBits), Int.natCast_ediv, Nat.cast_pow, Nat.cast_ofNat]
  rw [hcast] at hsize
  have hY0 : (0 : ℝ) ≤ (u : ℝ) / unitsPerOne := by positivity
  have hY4 : (u : ℝ) / unitsPerOne ≤ 400 := by
    rw [div_le_iff₀ hU]; exact_mod_cast hu
  have e1 : (((u * 2 ^ (fixBits - 1074) * l : Nat) : Int) : ℝ) / ((2 ^ fixBits : Int) : ℝ) = (u : ℝ) / unitsPerOne * l := by
    rw [Int.cast_natCast, Nat.cast_mul, Nat.cast_mul, Nat.cast_pow, Int.cast_pow, Nat.cast_ofNat, Int.cast_ofNat]
    rw [show (2 : ℝ) ^ fixBits = 2 ^ (fixBits - 1074) * unitsPerOne from fixOne_units]
    have : (2 : ℝ) ^ (fixBits - 1074) ≠ 0 := by positivity
    generalize (2 : ℝ) ^ (fixBits - 1074) = P at *
    field_simp
  rw [e1] at hsize
  generalize (u : ℝ) / unitsPerOne = Y at *
  have : |Y * l - fixOne * (Y * Real.log 10)| ≤ 1200 := by
    rw [show Y * l - fixOne * (Y * Real.log 10) = Y * (l - fixOne * Real.log 10) by ring, abs_mul, abs_of_nonneg hY0]
    nlinarith [abs_nonneg ((l : ℝ) - fixOne * Real.log 10)]
  exact (abs_sub_le _ _ _).trans ((add_le_add hsize this).trans (by norm_num))

theorem exp_lipschitz {a b c : ℝ} (ha : a ≤ 1) (hb : b ≤ 1) (h : |a - b| ≤ c) : |Real.exp a - Real.exp b| ≤ 3 * c := by
  have e3 : Real.exp 1 ≤ 3 := by linarith [Real.exp_one_lt_d9]
  have key : ∀ {p q : ℝ}, p ≤ 1 → q ≤ p → Real.exp p - Real.exp q ≤ 3 * (p - q) := by
    intro p q hp hq
    have h1 := Real.add_one_le_exp (q - p)
    have h2 : Real.exp q = Real.exp p * Real.exp (q - p) := by rw [← Real.exp_add]; ring_nf
    have h3 : Real.exp p ≤ 3 := (Real.exp_le_exp.2 hp).trans e3
    have h4 := Real.exp_pos p
    rw [h2]
    nlinarith
  rcases le_total b a with hab | hab
  · rw [abs_of_nonneg (sub_nonneg.2 (Real.exp_le_exp.2 hab))]
    rw [abs_of_nonneg (sub_nonneg.2 hab)] at h
    linarith [key ha hab]
  · rw [abs_sub_comm, abs_of_nonneg (sub_nonneg.2 (Real.exp_le_exp.2 hab))]
    rw [abs_sub_comm, abs_of_nonneg (sub_nonneg.2 hab)] at h
    linarith [key hb hab]

/-- `10^y = 2^k · e^r`: `expFix`'s part of it, with `t` for `y · ln 10` and `l` for `ln 2`. -/
theorem pow10_scaled {y : ℝ} {l t k : Int} (hl : |(l : ℝ) - fixOne * Real.log 2| ≤ 3) (hy : |y| ≤ 400)
    (ht : |(t : ℝ) - fixOne * (y * Real.log 10)| ≤ 1201) (hk : k = (2 * t + l) / (2 * l)) :
    -1400 ≤ k ∧ |((expFix (t - k * l) : Int) : ℝ) - fixOne * ((10 : ℝ) ^ y / (2 : ℝ) ^ k)| ≤ 2 ^ 15 ∧
      (2 : ℝ) ^ k ≤ 4 * (10 : ℝ) ^ y := by
  have hF := fixOne_pos
  have hFge := fixOne_ge
  have l2a := Real.log_two_gt_d9
  have l2b := Real.log_two_lt_d9
  have l10 : Real.log 10 ≤ 10 / 3 * Real.log 2 := by
    have : 3 * Real.log 10 ≤ 10 * Real.log 2 := by
      rw [show (3 : ℝ) = ((3 : Nat) : ℝ) by norm_num, show (10 : ℝ) * Real.log 2 = ((10 : Nat) : ℝ) * Real.log 2 by norm_num,
        ← Real.log_pow, ← Real.log_pow]
      exact Real.log_le_log (by norm_num) (by norm_num)
    linarith
  have l10pos : 0 < Real.log 10 := Real.log_pos (by norm_num)
  have hexp : (10 : ℝ) ^ y / (2 : ℝ) ^ k = Real.exp (y * Real.log 10 - k * Real.log 2) := by
    rw [Real.exp_sub, mul_comm y, mul_comm (k : ℝ), ← Real.rpow_def_of_pos (by norm_num), ← Real.rpow_def_of_pos (by norm_num),
      Real.rpow_intCast]
  have hFl2 : 2 ^ 40 * (69 / 100) ≤ fixOne * Real.log 2 :=
    mul_le_mul hFge (by linarith) (by norm_num) hF.le
  have hlpos : (0 : ℝ) < l := by
    have := (abs_le.1 hl).1
    linarith
  have hlpos' : (0 : Int) < l := by exact_mod_cast hlpos
  have f1 : k * (2 * l) ≤ 2 * t + l := by rw [hk]; exact Int.ediv_mul_le _ (by omega)
  have f2 : 2 * t + l < (k + 1) * (2 * l) := by rw [hk]; exact Int.lt_ediv_add_one_mul_self _ (by omega)
  have f1' : (k : ℝ) * (2 * l) ≤ 2 * t + l := by exact_mod_cast f1
  have f2' : 2 * (t : ℝ) + l < (k + 1) * (2 * l) := by exact_mod_cast f2
  clear f1 f2 hk
  -- the size of k
  have hyl : |y * Real.log 10| ≤ 4000 / 3 * Real.log 2 := by
    rw [abs_mul, abs_of_pos l10pos]
    exact (mul_le_mul hy l10 l10pos.le (by norm_num)).trans (by linarith)
  obtain ⟨ha, hb⟩ := abs_le.1 hl
  obtain ⟨hc, hd⟩ := abs_le.1 ht
  obtain ⟨hyl1, hyl2⟩ := abs_le.1 hyl
  have hFy1 := mul_le_mul_of_nonneg_left hyl1 hF.le
  have hFy2 := mul_le_mul_of_nonneg_left hyl2 hF.le
  have hk1 : (k : ℝ) ≤ 1400 := by
    refine le_of_not_gt fun hcon => ?_
    have := mul_le_mul_of_nonneg_right hcon.le (by linarith : 0 ≤ 2 * (l : ℝ))
    have e : fixOne * (4000 / 3 * Real.log 2) = 4000 / 3 * (fixOne * Real.log 2) := by ring
    rw [e] at hFy2
    norm_num at hFl2
    linarith
  have hk2 : (-1400 : ℝ) ≤ k := by
    refine le_of_not_gt fun hcon => ?_
    have := mul_lt_mul_of_pos_right hcon (by linarith : 0 < 2 * (l : ℝ))
    have e : fixOne * -(4000 / 3 * Real.log 2) = -(4000 / 3 * (fixOne * Real.log 2)) := by ring
    rw [e] at hFy1
    norm_num at hFl2
    linarith
  -- the remainder
  have hr : |((t - k * l : Int) : ℝ) - fixOne * (y * Real.log 10 - k * Real.log 2)| ≤ 5401 := by
    rw [show ((t - k * l : Int) : ℝ) - fixOne * (y * Real.log 10 - k * Real.log 2)
      = (t - fixOne * (y * Real.log 10)) - k * (l - fixOne * Real.log 2) by push_cast; ring]
    refine (abs_sub _ _).trans ?_
    rw [abs_mul]
    have : |(k : ℝ)| ≤ 1400 := abs_le.2 ⟨hk2, hk1⟩
    exact (add_le_add ht (mul_le_mul this hl (abs_nonneg _) (by norm_num))).trans (by norm_num)
  have hr2 : |((t - k * l : Int) : ℝ)| ≤ fixOne * (1 / 2) := by
    have : (l : ℝ) ≤ fixOne * (7 / 10) := by
      have : fixOne * Real.log 2 ≤ fixOne * (698 / 1000) := mul_le_mul_of_nonneg_left (by linarith) hF.le
      norm_num at hFge
      linarith
    rw [abs_le]
    push_cast
    constructor <;> linarith
  generalize (t - k * l : Int) = r at hr hr2 ⊢
  have hX : |(r : ℝ) / fixOne| ≤ 1 / 2 := by
    rw [abs_div, abs_of_pos hF, div_le_iff₀ hF]; linarith
  have hz : |(r : ℝ) / fixOne - (y * Real.log 10 - k * Real.log 2)| ≤ 5401 / fixOne := by
    generalize y * Real.log 10 - k * Real.log 2 = z at hr ⊢
    rw [show (r : ℝ) / fixOne - z = (r - fixOne * z) / fixOne by field_simp, abs_div, abs_of_pos hF]
    exact div_le_div_of_nonneg_right hr hF.le
  have hsmall : 5401 / fixOne ≤ 1 / 4 := by
    rw [div_le_iff₀ hF]; norm_num at hFge; linarith
  have h1 := expFix_near (x := r) (hX.trans (by norm_num))
  rw [hexp]
  generalize y * Real.log 10 - k * Real.log 2 = z at hz hexp ⊢
  obtain ⟨x1, x2⟩ := abs_le.1 hX
  obtain ⟨z1, z2⟩ := abs_le.1 hz
  have h2 := exp_lipschitz (by linarith) (by linarith) hz
  refine ⟨by exact_mod_cast hk2, ?_, ?_⟩
  · have h3 : |fixOne * Real.exp (r / fixOne) - fixOne * Real.exp z| ≤ 16203 := by
      rw [← mul_sub, abs_mul, abs_of_pos hF]
      refine (mul_le_mul_of_nonneg_left h2 hF.le).trans ?_
      rw [show fixOne * (3 * (5401 / fixOne)) = 16203 by field_simp; norm_num]
    exact (abs_sub_le _ _ _).trans (by linarith)
  · have h2k : (0 : ℝ) < 2 ^ k := by positivity
    rw [div_eq_iff h2k.ne'] at hexp
    rw [hexp]
    have : 1 / 4 ≤ Real.exp z := by
      have := Real.add_one_le_exp z
      linarith
    have := mul_le_mul_of_nonneg_right this h2k.le
    linarith

/-! ### From an enclosure to a faithful result -/

/-- The magnitude just at or above `num/den` units, before any cap at infinity. -/
def ceilMag (fb num den : Nat) : Nat :=
  spacingExp fb num den * 2 ^ fb + (num + den * 2 ^ spacingExp fb num den - 1) / (den * 2 ^ spacingExp fb num den)

theorem roundUp_eq (fb inf num den : Nat) : roundUp fb inf num den = min inf (ceilMag fb num den) := rfl

theorem ceilMag_eq (fb : Nat) {num den : Nat} (hd : 0 < den) :
    ceilMag fb num den = floorMag fb num den + if num = unitsOf fb (floorMag fb num den) * den then 0 else 1 := by
  obtain ⟨h1, h2⟩ := spacingExp_spec (fb := fb) (num := num) (den := den)
  unfold ceilMag floorMag
  generalize hk : spacingExp fb num den = k at h1 h2 ⊢
  have hpos : 0 < den * 2 ^ k := Nat.mul_pos hd (Nat.two_pow_pos k)
  rw [unitsOf_scaled h1.le h2, Nat.add_assoc]
  congr 1
  have e : num / (den * 2 ^ k) * 2 ^ k * den = (den * 2 ^ k) * (num / (den * 2 ^ k)) := by ring
  rw [e]
  generalize den * 2 ^ k = w at hpos ⊢
  have h3 := Nat.div_add_mod num w
  have h4 := Nat.mod_lt num hpos
  generalize num / w = q at *
  split
  · rename_i h
    have h0 : num % w = 0 := by omega
    rw [show num + w - 1 = (w - 1) + w * q by omega, Nat.add_mul_div_left _ _ hpos, Nat.div_eq_of_lt (by omega)]
    omega
  · rename_i h
    rw [show num + w - 1 = (num % w - 1) + w * (q + 1) by rw [Nat.mul_add]; omega, Nat.add_mul_div_left _ _ hpos,
      Nat.div_eq_of_lt (by omega)]
    omega

/-- It is at most `m` just when the value is at most that of `m`. -/
theorem ceilMag_le_iff {fb num den m : Nat} (hd : 0 < den) : ceilMag fb num den ≤ m ↔ num ≤ unitsOf fb m * den := by
  rw [ceilMag_eq fb hd]
  obtain ⟨a, b⟩ := floorMag_bounds fb (num := num) hd
  have hm := unitsOf_strictMono fb
  generalize floorMag fb num den = f at *
  split
  · rename_i h
    rw [Nat.add_zero]
    constructor
    · intro hf; rw [h]; exact Nat.mul_le_mul_right _ (hm.monotone hf)
    · intro hn
      rw [h] at hn
      exact hm.le_iff_le.1 (Nat.le_of_mul_le_mul_right hn hd)
  · rename_i h
    constructor
    · intro hf
      exact b.le.trans (Nat.mul_le_mul_right _ (hm.monotone hf))
    · intro hn
      refine hm.lt_iff_lt.1 (Nat.lt_of_mul_lt_mul_right (a := den) (by omega))

theorem le_floorMag_iff {fb num den m : Nat} (hd : 0 < den) : m ≤ floorMag fb num den ↔ unitsOf fb m * den ≤ num := by
  obtain ⟨a, b⟩ := floorMag_bounds fb (num := num) hd
  have hm := unitsOf_strictMono fb
  constructor
  · intro h; exact (Nat.mul_le_mul_right _ (hm.monotone h)).trans a
  · intro h; exact Nat.lt_succ_iff.1 (hm.lt_iff_lt.1 (Nat.lt_of_mul_lt_mul_right (h.trans_lt b)))

/-- The nearest magnitude lies between the bracketing ones. -/
theorem Enclosure.nearest_between {e : Enclosure} (hd : 0 < e.den) : e.below ≤ e.nearest ∧ e.nearest ≤ e.above := by
  have h1 : e.below ≤ e.nearest := by
    rw [below, nearest, roundDown_eq, roundNearest_eq (by decide) hd]
    refine min_le_min le_rfl (le_trans (floorMag_mono (by omega) hd ?_) (Nat.le_add_right _ _))
    exact Nat.mul_le_mul (Nat.sub_le _ _) (Nat.le_add_right _ _)
  refine ⟨h1, ?_⟩
  rw [above]
  split
  · exact roundNearest_le_inf _ _ _ _
  · rename_i hlt
    rw [nearest, roundUp_eq, roundNearest_eq (by decide) hd]
    refine min_le_min le_rfl ?_
    have hd' : 0 < e.den - e.denErr := by omega
    have h2 : ceilMag 52 e.num e.den ≤ ceilMag 52 (e.num + e.numErr) (e.den - e.denErr) := by
      rw [ceilMag_le_iff hd]
      have h3 := (ceilMag_le_iff (fb := 52) (num := e.num + e.numErr) hd').1 le_rfl
      refine le_trans (Nat.le_add_right _ e.numErr) (h3.trans (Nat.mul_le_mul_left _ (Nat.sub_le _ _)))
    refine le_trans ?_ h2
    rw [ceilMag_eq 52 hd]
    refine Nat.add_le_add_left ?_ _
    have h4 := unitsOf_lt_succ 52 (floorMag 52 e.num e.den)
    generalize floorMag 52 e.num e.den = f at *
    split
    · rename_i h
      have : 2 * e.num < (unitsOf 52 f + unitsOf 52 (f + 1)) * e.den := by rw [h]; nlinarith
      unfold roundStep
      simp only
      rw [if_neg (by omega), if_neg (by omega)]
    · exact roundStep_le_one _ _ _ _

/-- The least value an enclosure leaves possible. -/
noncomputable def Enclosure.low (e : Enclosure) : ℝ := ((e.num - e.numErr : Nat) : ℝ) / ((e.den + e.denErr : Nat) : ℝ) / unitsPerOne

/-- The greatest value an enclosure leaves possible. -/
noncomputable def Enclosure.high (e : Enclosure) : ℝ := ((e.num + e.numErr : Nat) : ℝ) / ((e.den - e.denErr : Nat) : ℝ) / unitsPerOne

theorem value64_pack {s : Bool} {m : Nat} (h : m ≤ inf64) : (value64 (pack64 s m) : ℝ) = signum s * (unitsOf 52 m / unitsPerOne) := by
  have hm : m < 2 ^ 63 := lt_of_le_of_lt h inf64_lt
  rw [value64_eq, sign64_pack hm, units64, mag64_pack hm]
  ring

theorem isNaN64_pack {s : Bool} {m : Nat} (h : m ≤ inf64) : isNaN64 (pack64 s m) = false := by
  have hm : m < 2 ^ 63 := lt_of_le_of_lt h inf64_lt
  simpa [isNaN64, mag64_pack hm] using h

/-- A value that is not negative is that of its magnitude. -/
theorem value64_of_nonneg {c : F64} (h : (0 : ℝ) ≤ value64 c) : (value64 c : ℝ) = unitsOf 52 (mag64 c) / unitsPerOne := by
  rw [← abs_of_nonneg h, abs_value64]
  rfl

theorem signum_mul_le {x b : ℝ} (h : |x| ≤ b) (s : Bool) : signum s * x ≤ b := by
  obtain ⟨h1, h2⟩ := abs_le.1 h
  cases s <;> simp [signum] <;> linarith


/-! ### The nearest result -/

/-- A nearest magnitude kept between two bounds: nothing is nearer to `y` than it, by more than twice what `Y` is off. -/
theorem clamp_nearest {V : Nat → ℝ} (hV : StrictMono V) (h0 : V 0 = 0) {m least most : Nat} {Y y η : ℝ}
    (hnear : ∀ k, |V m - Y| ≤ |V k - Y|) (hY : 0 ≤ Y) (hYy : |Y - y| ≤ η) (hleast : ∀ k < least, V k + V least ≤ 2 * y)
    (hmost : m ≤ most ∨ ∀ k > most, 2 * y ≤ V k + V most) (hlm : least ≤ most) (k : Nat) :
    |V (max least (min most m)) - y| ≤ |V k - y| + 2 * η ∧ |V (max least (min most m)) - y| ≤ |-V k - y| + 2 * η := by
  obtain ⟨y1, y2⟩ := abs_le.1 hYy
  have hη : 0 ≤ η := (abs_nonneg _).trans hYy
  have pos : ∀ k, |V (max least (min most m)) - y| ≤ |V k - y| + 2 * η := by
    intro k
    rcases lt_or_ge m least with hl | hl
    · -- raised to `least`
      rw [max_eq_left ((min_le_right _ _).trans hl.le)]
      have hn : 2 * Y ≤ V m + V least := by
        have := hnear least
        have hlt := hV hl
        rcases abs_cases (V m - Y) with ⟨e, _⟩ | ⟨e, _⟩ <;> rcases abs_cases (V least - Y) with ⟨e', _⟩ | ⟨e', _⟩ <;> linarith
      rcases lt_or_ge k least with hk | hk
      · have := hleast k hk
        have hlt := hV hk
        rcases abs_cases (V least - y) with ⟨e, _⟩ | ⟨e, _⟩ <;> rcases abs_cases (V k - y) with ⟨e', _⟩ | ⟨e', _⟩ <;> linarith
      · have h1 := hV.monotone hk
        have h2 := hleast m hl
        have hlt := hV hl
        rcases abs_cases (V least - y) with ⟨e, _⟩ | ⟨e, _⟩ <;> rcases abs_cases (V k - y) with ⟨e', _⟩ | ⟨e', _⟩ <;> linarith
    · rcases lt_or_ge most m with hm | hm
      · rw [min_eq_left hm.le, max_eq_right hlm]
        have hb := hmost.resolve_left (by omega)
        have hn : V most + V m ≤ 2 * Y := by
          have := hnear most
          have hlt := hV hm
          rcases abs_cases (V m - Y) with ⟨e, _⟩ | ⟨e, _⟩ <;> rcases abs_cases (V most - Y) with ⟨e', _⟩ | ⟨e', _⟩ <;> linarith
        have h2 := hb m hm
        rcases lt_or_ge most k with hk | hk
        · have := hb k hk
          have hlt := hV hk
          rcases abs_cases (V most - y) with ⟨e, _⟩ | ⟨e, _⟩ <;> rcases abs_cases (V k - y) with ⟨e', _⟩ | ⟨e', _⟩ <;> linarith
        · have h1 := hV.monotone hk
          have hlt := hV hm
          rcases abs_cases (V most - y) with ⟨e, _⟩ | ⟨e, _⟩ <;> rcases abs_cases (V k - y) with ⟨e', _⟩ | ⟨e', _⟩ <;> linarith
      · rw [min_eq_right hm, max_eq_right hl]
        have h1 := hnear k
        have h2 := abs_sub_le (V m) Y y
        have h3 := abs_sub_le (V k) y Y
        rw [abs_sub_comm y Y] at h3
        linarith
  have hk0 : 0 ≤ V k := by rw [← h0]; exact hV.monotone (Nat.zero_le k)
  refine ⟨pos k, ?_⟩
  rcases le_or_gt 0 y with hy | hy
  · refine (pos 0).trans ?_
    rw [h0, zero_sub, abs_neg, abs_of_nonneg hy, abs_of_nonpos (by linarith)]
    linarith
  · have hl0 : least = 0 := by
      by_contra hne
      have h1 := hleast 0 (Nat.pos_of_ne_zero hne)
      have h2 := hV (Nat.pos_of_ne_zero hne)
      linarith
    have h1 : V (max least (min most m)) ≤ V m := hV.monotone (by rw [hl0]; simp)
    have h2 : 0 ≤ V (max least (min most m)) := by rw [← h0]; exact hV.monotone (Nat.zero_le _)
    have h3 := hnear 0
    rw [h0, zero_sub, abs_neg, abs_of_nonneg hY] at h3
    have h4 := (abs_le.1 h3).2
    rw [abs_of_nonneg (by linarith : 0 ≤ V (max least (min most m)) - y)]
    have := abs_nonneg (-V k - y)
    linarith


/-- The angle of a magnitude's units is the absolute value. -/
theorem angle_eq (a : F64) : (value64 a : ℝ) = signum (sign64 a) * (units64 a / unitsPerOne) := by
  rw [value64_eq]; ring

/-- An enclosure fits a real result `x` of the sign `s`: it holds `signum s · x`, up to `δ` either way, and the bounds
`least` and `most` between which the result is kept are met, by the exact value or by its rounding. -/
structure Enclosure.Fits (e : Enclosure) (s : Bool) (x δ : ℝ) (least most : Nat) : Prop where
  proper : e.denErr < e.den
  margin : 0 ≤ δ
  low : signum s * x - δ ≤ e.low
  high : e.high ≤ signum s * x + δ
  leastMet : ∀ k < least, (unitsOf 52 k : ℝ) / unitsPerOne + unitsOf 52 least / unitsPerOne ≤ 2 * (signum s * x)
  mostMet : most = inf64 ∨ ∀ k > most, 2 * (signum s * x) ≤ (unitsOf 52 k : ℝ) / unitsPerOne + unitsOf 52 most / unitsPerOne
  leastFinite : least < inf64
  leastMost : least ≤ most

theorem unitsOf_div_strictMono : StrictMono fun k => (unitsOf 52 k : ℝ) / unitsPerOne := fun _ _ h =>
  div_lt_div_of_pos_right (Nat.cast_lt.2 (unitsOf_strictMono 52 h)) (Nat.cast_pos.2 unitsPerOne_pos)

/-- Every result between an enclosure's bracketing magnitudes is faithful. -/
theorem Enclosure.Fits.faithful {e : Enclosure} {s : Bool} {x δ : ℝ} {m least most : Nat} (h : e.Fits s x δ least most)
    (hm : e.below ≤ m ∧ m ≤ e.above) : FaithfulWithin δ (pack64 s (max least (min most m))) x := by
  have hU : (0 : ℝ) < unitsPerOne := Nat.cast_pos.2 unitsPerOne_pos
  obtain ⟨hden, hδ, hlow, hhigh, hl, hmo, hinf, -⟩ := h
  have hV := unitsOf_div_strictMono
  obtain ⟨y, hy⟩ : ∃ y, y = signum s * x := ⟨_, rfl⟩
  rw [← hy] at hlow hhigh hl hmo
  have hleast : ∀ c : F64, (0 : ℝ) ≤ value64 c → y + δ ≤ value64 c → least ≤ mag64 c := by
    intro c h0 h
    by_contra hlt
    rw [not_le] at hlt
    have h1 := hl _ hlt
    have h2 := hV hlt
    rw [value64_of_nonneg h0] at h
    linarith
  have hmost : ∀ c : F64, isFinite64 c = true → 0 ≤ (value64 c : ℝ) → value64 c + δ ≤ y → mag64 c ≤ most := by
    intro c hc h0 h
    rcases hmo with hmo | hmo
    · rw [hmo]; exact (by simpa [isFinite64] using hc : mag64 c < inf64).le
    · by_contra hlt
      rw [not_le] at hlt
      have h1 := hmo _ hlt
      have h2 := hV hlt
      rw [value64_of_nonneg h0] at h
      linarith
  have habove : e.above ≤ inf64 := by
    rw [Enclosure.above]; split
    · exact le_rfl
    · exact Nat.min_le_left _ _
  have hM : max least (min most m) ≤ inf64 := max_le hinf.le ((Nat.min_le_right _ _).trans (hm.2.trans habove))
  have P1 : ∀ c : F64, isFinite64 c = true → (value64 c : ℝ) + δ ≤ y → (value64 c : ℝ) ≤ unitsOf 52 (max least (min most m)) / unitsPerOne := by
    intro c hc h
    rcases lt_or_ge (value64 c : ℝ) 0 with hneg | hpos
    · exact hneg.le.trans (by positivity)
    · have hmc := hmost c hc hpos h
      rw [value64_of_nonneg hpos] at h ⊢
      refine div_le_div_of_nonneg_right (Nat.cast_le.2 ((unitsOf_strictMono 52).monotone (le_max_of_le_right (le_min hmc ?_)))) hU.le
      refine le_trans ?_ hm.1
      rw [Enclosure.below, roundDown_eq, le_min_iff]
      refine ⟨(by simpa [isFinite64] using hc : mag64 c < inf64).le, ?_⟩
      have hd : 0 < e.den + e.denErr := by omega
      rw [le_floorMag_iff hd]
      have : (unitsOf 52 (mag64 c) : ℝ) / unitsPerOne ≤ e.low := by linarith
      rw [Enclosure.low, div_le_div_iff_of_pos_right hU, le_div_iff₀ (Nat.cast_pos.2 hd)] at this
      exact_mod_cast this
  have P2 : ∀ c : F64, isFinite64 c = true → y + δ ≤ (value64 c : ℝ) → unitsOf 52 (max least (min most m)) / unitsPerOne ≤ (value64 c : ℝ) := by
    intro c hc h
    have hpos : (0 : ℝ) ≤ value64 c := le_trans (by rw [Enclosure.high]; positivity) (hhigh.trans h)
    have hlc := hleast c hpos h
    rw [value64_of_nonneg hpos] at h ⊢
    refine div_le_div_of_nonneg_right (Nat.cast_le.2 ((unitsOf_strictMono 52).monotone (max_le hlc ((Nat.min_le_right _ _).trans (hm.2.trans ?_))))) hU.le
    have hd : 0 < e.den - e.denErr := by omega
    rw [Enclosure.above, if_neg (by omega), roundUp_eq]
    refine (Nat.min_le_right _ _).trans ?_
    rw [ceilMag_le_iff hd]
    have : e.high ≤ (unitsOf 52 (mag64 c) : ℝ) / unitsPerOne := hhigh.trans h
    rw [Enclosure.high, div_le_div_iff_of_pos_right hU, div_le_iff₀ (Nat.cast_pos.2 hd)] at this
    exact_mod_cast this
  refine ⟨isNaN64_pack hM, fun c hc => ?_⟩
  rw [← Rat.cast_le (K := ℝ), ← Rat.cast_le (K := ℝ), value64_pack hM]
  cases s
  · have hxy : x = y := by rw [hy]; simp [signum]
    rw [hxy, show signum false = 1 from rfl, one_mul]
    exact ⟨P1 c hc, P2 c hc⟩
  · have hxy : x = -y := by rw [hy]; simp [signum]
    have a := P1 (fneg c) (by simpa using hc)
    have b := P2 (fneg c) (by simpa using hc)
    rw [value64_fneg, Rat.cast_neg] at a b
    rw [hxy, show signum true = -1 from rfl, neg_one_mul]
    constructor
    · intro h
      have := b (by linarith)
      linarith
    · intro h
      have := a (by linarith)
      linarith

/-- The nearest magnitude of an enclosure, kept between its bounds, is nearest up to what the enclosure leaves open. -/
theorem Enclosure.Fits.nearest {e : Enclosure} {s : Bool} {x δ : ℝ} {least most : Nat} (h : e.Fits s x δ least most)
    (hfin : |x| + 2 * δ < (2 : ℝ) ^ 1024 - 2 ^ 970) :
    isFinite64 (pack64 s (max least (min most e.nearest))) = true ∧ ∀ c : F64, isFinite64 c = true →
      |(value64 (pack64 s (max least (min most e.nearest))) : ℝ) - x| ≤ |(value64 c : ℝ) - x| + 2 * δ := by
  obtain ⟨hden, hδ, hlow, hhigh, hleast, hmost, hinf, hlm⟩ := h
  obtain ⟨y, hy⟩ : ∃ y, y = signum s * x := ⟨_, rfl⟩
  rw [← hy] at hlow hhigh hleast hmost
  have hU : (0 : ℝ) < unitsPerOne := Nat.cast_pos.2 unitsPerOne_pos
  have hd : 0 < e.den := by omega
  have hd' : (0 : ℝ) < e.den := Nat.cast_pos.2 hd
  obtain ⟨Y, hYd⟩ : ∃ Y : ℝ, Y = (e.num : ℝ) / e.den / unitsPerOne := ⟨_, rfl⟩
  have hY0 : 0 ≤ Y := by rw [hYd]; positivity
  have h1 : e.low ≤ Y := by
    rw [hYd, Enclosure.low]
    refine div_le_div_of_nonneg_right ?_ hU.le
    exact div_le_div₀ (Nat.cast_nonneg _) (Nat.cast_le.2 (Nat.sub_le _ _)) hd' (Nat.cast_le.2 (Nat.le_add_right _ _))
  have h2 : Y ≤ e.high := by
    rw [hYd, Enclosure.high]
    refine div_le_div_of_nonneg_right ?_ hU.le
    exact div_le_div₀ (Nat.cast_nonneg _) (Nat.cast_le.2 (Nat.le_add_right _ _)) (Nat.cast_pos.2 (by omega)) (Nat.cast_le.2 (Nat.sub_le _ _))
  have hYy : |Y - y| ≤ δ := abs_le.2 ⟨by linarith, by linarith⟩
  have hyx : y ≤ |x| := by
    rw [hy]; exact signum_mul_le le_rfl s
  have hlt : e.nearest < inf64 := by
    rw [Enclosure.nearest, roundNearest_lt_inf (by decide) hd (by decide) (by decide), midpoint64]
    have h3 : Y < (2 : ℝ) ^ 1024 - 2 ^ 970 := by linarith [(abs_le.1 hYy).2]
    rw [hYd, div_lt_iff₀ hU, div_lt_iff₀ hd'] at h3
    rw [← Nat.cast_lt (α := ℝ), Nat.cast_mul, Nat.cast_mul, Nat.cast_mul, two_mul_pow_sub (by norm_num), Nat.cast_ofNat]
    linarith
  have hM : max least (min most e.nearest) < inf64 := max_lt hinf (lt_of_le_of_lt (min_le_right _ _) hlt)
  have hV := unitsOf_div_strictMono
  have hnear : ∀ k, |(unitsOf 52 e.nearest : ℝ) / unitsPerOne - Y| ≤ |(unitsOf 52 k : ℝ) / unitsPerOne - Y| := by
    intro k
    have := (signed_nearest (by decide) hd hlt false false k).1
    simp only [signum, Bool.false_eq_true, if_false, one_mul] at this
    rw [hYd, ← sub_div, ← sub_div, abs_div, abs_div]
    exact div_le_div_of_nonneg_right this (abs_nonneg _)
  have core := clamp_nearest (V := fun k => (unitsOf 52 k : ℝ) / unitsPerOne) (m := e.nearest) hV (by simp) hnear hY0 hYy hleast
    (hmost.imp_left (fun h => by rw [h]; exact hlt.le)) hlm
  have hM63 : max least (min most e.nearest) < 2 ^ 63 := hM.trans inf64_lt
  refine ⟨by simpa [isFinite64, mag64_pack hM63] using hM, fun c _ => ?_⟩
  rw [value64_pack hM.le, angle_eq c, units64]
  obtain ⟨a, b⟩ := core (mag64 c)
  have hx : x = signum s * y := by rw [hy, ← mul_assoc, signum_mul_self, one_mul]
  rw [hx]
  generalize (unitsOf 52 (max least (min most e.nearest)) : ℝ) / unitsPerOne = p at *
  generalize (unitsOf 52 (mag64 c) : ℝ) / unitsPerOne = q at *
  cases s <;> cases sign64 c <;> simp only [signum, Bool.false_eq_true, if_false, if_true, one_mul, neg_one_mul]
  · exact a
  · exact b
  · rw [show -p - -y = -(p - y) by ring, abs_neg, show q - -y = -(-q - y) by ring, abs_neg]
    exact b
  · rw [show -p - -y = -(p - y) by ring, abs_neg, show -q - -y = -(q - y) by ring, abs_neg]
    exact a

end Sys2Proof.Machine
end

