-- ==== Sys2Proof/Laws/Faithful.lean ====
section
/-! SUPPORT. `cos64`, `sin64`, `tan64` and `pow64` against the real functions: `NUM.faithful` of every admissible `NUM`
(R77), and `NUM_CR` nearest (R78), each up to the margin its enclosure leaves. -/

namespace Sys2Proof.Machine

/-! ### The four functions -/

theorem signed_cast {v : Int} {X : ℝ} (hX : 0 ≤ X) (h : |(v : ℝ) - X| ≤ 2 ^ 15) : |(v.natAbs : ℝ) - X| ≤ 2 ^ 15 := by
  rw [Nat.cast_natAbs, Int.cast_abs]
  refine le_trans ?_ h
  rw [← abs_of_nonneg hX]
  nth_rw 2 [abs_of_nonneg hX]
  exact abs_abs_sub_abs_le _ _

/-- The sign of a fixed-point value turns it to its absolute value. -/
theorem signum_near {v : Int} {X : ℝ} (h : |(v : ℝ) - X| ≤ 2 ^ 15) :
    |(v.natAbs : ℝ) - signum (decide (v < 0)) * X| ≤ 2 ^ 15 := by
  rw [← signum_natAbs v] at h
  cases hs : decide (v < 0) <;> rw [hs] at h
  · simpa [signum] using h
  · simp only [signum, if_true] at h ⊢
    rw [show (v.natAbs : ℝ) - -1 * X = -(-1 * v.natAbs - X) by ring, abs_neg]
    exact h

theorem cast_natSub_ge (a b : Nat) : (a : ℝ) - b ≤ ((a - b : Nat) : ℝ) := by
  rcases le_total b a with h | h
  · rw [Nat.cast_sub h]
  · rw [Nat.sub_eq_zero_of_le h]
    have : (a : ℝ) ≤ b := Nat.cast_le.2 h
    rw [Nat.cast_zero]; linarith

theorem ofFix_near {v : Int} {y : ℝ} (h : |(v.natAbs : ℝ) - fixOne * y| ≤ 2 ^ 15) :
    y - 1 / 2 ^ 1200 ≤ (Enclosure.ofFix v).low ∧ (Enclosure.ofFix v).high ≤ y + 1 / 2 ^ 1200 := by
  have hF := fixOne_pos
  have e1 : ∀ X : ℝ, X / (2 ^ 206 : Nat) / unitsPerOne = X / fixOne := by
    intro X
    rw [fixOne_units, Nat.cast_pow, Nat.cast_ofNat, div_div]
  have hsmall : fixOne * (1 / 2 ^ 1200) = 2 ^ 80 := by
    rw [fixOne, fixBits, show (2 : ℝ) ^ 1280 = 2 ^ 1200 * 2 ^ 80 by rw [← pow_add]]
    field_simp
  obtain ⟨h1, h2⟩ := abs_le.1 h
  have hmul : ∀ z : ℝ, fixOne * (y + z) = fixOne * y + fixOne * z := fun z => mul_add _ _ _
  generalize (1 : ℝ) / 2 ^ 1200 = δ at *
  constructor
  · show y - δ ≤ ((v.natAbs - 2 ^ 16 : Nat) : ℝ) / ((2 ^ 206 + 0 : Nat) : ℝ) / unitsPerOne
    rw [Nat.add_zero, e1, le_div_iff₀ hF]
    refine le_trans ?_ (cast_natSub_ge _ _)
    rw [sub_eq_add_neg, mul_comm, hmul]
    push_cast
    linarith
  · show ((v.natAbs + 2 ^ 16 : Nat) : ℝ) / ((2 ^ 206 - 0 : Nat) : ℝ) / unitsPerOne ≤ y + δ
    rw [Nat.sub_zero, e1, div_le_iff₀ hF, mul_comm, hmul]
    push_cast
    linarith

theorem value64_pi : (value64 pi64 : ℝ) = 884279719003555 / 2 ^ 48 := by
  have h : value64 pi64 = 884279719003555 / 2 ^ 48 := by decide +kernel
  rw [h]; push_cast; norm_num

theorem value64_halfPi : (value64 halfPi64 : ℝ) = 884279719003555 / 2 ^ 49 := by
  have h : value64 halfPi64 = 884279719003555 / 2 ^ 49 := by decide +kernel
  rw [h]; push_cast; norm_num

theorem units64_div_le {a b : F64} (h : mag64 a ≤ mag64 b) (hb : sign64 b = false) : (units64 a : ℝ) / unitsPerOne ≤ value64 b := by
  rw [angle_eq b, hb, show signum false = 1 from rfl, one_mul]
  have hU : (0 : ℝ) < unitsPerOne := Nat.cast_pos.2 unitsPerOne_pos
  exact div_le_div_of_nonneg_right (Nat.cast_le.2 ((unitsOf_strictMono 52).monotone h)) hU.le

theorem cos_signum (s : Bool) (x : ℝ) : Real.cos (signum s * x) = Real.cos x := by cases s <;> simp [signum]

theorem sin_signum (s : Bool) (x : ℝ) : Real.sin (signum s * x) = signum s * Real.sin x := by cases s <;> simp [signum]

theorem tan_signum (s : Bool) (x : ℝ) : Real.tan (signum s * x) = signum s * Real.tan x := by cases s <;> simp [signum]

theorem admissible_between {rnd : NumRounding} (hr : rnd.Admissible) {e : Enclosure} (hd : 0 < e.den) (f : NumFn) (a : F64) :
    e.below ≤ rnd f a e.below e.nearest e.above ∧ rnd f a e.below e.nearest e.above ≤ e.above :=
  hr _ _ _ _ _ (e.nearest_between hd).1 (e.nearest_between hd).2

theorem ofFix_den (v : Int) : (Enclosure.ofFix v).denErr < (Enclosure.ofFix v).den := by
  show 0 < 2 ^ 206
  exact Nat.two_pow_pos _

theorem value64_one : (value64 one64 : ℝ) = 1 := by
  have h : value64 one64 = 1 := by decide +kernel
  rw [h]; simp

theorem mag64_pos_of_value {c : F64} (h : 0 < (value64 c : ℝ)) : 1 ≤ mag64 c := by
  rcases Nat.eq_zero_or_pos (mag64 c) with h0 | h0
  · rw [value64_of_nonneg h.le, h0] at h
    simp at h
  · exact h0

theorem FaithfulWithin.of_value_eq {e : ℝ} {r : F64} {x : ℝ} (he : 0 ≤ e) (hn : isNaN64 r = false) (h : (value64 r : ℝ) = x) :
    FaithfulWithin e r x := by
  refine ⟨hn, fun c _ => ?_⟩
  rw [← Rat.cast_le (K := ℝ), ← Rat.cast_le (K := ℝ), h]
  constructor <;> intro h' <;> linarith

theorem neg_signum (s : Bool) {v : Int} {X : ℝ} (h : |(v : ℝ) - X| ≤ 2 ^ 15) :
    |((if s then -v else v : Int) : ℝ) - signum s * X| ≤ 2 ^ 15 := by
  cases s
  · simpa [signum] using h
  · simp only [signum, if_true]
    rw [show ((-v : Int) : ℝ) - -1 * X = -(v - X) by push_cast; ring, abs_neg]
    exact h


/-! ### Each function's enclosure fits -/

theorem most_met {y : ℝ} {b : Nat} (h : y ≤ (unitsOf 52 b : ℝ) / unitsPerOne) :
    ∀ k > b, 2 * y ≤ (unitsOf 52 k : ℝ) / unitsPerOne + unitsOf 52 b / unitsPerOne := by
  intro k hk
  have := unitsOf_div_strictMono hk
  simp only at this
  linarith

theorem least_met {y : ℝ} {b : Nat} (h : (unitsOf 52 b : ℝ) / unitsPerOne ≤ y) :
    ∀ k < b, (unitsOf 52 k : ℝ) / unitsPerOne + unitsOf 52 b / unitsPerOne ≤ 2 * y := by
  intro k hk
  have := unitsOf_div_strictMono hk
  simp only at this
  linarith

theorem least_one_met {y : ℝ} (h : 1 / unitsPerOne ≤ 2 * y) :
    ∀ k < 1, (unitsOf 52 k : ℝ) / unitsPerOne + unitsOf 52 1 / unitsPerOne ≤ 2 * y := by
  intro k hk
  obtain rfl : k = 0 := by omega
  rw [unitsOf_zero, unitsOf_small (by norm_num)]
  simpa using h

theorem mag_one_value : (unitsOf 52 (mag64 one64) : ℝ) / unitsPerOne = 1 := by
  rw [← value64_of_nonneg (by rw [value64_one]; norm_num), value64_one]

theorem tiny_le : 1 / (unitsPerOne : ℝ) ≤ 1 / 10 ^ 18 := by
  rw [units_pow]
  refine one_div_le_one_div_of_le (by norm_num) ?_
  refine le_trans ?_ (pow_le_pow_right₀ one_le_two (by norm_num : 60 ≤ 1074))
  norm_num

/-- The sine of an angle up to a quarter turn is at least half of it. -/
theorem half_le_sin {x : ℝ} (h0 : 0 ≤ x) (h1 : x ≤ Real.pi / 2) : x / 2 ≤ Real.sin x := by
  refine le_trans ?_ (Real.mul_le_sin h0 h1)
  have : 1 / 2 ≤ 2 / Real.pi := by
    rw [div_le_div_iff₀ two_pos Real.pi_pos]; linarith [Real.pi_le_four]
  nlinarith

theorem margin_pos (n : Nat) : (0 : ℝ) ≤ 1 / 2 ^ n := (one_div_pos.2 (pow_pos two_pos _)).le

theorem units_nonneg (a : F64) : (0 : ℝ) ≤ (units64 a : ℝ) / unitsPerOne :=
  div_nonneg (Nat.cast_nonneg _) (Nat.cast_nonneg _)

theorem mag64_lt_inf {a : F64} (ha : isFinite64 a = true) : mag64 a < inf64 := by simpa [isFinite64] using ha

theorem units_pos {a : F64} (hz : isZero64 a = false) : 1 / (unitsPerOne : ℝ) ≤ units64 a / unitsPerOne := by
  refine div_le_div_of_nonneg_right ?_ (Nat.cast_nonneg _)
  have h0 : 0 < mag64 a := Nat.pos_of_ne_zero (by simpa [isZero64] using hz)
  have := unitsOf_strictMono 52 h0
  rw [unitsOf_zero] at this
  exact_mod_cast this

theorem signum_false_mul (x : ℝ) : signum false * x = x := by simp [signum]

theorem mul_signum_left (s : Bool) (x : ℝ) : signum s * (fixOne * x) = fixOne * (signum s * x) := by ring

theorem cos64_fits {a : F64} (ha : isFinite64 a = true) (hz : isZero64 a = false) : ∃ s least most,
    (cosEnclosure a).Fits s (Real.cos (value64 a)) (1 / 2 ^ 1200) least most ∧
      ∀ rnd d, cos64 rnd d a = pack64 s ((cosEnclosure a).magnitude rnd .cos64 a least most) := by
  have hcos := (cosSinUnits_near (units64_lt_of_finite ha)).1
  have hle1 := Real.abs_cos_le_one ((units64 a : ℝ) / unitsPerOne)
  rw [angle_eq, cos_signum]
  simp only [cos64, ha, hz, Bool.not_true, Bool.false_eq_true, if_false]
  by_cases hm : mag64 a ≤ mag64 halfPi64
  · have hx := units64_div_le hm (by decide)
    rw [value64_halfPi] at hx
    have hpi := Real.pi_gt_d20
    have hx0 := units_nonneg a
    have hbig : 1 / 10 ^ 18 ≤ 2 * Real.cos ((units64 a : ℝ) / unitsPerOne) := by
      rw [← Real.sin_pi_div_two_sub]
      have h := half_le_sin (x := Real.pi / 2 - (units64 a : ℝ) / unitsPerOne) (by linarith) (by linarith)
      linarith
    have htiny := tiny_le
    generalize Real.cos ((units64 a : ℝ) / unitsPerOne) = x at *
    obtain ⟨hl, hh⟩ := ofFix_near (signed_cast (mul_nonneg fixOne_pos.le (by linarith)) hcos)
    refine ⟨false, 1, mag64 one64, ⟨ofFix_den _, margin_pos _, ?_, ?_, ?_, .inr (most_met ?_), by decide, by decide⟩, ?_⟩
    · rw [signum_false_mul]; exact hl
    · rw [signum_false_mul]; exact hh
    · rw [signum_false_mul]; exact least_one_met (by linarith)
    · rw [signum_false_mul, mag_one_value]; exact (abs_le.1 hle1).2
    · intro rnd d; rw [if_pos hm]
  · have hs := signum_near hcos
    rw [mul_signum_left] at hs
    obtain ⟨hl, hh⟩ := ofFix_near hs
    refine ⟨(cosEnclosure a).neg, 0, mag64 one64, ⟨ofFix_den _, margin_pos _, hl, hh, fun _ h => absurd h (Nat.not_lt_zero _),
      .inr (most_met ?_), by decide, by decide⟩, ?_⟩
    · rw [mag_one_value]; exact signum_mul_le hle1 _
    · intro rnd d; rw [if_neg hm]

theorem sin64_fits {a : F64} (ha : isFinite64 a = true) (hz : isZero64 a = false) : ∃ s least most,
    (sinEnclosure a).Fits s (Real.sin (value64 a)) (1 / 2 ^ 1200) least most ∧
      ∀ rnd d, sin64 rnd d a = pack64 s ((sinEnclosure a).magnitude rnd .sin64 a least most) := by
  have hsin := (cosSinUnits_near (units64_lt_of_finite ha)).2
  have hle1 := Real.abs_sin_le_one ((units64 a : ℝ) / unitsPerOne)
  have hx0 := units_nonneg a
  have hlex : |Real.sin ((units64 a : ℝ) / unitsPerOne)| ≤ (units64 a : ℝ) / unitsPerOne := by
    have := Real.abs_sin_le_abs (x := (units64 a : ℝ) / unitsPerOne)
    rwa [abs_of_nonneg hx0] at this
  have hmost : ∀ y : ℝ, y ≤ 1 → y ≤ (units64 a : ℝ) / unitsPerOne →
      y ≤ (unitsOf 52 (min (mag64 one64) (mag64 a)) : ℝ) / unitsPerOne := by
    intro y h1 h2
    rcases min_choice (mag64 one64) (mag64 a) with h | h <;> rw [h]
    · rwa [mag_one_value]
    · exact h2
  rw [angle_eq, sin_signum]
  simp only [sin64, ha, hz, Bool.not_true, Bool.false_eq_true, if_false]
  by_cases hm : mag64 a < mag64 pi64
  · have hx := units64_div_le (b := pi64) hm.le (by decide)
    rw [value64_pi] at hx
    have hpi := Real.pi_gt_d20
    have hbig : 1 / unitsPerOne ≤ 2 * Real.sin ((units64 a : ℝ) / unitsPerOne) := by
      have htiny := tiny_le
      have hup := units_pos hz
      rcases le_total ((units64 a : ℝ) / unitsPerOne) (Real.pi / 2) with h | h
      · linarith [half_le_sin hx0 h]
      · rw [← Real.sin_pi_sub]
        linarith [half_le_sin (x := Real.pi - (units64 a : ℝ) / unitsPerOne) (by linarith) (by linarith)]
    have hpos : 0 ≤ Real.sin ((units64 a : ℝ) / unitsPerOne) := by
      have : (0 : ℝ) ≤ 1 / unitsPerOne := div_nonneg zero_le_one (Nat.cast_nonneg _)
      linarith
    have hsin2 := signed_cast (mul_nonneg fixOne_pos.le hpos) hsin
    have hsin3 : |(((if sign64 a then -(cosSinUnits (units64 a)).2 else (cosSinUnits (units64 a)).2 : Int)).natAbs : ℝ) -
        fixOne * Real.sin ((units64 a : ℝ) / unitsPerOne)| ≤ 2 ^ 15 := by
      split
      · rwa [Int.natAbs_neg]
      · exact hsin2
    obtain ⟨hl, hh⟩ := ofFix_near hsin3
    have hy : signum (sign64 a) * (signum (sign64 a) * Real.sin ((units64 a : ℝ) / unitsPerOne)) = Real.sin ((units64 a : ℝ) / unitsPerOne) := by
      rw [← mul_assoc, signum_mul_self, one_mul]
    refine ⟨sign64 a, if sign64 a then 0 else 1, min (mag64 one64) (mag64 a), ⟨ofFix_den _, margin_pos _, ?_, ?_, ?_, .inr (most_met ?_), ?_, ?_⟩, ?_⟩
    · rw [hy]; exact hl
    · rw [hy]; exact hh
    · rw [hy]
      split
      · exact fun _ h => absurd h (Nat.not_lt_zero _)
      · exact least_one_met hbig
    · rw [hy]; exact hmost _ (abs_le.1 hle1).2 (abs_le.1 hlex).2
    · split <;> decide
    · have h0 : 0 < mag64 a := Nat.pos_of_ne_zero (by simpa [isZero64] using hz)
      split
      · exact Nat.zero_le _
      · exact le_min (by decide) h0
    · intro rnd d; rw [if_pos hm]
  · have hs := signum_near (neg_signum (sign64 a) hsin)
    rw [mul_signum_left, mul_signum_left] at hs
    obtain ⟨hl, hh⟩ := ofFix_near hs
    have e1 : ∀ (s t : Bool) (x b : ℝ), |x| ≤ b → signum s * (signum t * x) ≤ b := fun s t x b h =>
      signum_mul_le (by rw [abs_mul]; cases t <;> simpa [signum] using h) s
    refine ⟨(sinEnclosure a).neg, 0, min (mag64 one64) (mag64 a), ⟨ofFix_den _, margin_pos _, hl, hh, fun _ h => absurd h (Nat.not_lt_zero _),
      .inr (most_met (hmost _ (e1 _ _ _ _ hle1) (e1 _ _ _ _ hlex))), by decide, Nat.zero_le _⟩, ?_⟩
    intro rnd d; rw [if_neg hm]

/-- A quotient of two fixed-point values, each off by at most 2^15 and taken 2^16 wider. -/
theorem quotient_near {S C : Nat} {p q : ℝ} (hp : |p| ≤ 1) (hq : 1 / 2 ^ 100 ≤ q) (hq1 : q ≤ 1)
    (hS : |(S : ℝ) - fixOne * p| ≤ 2 ^ 15) (hC : |(C : ℝ) - fixOne * q| ≤ 2 ^ 15) :
    2 ^ 16 < C ∧ p / q - 1 / 2 ^ 1000 ≤ ((S : ℝ) - 2 ^ 16) / (C + 2 ^ 16) ∧
      ((S : ℝ) + 2 ^ 16) / (C - 2 ^ 16) ≤ p / q + 1 / 2 ^ 1000 := by
  have hF := fixOne_pos
  obtain ⟨s1, s2⟩ := abs_le.1 hS
  obtain ⟨c1, c2⟩ := abs_le.1 hC
  obtain ⟨p1, p2⟩ := abs_le.1 hp
  have hq0 : 0 < q := lt_of_lt_of_le (by norm_num) hq
  have hδ : (0 : ℝ) < 1 / 2 ^ 1000 := one_div_pos.2 (pow_pos two_pos _)
  have hδ1 : (1 : ℝ) / 2 ^ 1000 ≤ 1 := (div_le_one (pow_pos two_pos _)).2 (one_le_pow₀ (by norm_num))
  have hW : 2 ^ 80 ≤ 1 / 2 ^ 1000 * (fixOne * (q * q)) := by
    have h1 : 1 / 2 ^ 1000 * (fixOne * (1 / 2 ^ 100 * (1 / 2 ^ 100))) = (2 : ℝ) ^ 80 := by
      rw [fixOne, fixBits, show (2 : ℝ) ^ 1280 = 2 ^ 1000 * (2 ^ 100 * 2 ^ 100 * 2 ^ 80) by rw [← pow_add, ← pow_add, ← pow_add]]
      generalize (2 : ℝ) ^ 80 = x
      field_simp
    rw [← h1]
    exact mul_le_mul_of_nonneg_left (mul_le_mul_of_nonneg_left (mul_le_mul hq hq (by positivity) hq0.le) hF.le) hδ.le
  generalize (1 : ℝ) / 2 ^ 1000 = δ at *
  have hFqq : 2 ^ 80 ≤ fixOne * (q * q) := hW.trans (mul_le_of_le_one_left (mul_pos hF (mul_pos hq0 hq0)).le hδ1)
  have hFq : 2 ^ 80 ≤ fixOne * q := hFqq.trans (mul_le_mul_of_nonneg_left (mul_le_of_le_one_right hq0.le hq1) hF.le)
  obtain ⟨c, hc⟩ : ∃ c : ℝ, (C : ℝ) = fixOne * q + c := ⟨C - fixOne * q, by ring⟩
  obtain ⟨s, hs⟩ : ∃ s : ℝ, (S : ℝ) = fixOne * p + s := ⟨S - fixOne * p, by ring⟩
  rw [hc] at c1 c2
  rw [hs] at s1 s2
  have ca : 0 ≤ c + 2 ^ 16 := by linarith
  have cb : 0 ≤ 2 ^ 16 - c := by linarith
  have sa : 0 ≤ 2 ^ 16 - s := by linarith
  have sb : 0 ≤ 2 ^ 16 + s := by linarith
  refine ⟨?_, ?_, ?_⟩
  · have : (2 : ℝ) ^ 16 < C := by rw [hc]; linarith
    exact_mod_cast this
  · rw [hc, hs, le_div_iff₀ (by linarith), ← mul_le_mul_iff_right₀ hq0]
    have e : q * ((p / q - δ) * (fixOne * q + c + 2 ^ 16)) = p * (fixOne * q) + p * (c + 2 ^ 16) - (δ * (fixOne * (q * q)) + δ * (q * (c + 2 ^ 16))) := by
      field_simp; ring
    rw [e]
    have h1 : p * (c + 2 ^ 16) ≤ 2 ^ 17 := (mul_le_of_le_one_left ca p2).trans (by linarith)
    have h2 : q * (2 ^ 16 - s) ≤ 2 ^ 17 := (mul_le_of_le_one_left sa hq1).trans (by linarith)
    have h3 : 0 ≤ δ * (q * (c + 2 ^ 16)) := mul_nonneg hδ.le (mul_nonneg hq0.le ca)
    linarith
  · rw [hc, hs, div_le_iff₀ (by linarith), ← mul_le_mul_iff_right₀ hq0]
    have e : q * ((p / q + δ) * (fixOne * q + c - 2 ^ 16)) = p * (fixOne * q) - p * (2 ^ 16 - c) + (δ * (fixOne * (q * q)) - δ * (q * (2 ^ 16 - c))) := by
      field_simp; ring
    rw [e]
    have h1 : p * (2 ^ 16 - c) ≤ 2 ^ 17 := (mul_le_of_le_one_left cb p2).trans (by linarith)
    have h2 : q * (2 ^ 16 + s) ≤ 2 ^ 17 := (mul_le_of_le_one_left sb hq1).trans (by linarith)
    have h3 : δ * (q * (2 ^ 16 - c)) ≤ 2 ^ 17 :=
      (mul_le_of_le_one_left (mul_nonneg hq0.le cb) hδ1).trans ((mul_le_of_le_one_left cb hq1).trans (by linarith))
    linarith

theorem tanEnclosure_near {a : F64} {p q : ℝ} (hp : |p| ≤ 1) (hq : 1 / 2 ^ 100 ≤ q) (hq1 : q ≤ 1)
    (hS : |((cosSinUnits (units64 a)).2.natAbs : ℝ) - fixOne * p| ≤ 2 ^ 15)
    (hC : |((cosSinUnits (units64 a)).1.natAbs : ℝ) - fixOne * q| ≤ 2 ^ 15) :
    (tanEnclosure a).denErr < (tanEnclosure a).den ∧ p / q - 1 / 2 ^ 1000 ≤ (tanEnclosure a).low ∧
      (tanEnclosure a).high ≤ p / q + 1 / 2 ^ 1000 := by
  have hU : (0 : ℝ) < unitsPerOne := Nat.cast_pos.2 unitsPerOne_pos
  obtain ⟨h1, h2, h3⟩ := quotient_near hp hq hq1 hS hC
  refine ⟨h1, h2.trans ?_, le_trans (le_of_eq ?_) h3⟩
  · show _ ≤ ((((cosSinUnits (units64 a)).2.natAbs * unitsPerOne - 2 ^ 16 * unitsPerOne : Nat) : ℝ) /
      (((cosSinUnits (units64 a)).1.natAbs + 2 ^ 16 : Nat) : ℝ) / unitsPerOne)
    rw [← Nat.sub_mul, Nat.cast_mul, mul_div_right_comm, mul_div_assoc, div_self hU.ne', mul_one, Nat.cast_add, Nat.cast_pow, Nat.cast_ofNat]
    refine div_le_div_of_nonneg_right ?_ (by positivity)
    have := cast_natSub_ge (cosSinUnits (units64 a)).2.natAbs (2 ^ 16)
    rwa [Nat.cast_pow, Nat.cast_ofNat] at this
  · show ((((cosSinUnits (units64 a)).2.natAbs * unitsPerOne + 2 ^ 16 * unitsPerOne : Nat) : ℝ) /
      (((cosSinUnits (units64 a)).1.natAbs - 2 ^ 16 : Nat) : ℝ) / unitsPerOne) = _
    rw [← Nat.add_mul, Nat.cast_mul, mul_div_right_comm, mul_div_assoc, div_self hU.ne', mul_one, Nat.cast_add,
      Nat.cast_sub h1.le, Nat.cast_pow, Nat.cast_ofNat]

theorem tan64_fits {a : F64} (ha : isFinite64 a = true) (hz : isZero64 a = false) (hc : 1 / 2 ^ 100 ≤ |Real.cos (value64 a)|) :
    ∃ s least, (tanEnclosure a).Fits s (Real.tan (value64 a)) (1 / 2 ^ 1000) least inf64 ∧
      ∀ rnd d, tan64 rnd d a = pack64 s ((tanEnclosure a).magnitude rnd .tan64 a least inf64) := by
  obtain ⟨hcos, hsin⟩ := cosSinUnits_near (units64_lt_of_finite ha)
  have hx0 := units_nonneg a
  have hsin1 : |Real.sin ((units64 a : ℝ) / unitsPerOne)| ≤ 1 := Real.abs_sin_le_one _
  have hcos1 : |Real.cos ((units64 a : ℝ) / unitsPerOne)| ≤ 1 := Real.abs_cos_le_one _
  rw [angle_eq, cos_signum] at hc
  rw [angle_eq, tan_signum]
  simp only [tan64, ha, hz, Bool.not_true, Bool.false_eq_true, if_false]
  by_cases hm : mag64 a ≤ mag64 halfPi64
  · have hx := units64_div_le hm (by decide)
    rw [value64_halfPi] at hx
    have hpi := Real.pi_gt_d20
    have hpos : 0 < Real.cos ((units64 a : ℝ) / unitsPerOne) :=
      Real.cos_pos_of_mem_Ioo ⟨by linarith [Real.pi_pos], by linarith⟩
    have hspos : 0 ≤ Real.sin ((units64 a : ℝ) / unitsPerOne) :=
      Real.sin_nonneg_of_nonneg_of_le_pi hx0 (by linarith)
    have htan := Real.le_tan hx0 (by linarith)
    rw [abs_of_pos hpos] at hc hcos1
    obtain ⟨hd, hl, hh⟩ := tanEnclosure_near hsin1 hc hcos1 (signed_cast (mul_nonneg fixOne_pos.le hspos) hsin)
      (signed_cast (mul_nonneg fixOne_pos.le hpos.le) hcos)
    rw [← Real.tan_eq_sin_div_cos] at hl hh
    have hy : signum (sign64 a) * (signum (sign64 a) * Real.tan ((units64 a : ℝ) / unitsPerOne)) = Real.tan ((units64 a : ℝ) / unitsPerOne) := by
      rw [← mul_assoc, signum_mul_self, one_mul]
    refine ⟨sign64 a, mag64 a, ⟨hd, margin_pos _, ?_, ?_, ?_, .inl rfl, mag64_lt_inf ha, (mag64_lt_inf ha).le⟩, ?_⟩
    · rw [hy]; exact hl
    · rw [hy]; exact hh
    · rw [hy]; exact least_met htan
    · intro rnd d; rw [if_pos hm]
  · have hs := signum_near hsin
    have hk := signum_near hcos
    rw [mul_signum_left] at hs hk
    -- the cosine is not small, so its sign is right
    have hF2 : 2 ^ 20 ≤ fixOne * (1 / 2 ^ 100) := by
      rw [fixOne, fixBits, mul_one_div, le_div_iff₀ (by positivity), ← pow_add]
      exact pow_le_pow_right₀ (by norm_num) (by norm_num)
    have hsg : signum (decide ((cosSinUnits (units64 a)).1 < 0)) * Real.cos ((units64 a : ℝ) / unitsPerOne)
        = |Real.cos ((units64 a : ℝ) / unitsPerOne)| := by
      have hn : (0 : ℝ) ≤ ((cosSinUnits (units64 a)).1.natAbs : ℝ) := Nat.cast_nonneg _
      have hF := fixOne_pos
      have hlow := mul_le_mul_of_nonneg_left hc hF.le
      generalize ((cosSinUnits (units64 a)).1.natAbs : ℝ) = N at *
      generalize Real.cos ((units64 a : ℝ) / unitsPerOne) = x at *
      generalize decide ((cosSinUnits (units64 a)).1 < 0) = s at *
      obtain ⟨k1, k2⟩ := abs_le.1 hk
      norm_num at hF2 k1 k2 hlow
      have hz : |signum s * x| = |x| := by rw [abs_mul]; cases s <;> simp [signum]
      rw [← hz] at hlow ⊢
      rw [abs_of_nonneg]
      by_contra hneg
      rw [not_le] at hneg
      rw [abs_of_neg hneg] at hlow
      nlinarith
    rw [hsg] at hk
    have hs1 : |signum (decide ((cosSinUnits (units64 a)).2 < 0)) * Real.sin ((units64 a : ℝ) / unitsPerOne)| ≤ 1 := by
      rw [abs_mul]
      cases decide ((cosSinUnits (units64 a)).2 < 0) <;> simpa [signum] using hsin1
    obtain ⟨hd, hl, hh⟩ := tanEnclosure_near hs1 hc hcos1 hs hk
    have hy : signum (tanEnclosure a).neg * (signum (sign64 a) * Real.tan ((units64 a : ℝ) / unitsPerOne)) =
        signum (decide ((cosSinUnits (units64 a)).2 < 0)) * Real.sin ((units64 a : ℝ) / unitsPerOne) / |Real.cos ((units64 a : ℝ) / unitsPerOne)| := by
      rw [← hsg, tanEnclosure, Real.tan_eq_sin_div_cos]
      simp only [signum_bne]
      generalize decide ((cosSinUnits (units64 a)).1 < 0) = u
      generalize decide ((cosSinUnits (units64 a)).2 < 0) = v
      cases u <;> cases v <;> cases sign64 a <;> simp [signum, neg_div, div_neg]
    refine ⟨(tanEnclosure a).neg, 0, ⟨hd, margin_pos _, ?_, ?_, fun _ h => absurd h (Nat.not_lt_zero _), .inl rfl, by decide, Nat.zero_le _⟩, ?_⟩
    · rw [hy]; exact hl
    · rw [hy]; exact hh
    · intro rnd d; rw [if_neg hm]

theorem pow10Log_near (neg : Bool) {u : Nat} (hu : u ≤ 400 * unitsPerOne) :
    |((pow10Log neg u : Int) : ℝ) - fixOne * (signum neg * (u / unitsPerOne) * Real.log 10)| ≤ 1201 := by
  have h := pow10_size ln10Fix_near hu
  unfold pow10Log
  generalize u * 2 ^ (fixBits - 1074) * ln10Fix / 2 ^ fixBits = n at *
  cases neg
  · simpa [signum] using h
  · simp only [signum, if_true]
    rw [show ((-(n : Int) : Int) : ℝ) - fixOne * (-1 * (u / unitsPerOne) * Real.log 10) = -(n - fixOne * (u / unitsPerOne * Real.log 10)) by
      push_cast; ring, abs_neg]
    exact h

/-- `pow10Fix` encloses what its value stands for. -/
theorem pow10Fix_near {v : Nat} {k : Int} {X : ℝ} (hk : -1400 ≤ k) (hv : |(v : ℝ) - fixOne * (X / 2 ^ k)| ≤ 2 ^ 15)
    (hX : (2 : ℝ) ^ k ≤ 4 * X) :
    (pow10Fix v k).low ≤ X ∧ X ≤ (pow10Fix v k).high ∧ X - X / 2 ^ 1000 ≤ (pow10Fix v k).low ∧
      (pow10Fix v k).high ≤ X + X / 2 ^ 1000 := by
  have hF := fixOne_pos
  have h2k : (0 : ℝ) < 2 ^ k := by positivity
  have hX0 : 0 < X := by linarith
  have e1 : ∀ n : Nat, ((n * 2 ^ (k + 1400).toNat : Nat) : ℝ) / ((2 ^ (206 + 1400) : Nat) : ℝ) / unitsPerOne = n * 2 ^ k / fixOne := by
    intro n
    obtain ⟨j, hj⟩ : ∃ j : Nat, k + 1400 = j := ⟨(k + 1400).toNat, by omega⟩
    rw [hj, Int.toNat_natCast, fixOne_units, Nat.cast_mul, Nat.cast_pow, Nat.cast_pow, Nat.cast_ofNat]
    have : (2 : ℝ) ^ j = 2 ^ k * 2 ^ 1400 := by
      rw [← zpow_natCast, ← hj, zpow_add₀ two_ne_zero]; norm_cast
    have hU : (0 : ℝ) < unitsPerOne := Nat.cast_pos.2 unitsPerOne_pos
    rw [this, pow_add]
    have q1 : (2 : ℝ) ^ 1400 ≠ 0 := pow_ne_zero _ two_ne_zero
    have q2 : (2 : ℝ) ^ 206 ≠ 0 := pow_ne_zero _ two_ne_zero
    generalize (2 : ℝ) ^ 1400 = A at *
    generalize (2 : ℝ) ^ 206 = B at *
    field_simp
  have elow : (pow10Fix v k).low = ((v - 2 ^ 16 : Nat) : ℝ) * 2 ^ k / fixOne := by
    show ((v * 2 ^ (k + 1400).toNat - 2 ^ 16 * 2 ^ (k + 1400).toNat : Nat) : ℝ) / ((2 ^ (206 + 1400) + 0 : Nat) : ℝ) / unitsPerOne = _
    rw [← Nat.sub_mul, Nat.add_zero, e1]
  have ehigh : (pow10Fix v k).high = ((v + 2 ^ 16 : Nat) : ℝ) * 2 ^ k / fixOne := by
    show ((v * 2 ^ (k + 1400).toNat + 2 ^ 16 * 2 ^ (k + 1400).toNat : Nat) : ℝ) / ((2 ^ (206 + 1400) - 0 : Nat) : ℝ) / unitsPerOne = _
    rw [← Nat.add_mul, Nat.sub_zero, e1]
  rw [elow, ehigh]
  -- in units of `2^k / F`
  obtain ⟨w, hw⟩ : ∃ w : ℝ, fixOne * (X / 2 ^ k) = w := ⟨_, rfl⟩
  have hXw : X = w * 2 ^ k / fixOne := by rw [← hw]; field_simp
  have hw0 : fixOne ≤ 4 * w := by
    rw [← hw]
    have : 1 ≤ 4 * (X / 2 ^ k) := by rw [← mul_div_assoc, one_le_div h2k]; exact hX
    nlinarith
  rw [hw] at hv
  obtain ⟨v1, v2⟩ := abs_le.1 hv
  have hbig : 2 ^ 20 ≤ w / 2 ^ 1000 := by
    rw [le_div_iff₀ (pow_pos two_pos _)]
    have : (4 : ℝ) * (2 ^ 20 * 2 ^ 1000) ≤ fixOne := by
      rw [fixOne, fixBits, show (4 : ℝ) = 2 ^ 2 by norm_num, ← pow_add, ← pow_add]
      exact pow_le_pow_right₀ (by norm_num) (by norm_num)
    linarith
  have hscale : (0 : ℝ) < 2 ^ k / fixOne := div_pos h2k hF
  have key : ∀ p q : ℝ, p ≤ q → p * 2 ^ k / fixOne ≤ q * 2 ^ k / fixOne := by
    intro p q h
    rw [mul_div_assoc, mul_div_assoc]
    exact mul_le_mul_of_nonneg_right h hscale.le
  have hsub := cast_natSub_ge v (2 ^ 16)
  have hd : ∀ c : ℝ, w * 2 ^ k / fixOne / c = w / c * 2 ^ k / fixOne := fun c => by ring
  rw [hXw, hd, ← sub_div, ← add_div, ← sub_mul, ← add_mul]
  generalize w / 2 ^ 1000 = m at *
  have hn0 : ((v - 2 ^ 16 : Nat) : ℝ) ≤ w := by
    rcases le_total v (2 ^ 16) with h | h
    · rw [Nat.sub_eq_zero_of_le h, Nat.cast_zero]; linarith
    · rw [Nat.cast_sub h, Nat.cast_pow, Nat.cast_ofNat]; linarith
  rw [Nat.cast_pow, Nat.cast_ofNat] at hsub
  rw [Nat.cast_add, Nat.cast_pow, Nat.cast_ofNat]
  generalize ((v - 2 ^ 16 : Nat) : ℝ) = n at *
  exact ⟨key _ _ hn0, key _ _ (by linarith), key _ _ (by linarith), key _ _ (by linarith)⟩

/-- `pow10Units` encloses the power of 10. -/
theorem pow10Units_near (neg : Bool) {u : Nat} (hu : u ≤ 400 * unitsPerOne) :
    let X := (10 : ℝ) ^ (signum neg * (u / unitsPerOne))
    (pow10Units neg u).low ≤ X ∧ X ≤ (pow10Units neg u).high ∧ X - X / 2 ^ 1000 ≤ (pow10Units neg u).low ∧
      (pow10Units neg u).high ≤ X + X / 2 ^ 1000 := by
  intro X
  have hU : (0 : ℝ) < unitsPerOne := Nat.cast_pos.2 unitsPerOne_pos
  have hy : |signum neg * ((u : ℝ) / unitsPerOne)| ≤ 400 := by
    have h0 : (0 : ℝ) ≤ (u : ℝ) / unitsPerOne := by positivity
    rw [abs_mul, abs_of_nonneg h0]
    have : |signum neg| = 1 := by cases neg <;> simp [signum]
    rw [this, one_mul, div_le_iff₀ hU]
    exact_mod_cast hu
  obtain ⟨h1, h2, h3⟩ := pow10_scaled (l := ln2Fix) (by exact_mod_cast ln2Fix_near) hy (pow10Log_near neg hu) rfl
  have hX0 : 0 < X := Real.rpow_pos_of_pos (by norm_num) _
  exact pow10Fix_near h1 (signed_cast (by have := fixOne_pos; positivity) h2) h3

/-- A whole power of 10 is enclosed exactly. -/
theorem powEnclosure_whole {y : F64} (hw : units64 y % unitsPerOne = 0) :
    (powEnclosure y).low = (10 : ℝ) ^ (value64 y : ℝ) ∧ (powEnclosure y).high = (10 : ℝ) ^ (value64 y : ℝ) := by
  have hU : (0 : ℝ) < unitsPerOne := Nat.cast_pos.2 unitsPerOne_pos
  obtain ⟨n, hn⟩ := Nat.dvd_of_mod_eq_zero hw
  rw [angle_eq, powEnclosure]
  rw [if_pos hw, hn, Nat.cast_mul, mul_div_cancel_left₀ _ hU.ne', Nat.mul_div_cancel_left _ unitsPerOne_pos, Enclosure.low,
    Enclosure.high, pow10Whole]
  cases sign64 y
  · simp only [Bool.false_eq_true, if_false, signum, one_mul, Nat.sub_zero, Nat.add_zero, Nat.cast_one, div_one]
    rw [Nat.cast_mul, mul_div_cancel_right₀ _ hU.ne', Real.rpow_natCast]
    push_cast
    exact ⟨rfl, rfl⟩
  · simp only [if_true, signum, Nat.sub_zero, Nat.add_zero]
    rw [div_right_comm, div_self hU.ne', Nat.cast_pow, neg_one_mul, Real.rpow_neg (by norm_num), Real.rpow_natCast]
    push_cast
    rw [one_div]
    exact ⟨rfl, rfl⟩

/-- `powEnclosure` encloses the power of 10. -/
theorem powEnclosure_near {y : F64} (hu : units64 y ≤ 400 * unitsPerOne) :
    let X := (10 : ℝ) ^ (value64 y : ℝ)
    (powEnclosure y).denErr < (powEnclosure y).den ∧ (powEnclosure y).low ≤ X ∧ X ≤ (powEnclosure y).high ∧
      X - X / 2 ^ 1000 ≤ (powEnclosure y).low ∧ (powEnclosure y).high ≤ X + X / 2 ^ 1000 := by
  intro X
  have hX0 : 0 < X := Real.rpow_pos_of_pos (by norm_num) _
  have hXe : 0 ≤ X / 2 ^ 1000 := div_nonneg hX0.le (pow_nonneg two_pos.le _)
  by_cases hw : units64 y % unitsPerOne = 0
  · obtain ⟨h1, h2⟩ := powEnclosure_whole hw
    rw [h1, h2]
    refine ⟨?_, le_rfl, le_rfl, sub_le_self _ hXe, le_add_of_nonneg_right hXe⟩
    rw [powEnclosure]
    rw [if_pos hw]
    unfold pow10Whole
    cases sign64 y
    · exact Nat.one_pos
    · exact Nat.pow_pos (by norm_num)
  · have hX : X = (10 : ℝ) ^ (signum (sign64 y) * (units64 y / unitsPerOne)) := by rw [← angle_eq]
    rw [powEnclosure]
    rw [if_neg hw, hX]
    refine ⟨?_, pow10Units_near _ hu⟩
    show 0 < 2 ^ (206 + 1400)
    exact Nat.two_pow_pos _

/-- The enclosed power is below `b` units. -/
def Enclosure.isBelow (e : Enclosure) (b : Nat) : Bool := decide (e.num + e.numErr < b * (e.den - e.denErr))

/-- The enclosed power is above `b` units. -/
def Enclosure.isAbove (e : Enclosure) (b : Nat) : Bool := decide (b * (e.den + e.denErr) < e.num - e.numErr)

theorem pow_below {y : F64} {b : Nat} (hu : units64 y ≤ 400 * unitsPerOne)
    (h : (powEnclosure y).isBelow b = true) :
    (10 : ℝ) ^ (value64 y : ℝ) < b / unitsPerOne := by
  have h := of_decide_eq_true h
  obtain ⟨h1, -, h2, -⟩ := powEnclosure_near hu
  have hU : (0 : ℝ) < unitsPerOne := Nat.cast_pos.2 unitsPerOne_pos
  refine lt_of_le_of_lt h2 ?_
  rw [Enclosure.high, div_lt_div_iff_of_pos_right hU, div_lt_iff₀ (Nat.cast_pos.2 (by omega))]
  exact_mod_cast h

theorem pow_above {y : F64} {b : Nat} (hu : units64 y ≤ 400 * unitsPerOne)
    (h : (powEnclosure y).isAbove b = true) :
    (b : ℝ) / unitsPerOne < (10 : ℝ) ^ (value64 y : ℝ) := by
  have h := of_decide_eq_true h
  obtain ⟨h1, h2, -⟩ := powEnclosure_near hu
  have hU : (0 : ℝ) < unitsPerOne := Nat.cast_pos.2 unitsPerOne_pos
  refine lt_of_lt_of_le ?_ h2
  rw [Enclosure.low, div_lt_div_iff_of_pos_right hU, lt_div_iff₀ (Nat.cast_pos.2 (by omega))]
  exact_mod_cast h

theorem units_of_mag {y z : F64} (h : mag64 y ≤ mag64 z) (hz : units64 z ≤ 400 * unitsPerOne) : units64 y ≤ 400 * unitsPerOne :=
  ((unitsOf_strictMono 52).monotone h).trans hz

theorem pow10_mono {y z : F64} (h : value64 y ≤ value64 z) : (10 : ℝ) ^ (value64 y : ℝ) ≤ (10 : ℝ) ^ (value64 z : ℝ) :=
  Real.rpow_le_rpow_of_exponent_le (by norm_num) (Rat.cast_le.2 h)

/-- Two operands next to one another in order have no other between them. -/
theorem value64_lt_next {y z : F64} {w : F64} (hz : sign64 z = false) (hw : sign64 w = false) (hn : mag64 z = mag64 w + 1)
    (h : value64 y < value64 z) : value64 y ≤ value64 w := by
  rw [value64_lt] at h
  rw [value64_le]
  unfold signed64 at *
  rw [hz] at h
  rw [hw]
  simp only [Bool.false_eq_true, if_false] at h ⊢
  split
  · omega
  · rename_i hy
    rw [if_neg hy, Int.ofNat_lt, units64_lt, hn] at h
    exact Int.ofNat_le.2 ((unitsOf_strictMono 52).monotone (by omega))

/-- `pow10Inf` is the smallest operand whose power of 10 is 2^1024 or more. -/
theorem pow10Inf_iff {y : F64} : (2 : ℝ) ^ 1024 ≤ (10 : ℝ) ^ (value64 y : ℝ) ↔ value64 pow10Inf ≤ value64 y := by
  have e : ((2 ^ 2098 : Nat) : ℝ) / unitsPerOne = 2 ^ 1024 := by
    rw [units_pow, Nat.cast_pow, Nat.cast_ofNat, div_eq_iff (pow_ne_zero _ two_ne_zero), ← pow_add]
  have hi : units64 pow10Inf ≤ 400 * unitsPerOne := by decide +kernel
  constructor
  · intro h
    refine le_of_not_gt fun hlt => absurd h (not_le.2 ?_)
    refine lt_of_le_of_lt (pow10_mono (value64_lt_next (w := 0x40734413509F79FE#64) (by decide) (by decide) (by decide) hlt)) ?_
    rw [← e]
    exact pow_below (by decide +kernel) (by decide +kernel)
  · intro h
    refine le_trans ?_ (pow10_mono h)
    rw [← e]
    exact (pow_above hi (by decide +kernel)).le

/-- `pow10Subnormal` is the largest operand whose power of 10 is below 2^-1022. -/
theorem pow10Subnormal_iff {y : F64} : (10 : ℝ) ^ (value64 y : ℝ) < 1 / 2 ^ 1022 ↔ value64 y ≤ value64 pow10Subnormal := by
  have e : ((2 ^ 52 : Nat) : ℝ) / unitsPerOne = 1 / 2 ^ 1022 := by
    rw [units_pow, Nat.cast_pow, Nat.cast_ofNat, div_eq_div_iff (pow_ne_zero _ two_ne_zero) (pow_ne_zero _ two_ne_zero), ← pow_add, one_mul]
  constructor
  · intro h
    refine le_of_not_gt fun hlt => absurd h (not_lt.2 ?_)
    have hn : value64 (0xC0733A7146F72A41#64) ≤ value64 y := by
      have := value64_lt_next (y := fneg y) (z := fneg pow10Subnormal) (w := fneg 0xC0733A7146F72A41#64) (by decide) (by decide) (by decide)
        (by rw [value64_fneg, value64_fneg]; linarith)
      rw [value64_fneg, value64_fneg] at this
      linarith
    refine le_trans ?_ (pow10_mono hn)
    rw [← e]
    exact (pow_above (by decide +kernel) (by decide +kernel)).le
  · intro h
    refine lt_of_le_of_lt (pow10_mono h) ?_
    rw [← e]
    exact pow_below (by decide +kernel) (by decide +kernel)

theorem powRounding_admissible {rnd : NumRounding} (hr : rnd.Admissible) (y : F64) : (powRounding rnd y).Admissible := by
  unfold powRounding
  split
  · intro f a lo near hi h1 h2
    exact ⟨h1, h2⟩
  · exact hr

theorem pow_operand {y : F64} (hlo : sign64 y = true → mag64 y < mag64 pow10Zero)
    (hhi : sign64 y = false → mag64 y < mag64 pow10Inf) : units64 y ≤ 400 * unitsPerOne := by
  cases hs : sign64 y
  · exact units_of_mag (hhi hs).le (by decide +kernel)
  · exact units_of_mag (hlo hs).le (by decide +kernel)

theorem value64_of_sign_false {y : F64} (h : sign64 y = false) : (0 : ℝ) ≤ value64 y := by
  rw [angle_eq, h]
  simp only [signum, Bool.false_eq_true, if_false, one_mul]
  positivity

theorem value64_of_sign_true {y : F64} (h : sign64 y = true) : (value64 y : ℝ) ≤ 0 := by
  rw [angle_eq, h]
  simp only [signum, if_true, neg_one_mul]
  exact neg_nonpos.2 (by positivity)

theorem value64_le_pos {y z : F64} (hy : sign64 y = false) (hz : sign64 z = false) :
    value64 y ≤ value64 z ↔ mag64 y ≤ mag64 z := by
  rw [value64_le, signed64, signed64, hy, hz, if_neg Bool.false_ne_true, if_neg Bool.false_ne_true, Int.ofNat_le]
  exact (unitsOf_strictMono 52).le_iff_le

theorem value64_le_neg {y z : F64} (hy : sign64 y = true) (hz : sign64 z = true) :
    value64 y ≤ value64 z ↔ mag64 z ≤ mag64 y := by
  rw [value64_le, signed64, signed64, hy, hz, if_pos rfl, if_pos rfl, neg_le_neg_iff, Int.ofNat_le]
  exact (unitsOf_strictMono 52).le_iff_le

/-- Where `pow64` asks its enclosure, with any margin `δ` that the enclosure leaves. -/
theorem pow64_fits {y : F64} (hf : isFinite64 y = true) (hz : isZero64 y = false)
    (hlo : sign64 y = true → mag64 y < mag64 pow10Zero) (hhi : sign64 y = false → mag64 y < mag64 pow10Inf) {δ : ℝ} (hδ : 0 ≤ δ)
    (henc : (10 : ℝ) ^ (value64 y : ℝ) - δ ≤ (powEnclosure y).low ∧ (powEnclosure y).high ≤ (10 : ℝ) ^ (value64 y : ℝ) + δ) :
    ∃ least most, (powEnclosure y).Fits false ((10 : ℝ) ^ (value64 y : ℝ)) δ least most ∧
      ∀ rnd d, pow64 rnd d y = pack64 false ((powEnclosure y).magnitude (powRounding rnd y) .pow64 y least most) := by
  have hd := (powEnclosure_near (pow_operand hlo hhi)).1
  simp only [pow64, (finite64_iff.1 hf).1, hz, Bool.false_eq_true, if_false]
  cases hs : sign64 y
  · have hle := Real.one_le_rpow (x := 10) (by norm_num) (value64_of_sign_false hs)
    refine ⟨mag64 one64, inf64, ⟨hd, hδ, ?_, ?_, ?_, .inl rfl, by decide, by decide⟩, fun rnd d => ?_⟩
    · rw [signum_false_mul]; exact henc.1
    · rw [signum_false_mul]; exact henc.2
    · rw [signum_false_mul]; exact least_met (by rw [mag_one_value]; exact hle)
    · simp [powRounding, hs, hhi hs]
  · have hle := Real.rpow_le_one_of_one_le_of_nonpos (x := 10) (by norm_num) (value64_of_sign_true hs)
    refine ⟨0, mag64 one64, ⟨hd, hδ, ?_, ?_, fun _ h => absurd h (Nat.not_lt_zero _), .inr (most_met ?_), by decide, by decide⟩, fun rnd d => ?_⟩
    · rw [signum_false_mul]; exact henc.1
    · rw [signum_false_mul]; exact henc.2
    · rw [signum_false_mul, mag_one_value]; exact hle
    · simp [hlo hs]

/-- From -324 down the power of 10 is below half the smallest subnormal. -/
theorem pow10_tiny {y : F64} (hs : sign64 y = true) (h : mag64 pow10Zero ≤ mag64 y) :
    (10 : ℝ) ^ (value64 y : ℝ) < 1 / unitsPerOne / 2 := by
  have hle : value64 y ≤ value64 pow10Zero := (value64_le_neg hs (by decide)).2 h
  have hX := pow10_mono hle
  have hz : (value64 pow10Zero : ℝ) = -((324 : Nat) : ℝ) := by
    have : value64 pow10Zero = -324 := by decide +kernel
    rw [this]; simp
  rw [hz, Real.rpow_neg (by norm_num), Real.rpow_natCast] at hX
  refine lt_of_le_of_lt hX ?_
  rw [inv_eq_one_div, units_pow, div_div, ← pow_succ]
  refine one_div_lt_one_div_of_lt (pow_pos two_pos _) ?_
  have : 2 ^ (1074 + 1) < 10 ^ 324 := by decide +kernel
  exact_mod_cast this

/-- What is positive is at least the smallest subnormal. -/
theorem unit_le_of_pos {c : F64} (h : 0 < (value64 c : ℝ)) : 1 / (unitsPerOne : ℝ) ≤ value64 c := by
  rw [value64_of_nonneg h.le]
  refine units_pos (a := c) ?_
  simpa [isZero64] using Nat.ne_of_gt (mag64_pos_of_value h)

/-- From `pow10Inf` on, the power of 10 is 2^1024 or more. -/
theorem pow10_huge {y : F64} (hs : sign64 y = false) (h : mag64 pow10Inf ≤ mag64 y) :
    (2 : ℝ) ^ 1024 ≤ (10 : ℝ) ^ (value64 y : ℝ) := by
  exact pow10Inf_iff.2 ((value64_le_pos (by decide) hs).2 h)

theorem value64_zero : value64 zero64 = 0 := by decide +kernel

theorem value64_of_isZero {a : F64} (h : isZero64 a = true) : (value64 a : ℝ) = 0 := by
  have hm : mag64 a = 0 := by simpa [isZero64] using h
  rw [angle_eq, units64, hm, unitsOf_zero]
  simp

/-- The four ways `pow64` answers on a finite operand. -/
theorem pow64_cases {y : F64} (hf : isFinite64 y = true) :
    (isZero64 y = true ∧ ∀ rnd d, pow64 rnd d y = one64) ∨
      (sign64 y = true ∧ mag64 pow10Zero ≤ mag64 y ∧ ∀ rnd d, pow64 rnd d y = zero64) ∨
      (sign64 y = false ∧ mag64 pow10Inf ≤ mag64 y ∧ ∀ rnd d, pow64 rnd d y = posInf64) ∨
      (isZero64 y = false ∧ (sign64 y = true → mag64 y < mag64 pow10Zero) ∧ (sign64 y = false → mag64 y < mag64 pow10Inf)) := by
  have hn := (finite64_iff.1 hf).1
  cases hz : isZero64 y
  · cases hs : sign64 y
    · rcases lt_or_ge (mag64 y) (mag64 pow10Inf) with h | h
      · exact .inr (.inr (.inr ⟨rfl, by simp, fun _ => h⟩))
      · exact .inr (.inr (.inl ⟨rfl, h, fun rnd d => by simp [pow64, hn, hz, hs, h]⟩))
    · rcases lt_or_ge (mag64 y) (mag64 pow10Zero) with h | h
      · exact .inr (.inr (.inr ⟨rfl, fun _ => h, by simp⟩))
      · exact .inr (.inl ⟨rfl, h, fun rnd d => by simp [pow64, hn, hz, hs, h]⟩)
  · exact .inl ⟨rfl, fun rnd d => by simp [pow64, hn, hz]⟩

theorem finite_lt_huge {c : F64} (hc : isFinite64 c = true) : |(value64 c : ℝ)| < 2 ^ 1024 := by
  have hU : (0 : ℝ) < unitsPerOne := Nat.cast_pos.2 unitsPerOne_pos
  rw [abs_value64, div_lt_iff₀ hU, units_pow, ← pow_add]
  exact_mod_cast units64_lt_of_finite hc

theorem value64_posInf : (value64 posInf64 : ℝ) = 2 ^ 1024 := by
  rw [angle_eq, show sign64 posInf64 = false by decide, show units64 posInf64 = 2 ^ 2098 by decide +kernel, units_pow,
    Nat.cast_pow, Nat.cast_ofNat, signum_false_mul, div_eq_iff (pow_ne_zero _ two_ne_zero), ← pow_add]

/-- `pow64` is faithful up to what its enclosure leaves open. -/
theorem pow64_within {rnd : NumRounding} (hr : rnd.Admissible) (d : NanDraw) {y : F64} (hf : isFinite64 y = true) {δ : ℝ}
    (hδ : 0 ≤ δ) (henc : units64 y ≤ 400 * unitsPerOne →
      (10 : ℝ) ^ (value64 y : ℝ) - δ ≤ (powEnclosure y).low ∧ (powEnclosure y).high ≤ (10 : ℝ) ^ (value64 y : ℝ) + δ) :
    FaithfulWithin δ (pow64 rnd d y) ((10 : ℝ) ^ (value64 y : ℝ)) := by
  have hX0 : (0 : ℝ) < (10 : ℝ) ^ (value64 y : ℝ) := Real.rpow_pos_of_pos (by norm_num) _
  rcases pow64_cases hf with ⟨hz, h⟩ | ⟨hs, hm, h⟩ | ⟨hs, hm, h⟩ | ⟨hz, hlo, hhi⟩
  · rw [h]
    refine FaithfulWithin.of_value_eq hδ (by decide) ?_
    rw [value64_one, value64_of_isZero hz, Real.rpow_zero]
  · rw [h]
    have hX := pow10_tiny hs hm
    refine ⟨by decide, fun c _ => ?_⟩
    rw [value64_zero]
    constructor
    · intro h
      refine le_of_not_gt fun hpos => ?_
      have := unit_le_of_pos (by exact_mod_cast hpos : (0 : ℝ) < value64 c)
      have : (0 : ℝ) ≤ 1 / unitsPerOne := div_nonneg zero_le_one (Nat.cast_nonneg _)
      linarith
    · intro h
      have : (0 : ℝ) ≤ value64 c := (add_nonneg hX0.le hδ).trans h
      exact_mod_cast this
  · rw [h]
    have hX := pow10_huge hs hm
    refine ⟨by decide, fun c hc => ?_⟩
    have := lt_of_le_of_lt (le_abs_self _) (finite_lt_huge hc)
    rw [← Rat.cast_le (K := ℝ), ← Rat.cast_le (K := ℝ), value64_posInf]
    exact ⟨fun _ => this.le, fun h => absurd ((hX.trans (le_add_of_nonneg_right hδ)).trans h) (not_le.2 this)⟩
  · have hu := pow_operand hlo hhi
    obtain ⟨least, most, hfit, h⟩ := pow64_fits hf hz hlo hhi hδ (henc hu)
    rw [h]
    exact hfit.faithful (admissible_between (powRounding_admissible hr y) (by have := hfit.proper; omega) _ _)

/-- Only a whole power of 10 is a rational number. -/
theorem whole_of_rational_pow {S : Int} {U : Nat} (hU : 0 < U) {r : ℚ} (h : (r : ℝ) = (10 : ℝ) ^ ((S : ℝ) / U)) :
    (U : Int) ∣ S := by
  have h1 : (r : ℝ) ^ U = (10 : ℝ) ^ S := by
    rw [h, ← Real.rpow_natCast, ← Real.rpow_mul (by norm_num), div_mul_cancel₀ _ (Nat.cast_ne_zero.2 hU.ne'), Real.rpow_intCast]
  have h2 : r ^ U = (10 : ℚ) ^ S := by
    have : ((r ^ U : ℚ) : ℝ) = (((10 : ℚ) ^ S : ℚ) : ℝ) := by push_cast; exact h1
    exact_mod_cast this
  have h3 := congrArg (padicValRat 2) h2
  have : Fact (Nat.Prime 2) := ⟨Nat.prime_two⟩
  rw [padicValRat.pow, padicValRat.zpow] at h3
  have h10 : padicValRat 2 10 = 1 := by
    have : padicValNat 2 10 = 1 := by
      rw [show 10 = 2 * 5 by norm_num, padicValNat.mul (by norm_num) (by norm_num), padicValNat_self,
        padicValNat.eq_zero_of_not_dvd (by norm_num)]
    exact_mod_cast congrArg (Nat.cast : Nat → Int) this
  rw [h10, mul_one] at h3
  exact ⟨_, h3.symm⟩

theorem cos64_zero {a : F64} (hz : isZero64 a = true) (rnd : NumRounding) (d : NanDraw) : cos64 rnd d a = one64 := by
  have ha : isFinite64 a = true := isFinite64_of_mag_zero (by simpa [isZero64] using hz)
  rw [cos64, if_neg (by simp [ha]), if_pos hz]

theorem sin64_zero {a : F64} (hz : isZero64 a = true) (rnd : NumRounding) (d : NanDraw) : sin64 rnd d a = a := by
  have ha : isFinite64 a = true := isFinite64_of_mag_zero (by simpa [isZero64] using hz)
  rw [sin64, if_neg (by simp [ha]), if_pos hz]

theorem tan64_zero {a : F64} (hz : isZero64 a = true) (rnd : NumRounding) (d : NanDraw) : tan64 rnd d a = a := by
  have ha : isFinite64 a = true := isFinite64_of_mag_zero (by simpa [isZero64] using hz)
  rw [tan64, if_neg (by simp [ha]), if_pos hz]

/-! ### Nearest -/

theorem midpoint_ge : (2 : ℝ) ^ 1023 ≤ 2 ^ 1024 - 2 ^ 970 := by
  have h1 : (2 : ℝ) ^ 1024 = 2 * 2 ^ 1023 := pow_succ' 2 1023
  have h2 : (2 : ℝ) ^ 970 ≤ 2 ^ 1023 := pow_le_pow_right₀ one_le_two (by norm_num)
  rw [h1]
  generalize (2 : ℝ) ^ 1023 = p at *
  generalize (2 : ℝ) ^ 970 = q at *
  linarith

theorem lt_midpoint {z : ℝ} {n : Nat} (h : z < 2 ^ n) (hn : n ≤ 1023) : z < (2 : ℝ) ^ 1024 - 2 ^ 970 :=
  (h.trans_le (pow_le_pow_right₀ one_le_two hn)).trans_le midpoint_ge

theorem NearestWithin.of_small {e : ℝ} {r : F64} {x : ℝ} (h : |x| + e < (2 : ℝ) ^ 1024 - 2 ^ 970) (he : 0 ≤ e)
    (hr : isFinite64 r = true ∧ ∀ c : F64, isFinite64 c = true → |(value64 r : ℝ) - x| ≤ |(value64 c : ℝ) - x| + e) :
    NearestWithin e r x :=
  ⟨fun hb => absurd ((le_add_of_nonneg_right he).trans hb) (not_le.2 (lt_of_le_of_lt (le_add_of_nonneg_right he) h)), fun _ => hr⟩

theorem NearestWithin.of_value_eq {e : ℝ} {r : F64} {x : ℝ} (he : 0 ≤ e) (h : |x| + e < (2 : ℝ) ^ 1024 - 2 ^ 970)
    (hf : isFinite64 r = true) (hv : (value64 r : ℝ) = x) : NearestWithin e r x :=
  .of_small h he ⟨hf, fun c _ => by rw [hv, sub_self, abs_zero]; exact add_nonneg (abs_nonneg _) he⟩

theorem margin_le_one (n : Nat) : (1 : ℝ) / 2 ^ n ≤ 1 := (div_le_one (pow_pos two_pos _)).2 (one_le_pow₀ one_le_two)

/-- A result at the midpoint above the largest finite value, or above, goes to the infinity. -/
theorem Enclosure.Fits.overflow {e : Enclosure} {x δ : ℝ} {least most : Nat} (h : e.Fits false x δ least most) (hδ : 0 < δ)
    (hx : (2 : ℝ) ^ 1024 - 2 ^ 970 + 2 * δ ≤ x) : isInf64 (pack64 false (max least (min most e.nearest))) = true := by
  obtain ⟨hden, -, hlow, -, -, hmost, hinf, -⟩ := h
  rw [signum_false_mul] at hlow hmost
  have hU : (0 : ℝ) < unitsPerOne := Nat.cast_pos.2 unitsPerOne_pos
  have hd : 0 < e.den := by omega
  have hd' : (0 : ℝ) < e.den := Nat.cast_pos.2 hd
  have hmid : ((unitsOf 52 (inf64 - 1) + unitsOf 52 inf64 : Nat) : ℝ) = 2 * (2 ^ 1024 - 2 ^ 970) * unitsPerOne := by
    rw [midpoint64, Nat.cast_mul, two_mul_pow_sub (by norm_num)]
  have hn : e.nearest = inf64 := by
    refine le_antisymm (roundNearest_le_inf _ _ _ _) (le_of_not_gt fun hlt => ?_)
    rw [Enclosure.nearest, roundNearest_lt_inf (by decide) hd (by decide) (by decide)] at hlt
    have h1 : e.low ≤ (e.num : ℝ) / e.den / unitsPerOne := by
      rw [Enclosure.low]
      refine div_le_div_of_nonneg_right ?_ hU.le
      exact div_le_div₀ (Nat.cast_nonneg _) (Nat.cast_le.2 (Nat.sub_le _ _)) hd' (Nat.cast_le.2 (Nat.le_add_right _ _))
    have h2 : (2 : ℝ) ^ 1024 - 2 ^ 970 ≤ (e.num : ℝ) / e.den / unitsPerOne := by
      generalize (2 : ℝ) ^ 1024 - 2 ^ 970 = z at *
      linarith
    rw [le_div_iff₀ hU, le_div_iff₀ hd'] at h2
    rw [← Nat.cast_lt (α := ℝ), Nat.cast_mul, Nat.cast_mul, hmid, Nat.cast_ofNat] at hlt
    generalize (2 : ℝ) ^ 1024 - 2 ^ 970 = z at *
    linarith
  have hm : inf64 ≤ most := by
    rcases hmost with hm | hm
    · exact hm.ge
    · refine le_of_not_gt fun hlt => ?_
      have h1 := hm (most + 1) (Nat.lt_succ_self _)
      have h2 := (unitsOf_strictMono 52).monotone (by omega : most ≤ inf64 - 1)
      have h3 := (unitsOf_strictMono 52).monotone (by omega : most + 1 ≤ inf64)
      have h4 : ((unitsOf 52 (most + 1) : ℝ) + unitsOf 52 most) ≤ ((unitsOf 52 (inf64 - 1) + unitsOf 52 inf64 : Nat) : ℝ) := by
        exact_mod_cast (by omega : unitsOf 52 (most + 1) + unitsOf 52 most ≤ unitsOf 52 (inf64 - 1) + unitsOf 52 inf64)
      rw [hmid] at h4
      rw [← add_div, le_div_iff₀ hU] at h1
      have h5 := le_of_mul_le_mul_right (h1.trans h4) hU
      generalize (2 : ℝ) ^ 1024 - 2 ^ 970 = z at *
      linarith
  rw [hn, min_eq_right hm, max_eq_right hinf.le]
  exact isInf64_pack false

theorem Enclosure.magnitude_numCR (e : Enclosure) (f : NumFn) (a : F64) (least most : Nat) :
    e.magnitude numCR f a least most = max least (min most e.nearest) := by rw [Enclosure.magnitude, numCR]

end Sys2Proof.Machine
end

