-- ==== Sys2Proof/Certificates/Slice0/Obligations.lean ====
section
/-! DEFINITION. The statements for the provers. Each docstring says which rule of spec/ it formalises; OBLIGATIONS.json
lists them. Where a statement speaks of a NaN an operation returns it says "a NaN" or names the draw, never bits
(R74); no statement rests on a value of a free constant of Config. -/

open Sys2Proof Sys2Proof.Machine

/-! ### Words and instructions -/

/-- R58: the encoder and the decoder agree, on every instruction. -/
def Obligations.EncodeThenDecodeIsIdentity : Prop :=
  ∀ i : Instr, i.wellFormed = true → decode (encode i) = .ok i

/-- R58, the complete map: a word is decoded as a row's instruction exactly when it selects the row, and every
instruction of the command port and of the kind port has a row. -/
def Obligations.OpcodeMapSelectsInstructions : Prop :=
  (∀ r ∈ stageRows, ∀ w : CmdBits, decode (.cmd w) = .ok r.instr ↔ r.selects w.toNat = true) ∧
    (∀ r ∈ calculatorRows, ∀ w : KindBits, decode (.kind w) = .ok r.instr ↔ r.selects w.toNat = true) ∧
    (∀ (w : CmdBits) (i : Instr), decode (.cmd w) = .ok i → ∃ r ∈ stageRows, r.instr = i) ∧
    (∀ (w : KindBits) (i : Instr), decode (.kind w) = .ok i → ∃ r ∈ calculatorRows, r.instr = i)

/-- R50 to R52, R58: words written out bit by bit as `{op, kind}` are the instructions they stand for, one of every
format. -/
def Obligations.WrittenWordsDecode : Prop :=
  decode (.cmd 0b00000#5) = .ok .nop ∧ decode (.cmd 0b01000#5) = .ok .reset ∧
    decode (.cmd 0b10011#5) = .ok .setcLS ∧ decode (.cmd 0b10110#5) = .ok .setcHS1 ∧
    decode (.cmd 0b11000#5) = .ok .proc ∧ decode (.kind 0b010#3) = .ok .coefPK ∧ decode (.kind 0b101#3) = .ok .coefLS1

/-- R57, R116, R164: the 22 reserved words, listed; after reset an edge with `rst = 0` at which any stage is presented one
with `cmd_valid = 1` is refused, whatever `cmd_ready` and the other stages' ports, and the calculator refuses kind 111. -/
def Obligations.ReservedWordsAreRefused : Prop :=
  (∀ w : CmdBits, (∃ r, decode (.cmd w) = .error r) ↔
    w.toNat ∈ [1, 2, 3, 4, 5, 6, 7, 9, 10, 11, 12, 13, 14, 15, 23, 25, 26, 27, 28, 29, 30, 31]) ∧
  (∀ (s : State) (pins : List StagePins) (rest : List Event), s.host = .clock false pins :: rest → s.resetSeen = true →
    (∃ p ∈ pins, p.cmdValid = true ∧ (CodeWord.cmd p.cmd).wellFormed = false) →
    ∃ q ∈ pins, q.cmdValid = true ∧ (CodeWord.cmd q.cmd).wellFormed = false ∧
      step s = .refused (.reservedCommand q.cmd)) ∧
  (∀ (s : State) (fs freq q g : F64) (rest : List Event),
    s.host = .calculator 0b111#3 fs freq q g :: rest → step s = .refused (.reservedKind 0b111#3))

/-! ### The step -/

/-- R53, R120, R141: at an edge at which one stage accepts a command and no other presents a reserved word, the step is that
instruction executed on that stage, in the state an idle edge leaves (the other stages idle) with the levels of the
stage's ports presented. -/
def Obligations.StepExecutesPresentedCommand : Prop :=
  ∀ (s : State) (before : List StagePins) (p : StagePins) (rest : List Event) (i : Instr),
    s.host = .clock false (before ++ [p]) :: rest → s.resetSeen = true →
    (∀ b ∈ before, s.accepts b = false ∧ b.presentsReserved = false) → s.accepts p = true → i.wellFormed = true →
    decode (.cmd p.cmd) = .ok i →
    step s = exec i ((({ s with host := rest } : State).idleEdge).present before.length p.operands)

/-- R54, R58: when the host evaluates the stand-alone calculator, the step is the function its kind selects, in the
state with the levels of its ports presented. -/
def Obligations.StepExecutesPresentedKind : Prop :=
  ∀ (s : State) (w : KindBits) (fs freq q g : F64) (rest : List Event) (i : Instr),
    s.host = .calculator w fs freq q g :: rest → i.wellFormed = true → decode (.kind w) = .ok i →
    step s = exec i (({ s with host := rest } : State).presentCalc fs freq q g)

/-- R172: an edge with `rst = 1` resets every stage, whatever the ports carry; the commands presented have no effect;
a second such edge repeats the same write; and in the first cycle after it a stage of the chain that is presented a
command executes it, whatever level of `cmd_ready` the host names. That the edge marks the machine as reset (log 2, 25)
and leaves the counter of draws (log 3), the calculator's outputs (log 13) and the levels held for an instruction (log 14)
alone is the model's choice. -/
def Obligations.ResetPinOverridesCommands : Prop :=
  ∀ (s : State) (pins : List StagePins) (rest : List Event), s.host = .clock true pins :: rest →
    ∃ t, step s = .next t ∧ t.stages.length = s.stages.length ∧ (∀ st ∈ t.stages, st = Stage.reset) ∧
      t.resetSeen = true ∧ t.afterRst = true ∧ t.calcOut = s.calcOut ∧ t.draws = s.draws ∧ t.ports = s.ports ∧
      t.active = s.active ∧ t.host = rest ∧
      (∀ (pins' : List StagePins) (rest' : List Event), rest = .clock true pins' :: rest' →
        step t = .next { t with host := rest' }) ∧
      ∀ (before : List StagePins) (p : StagePins) (rest' : List Event) (i : Instr),
        rest = .clock false (before ++ [p]) :: rest' → before.length < s.stages.length →
        (∀ b ∈ before, b.cmdValid = false) → p.cmdValid = true → decode (.cmd p.cmd) = .ok i →
        ∃ u, step t = .next u ∧
          exec i ((({ t with host := rest' } : State).idleEdge).present before.length p.operands) = .next u

/-- R53, R20, R161: a cycle in which no stage accepts a command and none is presented a reserved word (R164) clears
`OUT_VALID` of every stage and changes nothing else, whether the host presents ports or nothing at all (log 1); but the
model's mark of the first cycle after a reset is cleared (log 25). -/
def Obligations.IdleCycleClearsOnlyOutValid : Prop :=
  ∀ s : State, s.resetSeen = true →
    (s.host = [] →
      step s = .next { s with stages := s.stages.map fun st => { st with outValid := false }, afterRst := false }) ∧
      ∀ (pins : List StagePins) (rest : List Event), s.host = .clock false pins :: rest →
        (∀ p ∈ pins, p.cmdValid = false ∨
          (p.cmdReady = false ∧ s.afterRst = false ∧ (CodeWord.cmd p.cmd).wellFormed = true)) →
        step s = .next { s with
          stages := s.stages.map fun st => { st with outValid := false }, afterRst := false, host := rest }

/-- R173: a run whose edges do not begin with a hardware reset is refused. That idle edges are refused too, and an
evaluation of the calculator is not, is the model's reading (log 17). -/
def Obligations.NoEdgeRunsBeforeReset : Prop :=
  ∀ s : State, s.resetSeen = false →
    (s.host = [] → step s = .refused .beforeReset) ∧
      ∀ (pins : List StagePins) (rest : List Event), s.host = .clock false pins :: rest →
        step s = .refused .beforeReset

/-- R142, R185, R141: when the first two stages accept a `PROC` each at one edge, the second consumes what the first
showed on `sample_out` before the edge; the stages after them idle. (The numbers of the draws are the model's own, log 3, 8;
any stages and commands are in `EveryStageAtOneEdgeSeesOldLevels`.) -/
def Obligations.StagesAtOneEdgeSeeOldOutputs : Prop :=
  ∀ (s : State) (st₀ st₁ : Stage) (more : List Stage) (p₀ p₁ : StagePins) (rest : List Event),
    s.stages = st₀ :: st₁ :: more → s.host = .clock false [p₀, p₁] :: rest → s.resetSeen = true →
    s.accepts p₀ = true → s.accepts p₁ = true → p₀.cmd = 0b11000#5 → p₁.cmd = 0b11000#5 →
    ∃ t, step s = .next t ∧ t.host = rest ∧
      t.stages = st₀.process (fun n => Config.nanDraw (s.draws + 64 + n)) p₀.operands.sampleIn ::
        st₁.process (fun n => Config.nanDraw (s.draws + n)) st₀.out ::
        more.map fun st => { st with outValid := false }

/-! ### Reset -/

/-- R24, R170: the value of every register of every stage in the reset state, after an edge with `rst = 1`, and of the
addressed stage after `RESET`. -/
def Obligations.ResetGivesEveryRegisterItsValue : Prop :=
  let isReset (st : Stage) : Prop :=
    st.bank.b0 = 0x3FF0000000000000#64 ∧ st.bank.b1 = 0 ∧ st.bank.b2 = 0 ∧ st.bank.a1 = 0 ∧ st.bank.a2 = 0 ∧
      st.hist.x1 = 0 ∧ st.hist.x2 = 0 ∧ st.hist.y1 = 0 ∧ st.hist.y2 = 0 ∧ st.out = 0 ∧ st.outValid = false
  (∀ st ∈ State.reset.stages, isReset st) ∧
    (∀ (s t : State) (pins : List StagePins) (rest : List Event), s.host = .clock true pins :: rest →
      step s = .next t → ∀ st ∈ t.stages, isReset st) ∧
    (∀ (s : State) (st : Stage), s.stages[s.active]? = some st →
      ∃ t st', exec .reset s = .next t ∧ t.stages[s.active]? = some st' ∧ isReset st')

/-- R140, R6: the chain of the reset state has `N_STAGES` stages, 2 to 4 of them. -/
def Obligations.ResetChainHasTwoToFourStages : Prop :=
  State.reset.stages.length = Config.nStages ∧ 2 ≤ State.reset.stages.length ∧ State.reset.stages.length ≤ 4

/-- R140 ("no mid-life resizing"): no step changes the number of stages. -/
def Obligations.StepKeepsChainLength : Prop :=
  ∀ s t : State, step s = .next t → t.stages.length = s.stages.length

/-- R150, "every command … and every function … completes with a result for every input bit pattern": an edge with
`rst = 1` goes on from every state; after reset so does an idle edge, and every edge whose presented words decode (R164)
and whose accepted ones are at positions the chain has, whatever the operands; and so does every evaluation of the
calculator with a kind other than 111. -/
def Obligations.EveryCommandAndFunctionGoesOn : Prop :=
  ∀ s : State,
    (∀ (pins : List StagePins) (rest : List Event), s.host = .clock true pins :: rest → ∃ t, step s = .next t) ∧
    (s.resetSeen = true → s.host = [] → ∃ t, step s = .next t) ∧
    (∀ (pins : List StagePins) (rest : List Event), s.host = .clock false pins :: rest → s.resetSeen = true →
      (∀ (i : Nat) (p : StagePins), pins[i]? = some p → p.cmdValid = true →
        (∃ ins, decode (.cmd p.cmd) = .ok ins) ∧ (s.accepts p = true → i < s.stages.length)) →
      ∃ t, step s = .next t) ∧
    ∀ (w : KindBits) (fs freq q g : F64) (rest : List Event), s.host = .calculator w fs freq q g :: rest →
      w ≠ 0b111#3 → ∃ t, step s = .next t

/-! ### The stage's commands -/

/-- R121: `NOP` is the word 00000; it completes on every stage the chain has, whatever the operand ports carry, clears
`OUT_VALID`, and leaves the coefficient bank, the history, `OUT` and every other stage as they are. (`n` is the model's
own counter of draws, log 3.) -/
def Obligations.NopChangesOnlyOutValid : Prop :=
  encode .nop = .cmd 0b00000#5 ∧ ∀ (s : State) (st : Stage), s.stages[s.active]? = some st → ∃ n,
    exec .nop s = .next { s with stages := s.stages.set s.active { st with outValid := false }, draws := n }

/-- R122: `RESET` is the word 01000; it completes on every stage the chain has and writes all eleven registers; a second
one changes no stage. -/
def Obligations.ResetCommandWritesEveryRegister : Prop :=
  encode .reset = .cmd 0b01000#5 ∧ ∀ (s : State) (st : Stage), s.stages[s.active]? = some st →
    ∃ t, exec .reset s = .next t ∧
      t = { s with
        stages := s.stages.set s.active ⟨⟨0x3FF0000000000000#64, 0, 0, 0, 0⟩, ⟨0, 0, 0, 0⟩, 0, false⟩,
        draws := s.draws + 64 } ∧
      ∃ u, exec .reset t = .next u ∧ u.stages = t.stages

/-- R123, R58: each `SETC.<k>` completes on every stage the chain has; it loads the bank, whole, with what `COEF.<k>` of
the same operand ports gives, clears `OUT_VALID`, and leaves the history, `OUT` and every other stage as they are. -/
def Obligations.SetcLoadsWhatCoefGives : Prop :=
  ∀ setc coef : Instr, (setc, coef) ∈ [(Instr.setcLP, Instr.coefLP), (.setcHP, .coefHP), (.setcPK, .coefPK),
      (.setcLS, .coefLS), (.setcHS, .coefHS), (.setcLS1, .coefLS1), (.setcHS1, .coefHS1)] →
    ∀ (s : State) (st : Stage), s.stages[s.active]? = some st →
      ∃ u, exec coef s = .next u ∧
        exec setc s = .next { s with
          stages := s.stages.set s.active { st with bank := u.calcOut, outValid := false }, draws := s.draws + 64 }

/-- R131: `PROC` is the word 11000; it completes on every stage the chain has, whatever the operand and the state, and
writes exactly what the rule's pseudocode writes, for some draw `d` of the NaNs (R74). (`n` is the model's own counter of
draws, log 3; which draws they are is said in `StagesAtOneEdgeSeeOldOutputs`.) -/
def Obligations.ProcComputesTheRecursion : Prop :=
  encode .proc = .cmd 0b11000#5 ∧ ∀ (s : State) (st : Stage), s.stages[s.active]? = some st →
    ∃ (d : Nat → NanDraw) (n : Nat),
    let inp := widen (d 0) s.ports.sampleIn
    let t0 := fmul (d 1) st.bank.b0 inp
    let t1 := fadd (d 3) t0 (fmul (d 2) st.bank.b1 st.hist.x1)
    let t2 := fadd (d 5) t1 (fmul (d 4) st.bank.b2 st.hist.x2)
    let t3 := fsub (d 7) t2 (fmul (d 6) st.bank.a1 st.hist.y1)
    let raw := fsub (d 9) t3 (fmul (d 8) st.bank.a2 st.hist.y2)
    let out := if flt (fabs raw) 0x3BC79CA10C924223#64 then 0x0000000000000000#64 else raw
    exec .proc s = .next { s with
      stages := s.stages.set s.active ⟨st.bank, ⟨inp, st.hist.x1, out, st.hist.y1⟩, narrow (d 10) out, true⟩,
      draws := n }

/-- R26, the access matrix: what each command, a hardware reset and an idle cycle leave alone and write, for the stage
they act on. (The numbers of the NaN draws of `PROC` are the model's own, log 3.) -/
def Obligations.AccessMatrix : Prop :=
  (∀ (s t : State) (st st' : Stage), s.stages[s.active]? = some st → t.stages[s.active]? = some st' →
    (exec .nop s = .next t → st'.bank = st.bank ∧ st'.hist = st.hist ∧ st'.out = st.out ∧ st'.outValid = false) ∧
    (exec .reset s = .next t → st'.bank = ⟨0x3FF0000000000000#64, 0, 0, 0, 0⟩ ∧ st'.hist = ⟨0, 0, 0, 0⟩ ∧ st'.out = 0 ∧
      st'.outValid = false) ∧
    (∀ k, exec (.setc k) s = .next t → st'.bank = s.calculate k ∧ st'.hist = st.hist ∧ st'.out = st.out ∧
      st'.outValid = false) ∧
    (exec .proc s = .next t → st'.bank = st.bank ∧ st'.hist.x2 = st.hist.x1 ∧ st'.hist.y2 = st.hist.y1 ∧
      st'.hist.x1 = widen (s.nanDraw 0) s.ports.sampleIn ∧
      st'.hist.y1 = squelch (rawOf s.nanDraw st.bank st.hist (widen (s.nanDraw 0) s.ports.sampleIn)) ∧
      st'.out = narrow (s.nanDraw 10) st'.hist.y1 ∧
      st'.outValid = true)) ∧
  (∀ (s t : State) (rst : Bool) (pins : List StagePins), clockEdge rst pins s = .next t →
    (∀ p ∈ pins, s.accepts p = false) → ∀ (i : Nat) (st st' : Stage), s.stages[i]? = some st → t.stages[i]? = some st' →
    st'.outValid = false ∧
      (rst = true → st'.bank = ⟨0x3FF0000000000000#64, 0, 0, 0, 0⟩ ∧ st'.hist = ⟨0, 0, 0, 0⟩ ∧ st'.out = 0) ∧
      (rst = false → st'.bank = st.bank ∧ st'.hist = st.hist ∧ st'.out = st.out))

/-- R144, R11: an instruction leaves alone every stage it is not addressed to; a stage's command leaves the stand-alone
calculator's ports alone, and a function of the stand-alone calculator every stage; nothing an instruction does changes
what the host presents next or that the machine has been reset. Each uses draws of its own, numbers that no
other uses (log 3). -/
def Obligations.CommandTouchesOneStage : Prop :=
  ∀ (i : Instr) (s t : State), exec i s = .next t →
    (∀ j, j ≠ s.active → t.stages[j]? = s.stages[j]?) ∧ t.stages.length = s.stages.length ∧
      ((∃ w, encode i = .cmd w) → t.calcOut = s.calcOut) ∧ ((∃ w, encode i = .kind w) → t.stages = s.stages) ∧
      t.resetSeen = s.resetSeen ∧ t.afterRst = s.afterRst ∧ t.host = s.host ∧ t.ports = s.ports ∧ t.active = s.active ∧
      t.draws = s.draws + 64

/-- R20: after a clock edge that does not reset, `OUT_VALID` of a stage is 1 exactly when the stage accepted a `PROC` at
that edge. -/
def Obligations.OutValidExactlyAfterProc : Prop :=
  ∀ (s t : State) (pins : List StagePins) (rest : List Event), s.host = .clock false pins :: rest → step s = .next t →
    ∀ (i : Nat) (st : Stage), t.stages[i]? = some st →
      (st.outValid = true ↔ ∃ p, pins[i]? = some p ∧ s.accepts p = true ∧ decode (.cmd p.cmd) = .ok .proc)

/-- R61: a cycle in which a `NOP` is accepted leaves every stage as an idle cycle does. -/
def Obligations.NopEqualsIdleCycle : Prop :=
  ∀ (s : State) (i : Nat), i < s.stages.length → s.resetSeen = true →
    ∃ t u, step { s with host := AsmLine.expand s.stages.length (.nop i) } = .next t ∧
      step { s with host := AsmLine.expand s.stages.length .idle } = .next u ∧ t.stages = u.stages

/-- R56, R114: the ports an instruction does not consume may carry any bits: they change nothing of what it does. -/
def Obligations.UnconsumedPortsDoNotMatter : Prop :=
  ∀ (i : Instr) (s t : State) (o : Operands), consumedBy i o = consumedBy i s.ports → exec i s = .next t →
    exec i { s with ports := o } = .next { t with ports := o }

/-! ### The calculator -/

/-- R101: the check of the contract compares real values. -/
def Obligations.ContractComparesRealValues : Prop :=
  ∀ (k : FilterKind) (o : Operands), inContract k o = true ↔ ValidSpec k o

/-- R103: `COEF.LP` completes and drives the outputs with the rule's tree, normalised (R112). -/
def Obligations.CoefLowPassFollowsItsTree : Prop :=
  ∀ s : State, ValidSpec .lp s.ports →
    let d := s.nanDraw
    let omega := fdiv (d 2) (fmul (d 1) 0x401921FB54442D18#64 s.ports.freq) s.ports.fs
    let cs := cos64 numHW (d 3) omega
    let sn := sin64 numHW (d 4) omega
    let alpha := fdiv (d 6) sn (fmul (d 5) 0x4000000000000000#64 s.ports.q)
    let t := fsub (d 10) 0x3FF0000000000000#64 cs
    let a0 := fadd (d 13) 0x3FF0000000000000#64 alpha
    exec .coefLP s = .next { s with
      calcOut := ⟨fdiv (d 40) (fdiv (d 11) t 0x4000000000000000#64) a0, fdiv (d 41) t a0,
        fdiv (d 42) (fdiv (d 12) t 0x4000000000000000#64) a0, fdiv (d 43) (fmul (d 14) 0xC000000000000000#64 cs) a0,
        fdiv (d 44) (fsub (d 15) 0x3FF0000000000000#64 alpha) a0⟩,
      draws := s.draws + 64 }

/-- R104: `COEF.HP`, likewise. -/
def Obligations.CoefHighPassFollowsItsTree : Prop :=
  ∀ s : State, ValidSpec .hp s.ports →
    let d := s.nanDraw
    let omega := fdiv (d 2) (fmul (d 1) 0x401921FB54442D18#64 s.ports.freq) s.ports.fs
    let cs := cos64 numHW (d 3) omega
    let sn := sin64 numHW (d 4) omega
    let alpha := fdiv (d 6) sn (fmul (d 5) 0x4000000000000000#64 s.ports.q)
    let t := fadd (d 10) 0x3FF0000000000000#64 cs
    let a0 := fadd (d 13) 0x3FF0000000000000#64 alpha
    exec .coefHP s = .next { s with
      calcOut := ⟨fdiv (d 40) (fdiv (d 11) t 0x4000000000000000#64) a0, fdiv (d 41) (fneg t) a0,
        fdiv (d 42) (fdiv (d 12) t 0x4000000000000000#64) a0, fdiv (d 43) (fmul (d 14) 0xC000000000000000#64 cs) a0,
        fdiv (d 44) (fsub (d 15) 0x3FF0000000000000#64 alpha) a0⟩,
      draws := s.draws + 64 }

/-- R105: `COEF.PK`, likewise. -/
def Obligations.CoefPeakingFollowsItsTree : Prop :=
  ∀ s : State, ValidSpec .pk s.ports →
    let d := s.nanDraw
    let omega := fdiv (d 2) (fmul (d 1) 0x401921FB54442D18#64 s.ports.freq) s.ports.fs
    let cs := cos64 numHW (d 3) omega
    let sn := sin64 numHW (d 4) omega
    let alpha := fdiv (d 6) sn (fmul (d 5) 0x4000000000000000#64 s.ports.q)
    let A := pow64 numHW (d 8) (fdiv (d 7) s.ports.gainDb 0x4044000000000000#64)
    let u := fmul (d 10) alpha A
    let v := fdiv (d 11) alpha A
    let a0 := fadd (d 15) 0x3FF0000000000000#64 v
    exec .coefPK s = .next { s with
      calcOut := ⟨fdiv (d 40) (fadd (d 12) 0x3FF0000000000000#64 u) a0,
        fdiv (d 41) (fmul (d 13) 0xC000000000000000#64 cs) a0, fdiv (d 42) (fsub (d 14) 0x3FF0000000000000#64 u) a0,
        fdiv (d 43) (fmul (d 16) 0xC000000000000000#64 cs) a0, fdiv (d 44) (fsub (d 17) 0x3FF0000000000000#64 v) a0⟩,
      draws := s.draws + 64 }

/-- R106, R107: `COEF.LS`, likewise. -/
def Obligations.CoefLowShelfFollowsItsTree : Prop :=
  ∀ s : State, ValidSpec .ls s.ports →
    let d := s.nanDraw
    let omega := fdiv (d 2) (fmul (d 1) 0x401921FB54442D18#64 s.ports.freq) s.ports.fs
    let cs := cos64 numHW (d 3) omega
    let sn := sin64 numHW (d 4) omega
    let alpha := fdiv (d 6) sn (fmul (d 5) 0x4000000000000000#64 s.ports.q)
    let A := pow64 numHW (d 8) (fdiv (d 7) s.ports.gainDb 0x4044000000000000#64)
    let Ap1 := fadd (d 10) A 0x3FF0000000000000#64
    let Am1 := fsub (d 11) A 0x3FF0000000000000#64
    let beta := fmul (d 14) (fmul (d 13) 0x4000000000000000#64 (fsqrt (d 12) A)) alpha
    let pm := fsub (d 16) Ap1 (fmul (d 15) Am1 cs)
    let pp := fadd (d 18) Ap1 (fmul (d 17) Am1 cs)
    let mm := fsub (d 20) Am1 (fmul (d 19) Ap1 cs)
    let mp := fadd (d 22) Am1 (fmul (d 21) Ap1 cs)
    let a0 := fadd (d 29) pp beta
    exec .coefLS s = .next { s with
      calcOut := ⟨fdiv (d 40) (fmul (d 24) A (fadd (d 23) pm beta)) a0,
        fdiv (d 41) (fmul (d 26) (fmul (d 25) 0x4000000000000000#64 A) mm) a0,
        fdiv (d 42) (fmul (d 28) A (fsub (d 27) pm beta)) a0, fdiv (d 43) (fmul (d 30) 0xC000000000000000#64 mp) a0,
        fdiv (d 44) (fsub (d 31) pp beta) a0⟩,
      draws := s.draws + 64 }

/-- R106, R108: `COEF.HS`, likewise. -/
def Obligations.CoefHighShelfFollowsItsTree : Prop :=
  ∀ s : State, ValidSpec .hs s.ports →
    let d := s.nanDraw
    let omega := fdiv (d 2) (fmul (d 1) 0x401921FB54442D18#64 s.ports.freq) s.ports.fs
    let cs := cos64 numHW (d 3) omega
    let sn := sin64 numHW (d 4) omega
    let alpha := fdiv (d 6) sn (fmul (d 5) 0x4000000000000000#64 s.ports.q)
    let A := pow64 numHW (d 8) (fdiv (d 7) s.ports.gainDb 0x4044000000000000#64)
    let Ap1 := fadd (d 10) A 0x3FF0000000000000#64
    let Am1 := fsub (d 11) A 0x3FF0000000000000#64
    let beta := fmul (d 14) (fmul (d 13) 0x4000000000000000#64 (fsqrt (d 12) A)) alpha
    let pm := fsub (d 16) Ap1 (fmul (d 15) Am1 cs)
    let pp := fadd (d 18) Ap1 (fmul (d 17) Am1 cs)
    let mm := fsub (d 20) Am1 (fmul (d 19) Ap1 cs)
    let mp := fadd (d 22) Am1 (fmul (d 21) Ap1 cs)
    let a0 := fadd (d 29) pm beta
    exec .coefHS s = .next { s with
      calcOut := ⟨fdiv (d 40) (fmul (d 24) A (fadd (d 23) pp beta)) a0,
        fdiv (d 41) (fmul (d 26) (fmul (d 25) 0xC000000000000000#64 A) mp) a0,
        fdiv (d 42) (fmul (d 28) A (fsub (d 27) pp beta)) a0, fdiv (d 43) (fmul (d 30) 0x4000000000000000#64 mm) a0,
        fdiv (d 44) (fsub (d 31) pm beta) a0⟩,
      draws := s.draws + 64 }

/-- R109, R110: `COEF.LS1`, likewise; the division by `a0 = 1.0` is written out, and `b2` and `a2` are `+0`. -/
def Obligations.CoefFirstOrderLowShelfFollowsItsTree : Prop :=
  ∀ s : State, ValidSpec .ls1 s.ports →
    let d := s.nanDraw
    let K := tan64 numHW (d 12) (fdiv (d 11) (fmul (d 10) 0x400921FB54442D18#64 s.ports.freq) s.ports.fs)
    let A := pow64 numHW (d 8) (fdiv (d 7) s.ports.gainDb 0x4044000000000000#64)
    let V0 := fmul (d 13) A A
    let norm := fdiv (d 15) 0x3FF0000000000000#64 (fadd (d 14) 0x3FF0000000000000#64 K)
    let w := fmul (d 16) V0 K
    exec .coefLS1 s = .next { s with
      calcOut := ⟨fdiv (d 40) (fmul (d 18) (fadd (d 17) w 0x3FF0000000000000#64) norm) 0x3FF0000000000000#64,
        fdiv (d 41) (fmul (d 20) (fsub (d 19) w 0x3FF0000000000000#64) norm) 0x3FF0000000000000#64, 0,
        fdiv (d 43) (fmul (d 22) (fsub (d 21) K 0x3FF0000000000000#64) norm) 0x3FF0000000000000#64, 0⟩,
      draws := s.draws + 64 }

/-- R109, R111: `COEF.HS1`, likewise. -/
def Obligations.CoefFirstOrderHighShelfFollowsItsTree : Prop :=
  ∀ s : State, ValidSpec .hs1 s.ports →
    let d := s.nanDraw
    let K := tan64 numHW (d 12) (fdiv (d 11) (fmul (d 10) 0x400921FB54442D18#64 s.ports.freq) s.ports.fs)
    let A := pow64 numHW (d 8) (fdiv (d 7) s.ports.gainDb 0x4044000000000000#64)
    let V0 := fmul (d 13) A A
    let norm := fdiv (d 15) 0x3FF0000000000000#64 (fadd (d 14) 0x3FF0000000000000#64 K)
    exec .coefHS1 s = .next { s with
      calcOut := ⟨fdiv (d 40) (fmul (d 17) (fadd (d 16) K V0) norm) 0x3FF0000000000000#64,
        fdiv (d 41) (fmul (d 19) (fsub (d 18) K V0) norm) 0x3FF0000000000000#64, 0,
        fdiv (d 43) (fmul (d 21) (fsub (d 20) K 0x3FF0000000000000#64) norm) 0x3FF0000000000000#64, 0⟩,
      draws := s.draws + 64 }

/-- R113: out of contract the five results are a free draw: five free constants, at draw numbers no other command of
the run uses. -/
def Obligations.OutOfContractCoefficientsAreFree : Prop :=
  ∀ (k : FilterKind) (s : State), ¬ ValidSpec k s.ports →
    exec (.coef k) s = .next { s with
      calcOut := ⟨Config.anyCoefficient s.draws, Config.anyCoefficient (s.draws + 1),
        Config.anyCoefficient (s.draws + 2), Config.anyCoefficient (s.draws + 3), Config.anyCoefficient (s.draws + 4)⟩,
      draws := s.draws + 64 }

/-- R100, R76, R74: the calculator is deterministic up to the NaN draws: when its five results are no NaNs, every other
way of drawing NaNs gives the same five, for every `NUM`. -/
def Obligations.CalculatorIsDeterministicUpToNans : Prop :=
  ∀ (rnd : NumRounding) (d d' : Nat → NanDraw) (k : FilterKind) (o : Operands),
    NoNaN (calcTrees rnd d k o) → calcTrees rnd d' k o = calcTrees rnd d k o

/-- R103, R104, corner cases: for every `NUM`, `b0 = b2` of `LP` and of `HP`, and the two kinds share `a1` and `a2`. -/
def Obligations.LowAndHighPassShareDenominator : Prop :=
  ∀ (rnd : NumRounding) (d : Nat → NanDraw) (o : Operands),
    let l := calcTrees rnd d .lp o
    let h := calcTrees rnd d .hp o
    SameOrNaN l.b0 l.b2 ∧ SameOrNaN h.b0 h.b2 ∧ SameOrNaN l.a1 h.a1 ∧ SameOrNaN l.a2 h.a2

/-- R105, R107, R108, R110, R111, corner cases: at `gain_db = ±0`, wherever no NaN arises, `b1 = a1` for the kinds that use
the gain, and `b0 = 1.0` and `b2 = a2` for the second-order ones; for the two second-order shelves `b1 = a1` needs a cosine
that is not a zero. (`b0` of the first-order ones is in `FirstOrderUnityAtZeroGain`.) -/
def Obligations.ZeroGainIsIdentity : Prop :=
  ∀ (rnd : NumRounding) (d : Nat → NanDraw) (o : Operands), mag64 o.gainDb = 0 →
    (∀ k ∈ [FilterKind.pk, .ls, .hs],
      let c := calcTrees rnd d k o
      (c.b0 = 0x3FF0000000000000#64 ∨ isNaN64 c.b0 = true) ∧ SameOrNaN c.b2 c.a2) ∧
    (∀ k ∈ [FilterKind.pk, .ls1, .hs1], SameOrNaN (calcTrees rnd d k o).b1 (calcTrees rnd d k o).a1) ∧
    (mag64 (csOf rnd d o) ≠ 0 →
      ∀ k ∈ [FilterKind.ls, .hs], SameOrNaN (calcTrees rnd d k o).b1 (calcTrees rnd d k o).a1)

/-- R112, R110, R111: for the first-order kinds the final step changes nothing, `b2` and `a2` are `+0`, and the two kinds
share `a1`. -/
def Obligations.FirstOrderFinalStepIsIdentity : Prop :=
  ∀ (rnd : NumRounding) (d : Nat → NanDraw) (o : Operands), ∀ k ∈ [FilterKind.ls1, .hs1],
    let c := calcTrees rnd d k o
    let p := preNorm rnd d o k
    c.b2 = 0 ∧ c.a2 = 0 ∧ SameOrNaN c.b0 p.b0 ∧ SameOrNaN c.b1 p.b1 ∧ SameOrNaN c.a1 p.a1 ∧
      SameOrNaN c.a1 (calcTrees rnd d .ls1 o).a1

/-! ### Numerics -/

/-- R71, R72: the four rational operations return the exact result, rounded once to nearest, ties to even. -/
def Obligations.BasicOperationsRoundToNearestEven : Prop :=
  ∀ (d : NanDraw) (a b : F64), isFinite64 a = true → isFinite64 b = true →
    NearestEven64 (fadd d a b) ((value64 a : ℝ) + value64 b) ∧ NearestEven64 (fsub d a b) ((value64 a : ℝ) - value64 b) ∧
      NearestEven64 (fmul d a b) ((value64 a : ℝ) * value64 b) ∧
      (mag64 b ≠ 0 → NearestEven64 (fdiv d a b) ((value64 a : ℝ) / value64 b))

/-- R71, R72: the square root of a finite value that is not negative, rounded once to nearest, ties to even. -/
def Obligations.SquareRootRoundsToNearestEven : Prop :=
  ∀ (d : NanDraw) (a : F64), isFinite64 a = true → 0 ≤ value64 a →
    NearestEven64 (fsqrt d a) (Real.sqrt (value64 a : ℝ))

/-- R73, the whole table of special cases; a result is too large when the exact one is not below the midpoint between
the largest finite value and 2^1024 (R71). -/
def Obligations.SpecialCasesOfBasicOperations : Prop :=
  ∀ (d : NanDraw) (a b : F64),
    (isNaN64 a = true ∨ isNaN64 b = true → isQuietNaN64 (fadd d a b) = true ∧ isQuietNaN64 (fsub d a b) = true ∧
      isQuietNaN64 (fmul d a b) = true ∧ isQuietNaN64 (fdiv d a b) = true) ∧
    (isNaN64 a = true → isQuietNaN64 (fsqrt d a) = true) ∧
    (isInf64 a = true → isInf64 b = true →
      (sign64 a ≠ sign64 b → isQuietNaN64 (fadd d a b) = true) ∧ (sign64 a = sign64 b → isQuietNaN64 (fsub d a b) = true) ∧
      isQuietNaN64 (fdiv d a b) = true) ∧
    (mag64 a = 0 → isInf64 b = true → isQuietNaN64 (fmul d a b) = true ∧ isQuietNaN64 (fmul d b a) = true) ∧
    (mag64 a = 0 → mag64 b = 0 → isQuietNaN64 (fdiv d a b) = true) ∧
    (isFinite64 a = true → mag64 a ≠ 0 → mag64 b = 0 →
      isInf64 (fdiv d a b) = true ∧ sign64 (fdiv d a b) = (sign64 a != sign64 b)) ∧
    (isFinite64 a = true → isInf64 b = true → mag64 (fdiv d a b) = 0 ∧ sign64 (fdiv d a b) = (sign64 a != sign64 b)) ∧
    (isNaN64 a = false → sign64 a = true → mag64 a ≠ 0 → isQuietNaN64 (fsqrt d a) = true) ∧
    fsqrt d 0x8000000000000000#64 = 0x8000000000000000#64 ∧ fsqrt d 0x7FF0000000000000#64 = 0x7FF0000000000000#64 ∧
    (isFinite64 a = true → fadd d a (fneg a) = 0 ∧ fsub d a a = 0) ∧
    fadd d 0 0x8000000000000000#64 = 0 ∧ fadd d 0x8000000000000000#64 0 = 0 ∧
    fadd d 0x8000000000000000#64 0x8000000000000000#64 = 0x8000000000000000#64 ∧
    (isNaN64 a = false → mag64 a ≠ 0 → mag64 b = 0 → fadd d a b = a ∧ fsub d a b = a) ∧
    (isFinite64 a = true → mag64 b = 0 → mag64 (fmul d a b) = 0 ∧ sign64 (fmul d a b) = (sign64 a != sign64 b)) ∧
    (isNaN64 a = false → fmul d 0x3FF0000000000000#64 a = a ∧ fdiv d a 0x3FF0000000000000#64 = a) ∧
    (isFinite64 a = true → isFinite64 b = true →
      ((2 : ℚ) ^ 1024 - 2 ^ 970 ≤ |value64 a + value64 b| →
        isInf64 (fadd d a b) = true ∧ sign64 (fadd d a b) = decide (value64 a + value64 b < 0)) ∧
      ((2 : ℚ) ^ 1024 - 2 ^ 970 ≤ |value64 a - value64 b| →
        isInf64 (fsub d a b) = true ∧ sign64 (fsub d a b) = decide (value64 a - value64 b < 0)) ∧
      ((2 : ℚ) ^ 1024 - 2 ^ 970 ≤ |value64 a * value64 b| →
        isInf64 (fmul d a b) = true ∧ sign64 (fmul d a b) = (sign64 a != sign64 b)) ∧
      (mag64 b ≠ 0 → (2 : ℚ) ^ 1024 - 2 ^ 970 ≤ |value64 a / value64 b| →
        isInf64 (fdiv d a b) = true ∧ sign64 (fdiv d a b) = (sign64 a != sign64 b)))

/-- R74: a NaN that a primitive returns is a quiet one, and every quiet NaN is one that could be drawn. -/
def Obligations.NanResultsAreQuiet : Prop :=
  (∀ (rnd : NumRounding) (d : NanDraw) (a b : F64), ∀ r ∈ [fadd d a b, fsub d a b, fmul d a b, fdiv d a b, fsqrt d a,
      cos64 rnd d a, sin64 rnd d a, tan64 rnd d a, pow64 rnd d a], isNaN64 r = true → isQuietNaN64 r = true) ∧
    (∀ (d : NanDraw) (x : F32), isNaN64 (widen d x) = true → isQuietNaN64 (widen d x) = true) ∧
    (∀ (d : NanDraw) (a : F64), isNaN32 (narrow d a) = true → isQuietNaN32 (narrow d a) = true) ∧
    (∀ q : F64, isQuietNaN64 q = true → ∃ d, nan64 d = q) ∧ ∀ q : F32, isQuietNaN32 q = true → ∃ d, nan32 d = q

/-- R72: `fneg` and `fabs` act on the sign bit alone, of every pattern; `flt` compares real values, is false on a NaN,
takes an infinity to lie beyond every finite value, and of two infinities only `-Inf` to lie below `+Inf`. -/
def Obligations.SignsAndComparison : Prop :=
  (∀ a : F64, mag64 (fneg a) = mag64 a ∧ sign64 (fneg a) = !sign64 a ∧ mag64 (fabs a) = mag64 a ∧ sign64 (fabs a) = false) ∧
    (∀ a b : F64, isFinite64 a = true → isFinite64 b = true → (flt a b = true ↔ value64 a < value64 b)) ∧
    (∀ a b : F64, isNaN64 a = true ∨ isNaN64 b = true → flt a b = false) ∧
    (∀ a b : F64, isFinite64 a = true → isInf64 b = true → flt a b = !sign64 b ∧ flt b a = sign64 b) ∧
    ∀ a b : F64, isInf64 a = true → isInf64 b = true → flt a b = (sign64 a && !sign64 b)

/-- R80: `widen` is exact on every binary32 value, keeps the sign of a zero and of an infinity, and maps a NaN to a
quiet NaN; a non-zero value, a subnormal one too, becomes a normal binary64 value; and the rule's example. -/
def Obligations.WidenIsExact : Prop :=
  (∀ (d : NanDraw) (x : F32), isFinite32 x = true →
    isFinite64 (widen d x) = true ∧ value64 (widen d x) = value32 x ∧ sign64 (widen d x) = sign32 x ∧
      (mag32 x ≠ 0 → 2 ^ 52 ≤ mag64 (widen d x))) ∧
    (∀ (d : NanDraw) (x : F32), isInf32 x = true → isInf64 (widen d x) = true ∧ sign64 (widen d x) = sign32 x) ∧
    (∀ (d : NanDraw) (x : F32), isNaN32 x = true → isQuietNaN64 (widen d x) = true) ∧
    ∀ d : NanDraw, widen d 0x3DCCCCCD#32 = 0x3FB99999A0000000#64

/-- R81: `narrow` rounds to the nearest binary32, ties to even; zeros and infinities keep their sign; a NaN becomes a
quiet NaN; small values become zeros, values from 2^128 - 2^103 on infinities; it is monotonic, it undoes `widen`, and the rule's examples. -/
def Obligations.NarrowRoundsToNearestEven : Prop :=
  (∀ (d : NanDraw) (v : F64), isFinite64 v = true → NearestEven32 (narrow d v) (value64 v : ℝ) ∧
    sign32 (narrow d v) = sign64 v ∧ (|(value64 v : ℝ)| ≤ 1 / 2 ^ 150 → mag32 (narrow d v) = 0) ∧
    ((2 : ℝ) ^ 128 - 2 ^ 103 ≤ |(value64 v : ℝ)| → isInf32 (narrow d v) = true)) ∧
    (∀ (d : NanDraw) (v : F64), isInf64 v = true → isInf32 (narrow d v) = true ∧ sign32 (narrow d v) = sign64 v) ∧
    (∀ (d : NanDraw) (v : F64), isNaN64 v = true → isQuietNaN32 (narrow d v) = true) ∧
    (∀ (d : NanDraw) (a b : F64), isNaN64 a = false → isNaN64 b = false → signed64 a ≤ signed64 b →
      signed32 (narrow d a) ≤ signed32 (narrow d b)) ∧
    (∀ (d d' : NanDraw) (x : F32), isNaN32 x = false → narrow d (widen d' x) = x) ∧
    ∀ d : NanDraw, narrow d 0x3F700A5B3EF1D8DC#64 = 0x3B8052DA#32 ∧ narrow d 0x3BC79CA10C924223#64 = 0x1E3CE508#32 ∧
      narrow d 0x480FFFFFE0000000#64 = 0x7F800000#32

/-- R77 `NUM.special` and `NUM.exact_points`, of the hardware's own `NUM` and of every other: `pow64` is `+Inf` where the
power of 10 is 2^1024 or more; below 2^-1022 every `NUM` gives what `NUM_CR` gives (how near that is to the power is in
`ReferenceNumIsNearest`), and `+0` from -324 down. -/
def Obligations.NumSpecialValuesAndExactPoints : Prop :=
  ∀ (rnd : NumRounding) (d : NanDraw),
    (∀ a : F64, isFinite64 a = false → isQuietNaN64 (cos64 rnd d a) = true ∧ isQuietNaN64 (sin64 rnd d a) = true ∧
      isQuietNaN64 (tan64 rnd d a) = true) ∧
    (∀ y : F64, isNaN64 y = true → isQuietNaN64 (pow64 rnd d y) = true) ∧
    pow64 rnd d 0x7FF0000000000000#64 = 0x7FF0000000000000#64 ∧ pow64 rnd d 0xFFF0000000000000#64 = 0 ∧
    (∀ y : F64, isFinite64 y = true → (2 : ℝ) ^ 1024 ≤ (10 : ℝ) ^ (value64 y : ℝ) →
      pow64 rnd d y = 0x7FF0000000000000#64) ∧
    (∀ y : F64, isFinite64 y = true → (10 : ℝ) ^ (value64 y : ℝ) < 1 / 2 ^ 1022 →
      pow64 rnd d y = pow64 numCR d y ∧ (value64 y ≤ -324 → pow64 rnd d y = 0)) ∧
    (∀ z ∈ [0x0000000000000000#64, 0x8000000000000000#64],
      cos64 rnd d z = 0x3FF0000000000000#64 ∧ sin64 rnd d z = z ∧ tan64 rnd d z = z ∧ pow64 rnd d z = 0x3FF0000000000000#64)

/-- R77 `NUM.range` and `NUM.sign`, of the hardware's own `NUM` and of every other. -/
def Obligations.NumRangeAndSign : Prop :=
  ∀ (rnd : NumRounding) (d : NanDraw) (a : F64), isFinite64 a = true →
    (isFinite64 (cos64 rnd d a) = true ∧ |value64 (cos64 rnd d a)| ≤ 1) ∧
    (isFinite64 (sin64 rnd d a) = true ∧ |value64 (sin64 rnd d a)| ≤ 1) ∧
    (isNaN64 (pow64 rnd d a) = false ∧ sign64 (pow64 rnd d a) = false) ∧
    (0 < value64 a → value64 a < value64 0x400921FB54442D18#64 → 0 < value64 (sin64 rnd d a)) ∧
    (0 < value64 a → value64 a ≤ value64 0x3FF921FB54442D18#64 →
      0 < value64 (cos64 rnd d a) ∧ isNaN64 (tan64 rnd d a) = false ∧ 0 < signed64 (tan64 rnd d a))

/-! ### What a stage does to a signal -/

/-- R132: the threshold is the binary64 nearest to 10^-20; a finite `raw` strictly below it in magnitude becomes `+0`,
every other `raw`, a NaN and an infinity among them, is kept; the squelched value is what enters `y1` and what is
narrowed, and `x1` and `x2` are stored as received. -/
def Obligations.SquelchIsStrictAndOnTheFinalSum : Prop :=
  (∀ c : F64, isFinite64 c = true → |(value64 0x3BC79CA10C924223#64) - 1 / 10 ^ 20| ≤ |value64 c - 1 / 10 ^ 20|) ∧
    (∀ raw : F64, isFinite64 raw = true → |value64 raw| < value64 0x3BC79CA10C924223#64 → squelch raw = 0) ∧
    (∀ raw : F64, isFinite64 raw = true → value64 0x3BC79CA10C924223#64 ≤ |value64 raw| → squelch raw = raw) ∧
    (∀ raw : F64, isFinite64 raw = false → squelch raw = raw) ∧
    ∀ (d : Nat → NanDraw) (x : F32) (st : Stage),
      let out := squelch (rawOf d st.bank st.hist (widen (d 0) x))
      (st.process d x).hist.y1 = out ∧ (st.process d x).out = narrow (d 10) out ∧
        (st.process d x).hist.x1 = widen (d 0) x ∧ (st.process d x).hist.x2 = st.hist.x1

/-- R134: with the identity coefficients and a finite history, a finite sample is returned bit for bit exactly when its
magnitude is at least `0x1E3CE509` or it is `+0`; otherwise `+0` is returned. (The rule's "if and only if" is read of
finite samples: an infinity is returned too, R133 (c), V-P16.) -/
def Obligations.PassthroughOfFiniteSamples : Prop :=
  ∀ (d : Nat → NanDraw) (x : F32) (st : Stage), st.bank = ⟨0x3FF0000000000000#64, 0, 0, 0, 0⟩ →
    isFinite64 st.hist.x1 = true → isFinite64 st.hist.x2 = true → isFinite64 st.hist.y1 = true →
    isFinite64 st.hist.y2 = true → isFinite32 x = true →
    ((st.process d x).out = x ↔ 0x1E3CE509 ≤ mag32 x ∨ x = 0) ∧ ((st.process d x).out ≠ x → (st.process d x).out = 0)

/-- R133 (a) and (b): a sample that is not finite makes the new `y1` not finite, whatever the coefficients; and once
`y1` is not finite it stays so at every `PROC`, whatever the sample. -/
def Obligations.NonFiniteValuesPersist : Prop :=
  ∀ (d : Nat → NanDraw) (x : F32) (st : Stage), isFinite32 x = false ∨ isFinite64 st.hist.y1 = false →
    isFinite64 (st.process d x).hist.y1 = false ∧ isFinite32 (st.process d x).out = false

/-- R27: whatever the host presents, a step keeps `y1`, `y2` and `OUT` of every stage in their ranges: never `-0`, never
a non-zero value below the threshold. -/
def Obligations.StepKeepsOutputRange : Prop :=
  ∀ s t : State, (∀ st ∈ s.stages, st.inRange) → step s = .next t → ∀ st ∈ t.stages, st.inRange

/-- R28: whatever the host presents, a step keeps `OUT = narrow(y1)` in every stage. -/
def Obligations.StepKeepsOutNarrowedY1 : Prop :=
  ∀ s t : State, (∀ st ∈ s.stages, outIsNarrowedY1 st) → step s = .next t → ∀ st ∈ t.stages, outIsNarrowedY1 st

/-- R27, R28: the reset state meets both. -/
def Obligations.ResetStateMeetsOutputInvariants : Prop :=
  State.reset.outputsOk

/-- R141, R142: the cycles of `CHAIN s`, run one after another, give every stage exactly one `PROC`, the first of the
chain's sample and each later one of the `OUT` that the stage before it has just produced; in the end only the last
stage shows `OUT_VALID`, the stages before it having idled since (log 9). -/
def Obligations.ChainPushesSampleThroughEveryStage : Prop :=
  ∀ (s : State) (x : F32) (rest : List Event), s.resetSeen = true →
    s.host = chainEvents s.stages.length x ++ rest →
    ∃ t, Host.Core.run Sys2Proof.core s.stages.length s = .next t ∧ t.host = rest ∧
      t.stages.length = s.stages.length ∧
      ∀ (i : Nat) (st st' : Stage), s.stages[i]? = some st → t.stages[i]? = some st' →
        st' = { st.process (fun n => Config.nanDraw (s.draws + i * 64 + n)) (sampleInOf t.stages i x) with
          outValid := decide (i + 1 = s.stages.length) }

/-! ### What the coefficients mean -/

/-- R115, the table of gains: in exact arithmetic, `H(1)` and `H(-1)` of every kind. -/
def Obligations.IdealGainsAtDcAndNyquist : Prop :=
  ∀ cs alpha A beta K V0 : ℝ, |cs| < 1 → 0 < alpha → 0 < A → 0 < beta → 0 < K →
    (idealLP cs alpha).dcGain = 1 ∧ (idealLP cs alpha).nyquistGain = 0 ∧
      (idealHP cs alpha).dcGain = 0 ∧ (idealHP cs alpha).nyquistGain = 1 ∧
      (idealPK cs alpha A).dcGain = 1 ∧ (idealPK cs alpha A).nyquistGain = 1 ∧
      (idealLS cs beta A).dcGain = A ^ 2 ∧ (idealLS cs beta A).nyquistGain = 1 ∧
      (idealHS cs beta A).dcGain = 1 ∧ (idealHS cs beta A).nyquistGain = A ^ 2 ∧
      (idealLS1 K V0).dcGain = V0 ∧ (idealLS1 K V0).nyquistGain = 1 ∧
      (idealHS1 K V0).dcGain = 1 ∧ (idealHS1 K V0).nyquistGain = V0

/-- R115: in exact arithmetic, `LP`, `HP` and `PK` meet `|a2| < 1` and `|a1| < 1 + a2`, and their poles, the roots of
`z² + a1·z + a2`, lie inside the unit circle; so does the pole of the first-order kinds. -/
def Obligations.IdealPolesInsideUnitCircle : Prop :=
  ∀ cs alpha A K V0 : ℝ, |cs| < 1 → 0 < alpha → 0 < A → 0 < K →
    (∀ p ∈ [idealLP cs alpha, idealHP cs alpha, idealPK cs alpha A],
      |p.a2 / p.a0| < 1 ∧ |p.a1 / p.a0| < 1 + p.a2 / p.a0 ∧
        ∀ z : ℂ, z ^ 2 + ((p.a1 / p.a0 : ℝ) : ℂ) * z + ((p.a2 / p.a0 : ℝ) : ℂ) = 0 → ‖z‖ < 1) ∧
    ∀ p ∈ [idealLS1 K V0, idealHS1 K V0], ∀ z : ℂ, z + ((p.a1 / p.a0 : ℝ) : ℂ) = 0 → ‖z‖ < 1

/-! ### Pseudo-instructions -/

/-- R60, R61: a line of the notation presents to the stage it names, and to no other, the word of its command with the
values of its operands, or the commands of its expansion; a decimal literal stands for the value of the format nearest to
it, ties to even. -/
def Obligations.AssemblyLinesPresentTheirCommands : Prop :=
  let presents (n i : Nat) (line : AsmLine) (ins : Instr) (levels : Operands → Prop) : Prop :=
    ∃ p : StagePins, AsmLine.expand n line = [.clock false (List.replicate i StagePins.idle ++ [p])] ∧
      p.accepts = true ∧ decode (.cmd p.cmd) = .ok ins ∧ levels p.operands
  StagePins.idle.accepts = false ∧
    (∀ (n i : Nat) (k : FilterKind) (fs freq q g : Lit64) (x : Lit32) (xs : List Lit32),
      AsmLine.expand n .construct = [.clock true []] ∧ AsmLine.expand n .idle = [.clock false []] ∧
        presents n i (.nop i) .nop (fun _ => True) ∧ presents n i (.reset i) .reset (fun _ => True) ∧
        presents n i (.setc i k fs freq q g) (.setc k) (fun o =>
          o.fs = valueOfLit64 fs ∧ o.freq = valueOfLit64 freq ∧ o.q = valueOfLit64 q ∧ o.gainDb = valueOfLit64 g) ∧
        presents n i (.proc i x) .proc (fun o => o.sampleIn = valueOfLit32 x) ∧
        AsmLine.expand n (.procblk i xs) = xs.flatMap (fun s => AsmLine.expand n (.proc i s)) ∧
        AsmLine.expand n (.chain x) = (List.range n).flatMap (fun j => AsmLine.expand n (.proc j x))) ∧
    (∀ w : F64, valueOfLit64 (.bits w) = w) ∧ (∀ w : F32, valueOfLit32 (.bits w) = w) ∧
    ∀ (neg : Bool) (digits scale : Nat),
      NearestEven64 (valueOfLit64 (.dec neg digits scale)) ((if neg then -1 else 1) * ((digits : ℝ) / 10 ^ scale)) ∧
        NearestEven32 (valueOfLit32 (.dec neg digits scale)) ((if neg then -1 else 1) * ((digits : ℝ) / 10 ^ scale))

/-! ### First-order kinds at no gain -/

/-- R110, R111, corner cases: at `gain_db = ±0`, `b0` of the first-order kinds is 1.0 or its neighbour below, or a NaN (where
`1 + K` is a zero), for every `K` up to 2^1021 in magnitude, whose reciprocal is a normal number. -/
def Obligations.FirstOrderUnityAtZeroGain : Prop :=
  ∀ (rnd : NumRounding) (d : Nat → NanDraw) (o : Operands), mag64 o.gainDb = 0 →
    mag64 (kOf rnd d o) ≤ mag64 0x7FC0000000000000#64 → ∀ k ∈ [FilterKind.ls1, .hs1],
      let b0 := (calcTrees rnd d k o).b0
      b0 = 0x3FF0000000000000#64 ∨ b0 = 0x3FEFFFFFFFFFFFFF#64 ∨ isNaN64 b0 = true

/-! ### Several stages at one edge -/

/-- R142, R144, R185: at an edge at which any stages accept any commands, every stage's own new state is the effect of the
command it accepts itself, executed at the levels before the edge (its operand ports, and `sample_out` of the stage before
it as it was), or, if it accepts none, of idling. (`n` numbers the draws of that command, log 3, 8.) -/
def Obligations.EveryStageAtOneEdgeSeesOldLevels : Prop :=
  ∀ (s : State) (pins : List StagePins) (rest : List Event), s.host = .clock false pins :: rest → s.resetSeen = true →
    (∀ (i : Nat) (p : StagePins), pins[i]? = some p → p.cmdValid = true →
      (∃ ins, decode (.cmd p.cmd) = .ok ins) ∧ (s.accepts p = true → i < s.stages.length)) →
    ∃ t, step s = .next t ∧ t.host = rest ∧ t.stages.length = s.stages.length ∧
      ∀ (i : Nat) (st st' : Stage), s.stages[i]? = some st → t.stages[i]? = some st' →
        (∀ (p : StagePins) (ins : Instr), pins[i]? = some p → s.accepts p = true → decode (.cmd p.cmd) = .ok ins →
          ∃ n u, exec ins (({ s with draws := n } : State).present i p.operands) = .next u ∧ u.stages[i]? = some st') ∧
        ((∀ p, pins[i]? = some p → s.accepts p = false) → st' = { st with outValid := false })

/-! ### The elementary functions and the real ones -/

/-- R76, R77 `NUM.faithful`, up to a margin far below the last place: for every finite operand each function of the
hardware's own `NUM`, and of every other admissible one, is one of the two values that bracket the real cosine, sine,
tangent and power of 10. (The margins, and that the tangent is stated where the cosine is at least 2^-100 in magnitude,
are the model's own: its enclosures are that wide, log 5.) -/
def Obligations.ElementaryFunctionsAreFaithful : Prop :=
  numHW.Admissible ∧ numCR.Admissible ∧
    ∀ (rnd : NumRounding) (d : NanDraw) (a : F64), rnd.Admissible → isFinite64 a = true →
      FaithfulWithin (1 / 2 ^ 1200) (cos64 rnd d a) (Real.cos (value64 a)) ∧
      FaithfulWithin (1 / 2 ^ 1200) (sin64 rnd d a) (Real.sin (value64 a)) ∧
      (1 / 2 ^ 100 ≤ |Real.cos (value64 a)| →
        FaithfulWithin (1 / 2 ^ 1000) (tan64 rnd d a) (Real.tan (value64 a))) ∧
      FaithfulWithin ((10 : ℝ) ^ (value64 a : ℝ) / 2 ^ 1000) (pow64 rnd d a) ((10 : ℝ) ^ (value64 a : ℝ))

/-- R77 `NUM.faithful`, "or the exact result itself when it is representable", of `pow64` of the hardware's own `NUM` and
of every other admissible one: where the power of 10 is the value of a binary64, the result has that value; so it is at
the whole numbers 0 to 22. -/
def Obligations.RepresentablePowersOfTenAreExact : Prop :=
  ∀ (rnd : NumRounding) (d : NanDraw) (y : F64), rnd.Admissible → isFinite64 y = true →
    (∀ c : F64, isFinite64 c = true → (value64 c : ℝ) = (10 : ℝ) ^ (value64 y : ℝ) → value64 (pow64 rnd d y) = value64 c) ∧
      ∀ n : Nat, n ≤ 22 → value64 y = n → value64 (pow64 rnd d y) = 10 ^ n

/-- R78: `NUM_CR` rounds the exact real result once by R71, up to a margin far below the last place (the model's own, as
in `ElementaryFunctionsAreFaithful`, log 5). -/
def Obligations.ReferenceNumIsNearest : Prop :=
  ∀ (d : NanDraw) (a : F64), isFinite64 a = true →
    NearestWithin (2 * (1 / 2 ^ 1200)) (cos64 numCR d a) (Real.cos (value64 a)) ∧
      NearestWithin (2 * (1 / 2 ^ 1200)) (sin64 numCR d a) (Real.sin (value64 a)) ∧
      (1 / 2 ^ 100 ≤ |Real.cos (value64 a)| →
        NearestWithin (2 * (1 / 2 ^ 1000)) (tan64 numCR d a) (Real.tan (value64 a))) ∧
      NearestWithin (2 * ((10 : ℝ) ^ (value64 a : ℝ) / 2 ^ 1000)) (pow64 numCR d a) ((10 : ℝ) ^ (value64 a : ℝ))
end

