-- ==== Sys2Proof/Laws/PerInstr.lean ====
section
/-! SUPPORT. A statement made of every instruction as syntax, with one lemma per constructor (R58: "every command is one
exact word"). -/

namespace Sys2Proof.Laws.EncodedWord

/-- The encoded word of an instruction is not a reserved one, and it is no other instruction's word. -/
def Statement (i : Instr) : Prop := (encode i).wellFormed = true ∧ ∀ j : Instr, encode j = encode i → j = i

theorem nop : Statement .nop := ⟨by decide, fun j => by cases j <;> decide⟩

theorem reset : Statement .reset := ⟨by decide, fun j => by cases j <;> decide⟩

theorem setcLP : Statement .setcLP := ⟨by decide, fun j => by cases j <;> decide⟩

theorem setcHP : Statement .setcHP := ⟨by decide, fun j => by cases j <;> decide⟩

theorem setcPK : Statement .setcPK := ⟨by decide, fun j => by cases j <;> decide⟩

theorem setcLS : Statement .setcLS := ⟨by decide, fun j => by cases j <;> decide⟩

theorem setcHS : Statement .setcHS := ⟨by decide, fun j => by cases j <;> decide⟩

theorem setcLS1 : Statement .setcLS1 := ⟨by decide, fun j => by cases j <;> decide⟩

theorem setcHS1 : Statement .setcHS1 := ⟨by decide, fun j => by cases j <;> decide⟩

theorem proc : Statement .proc := ⟨by decide, fun j => by cases j <;> decide⟩

theorem coefLP : Statement .coefLP := ⟨by decide, fun j => by cases j <;> decide⟩

theorem coefHP : Statement .coefHP := ⟨by decide, fun j => by cases j <;> decide⟩

theorem coefPK : Statement .coefPK := ⟨by decide, fun j => by cases j <;> decide⟩

theorem coefLS : Statement .coefLS := ⟨by decide, fun j => by cases j <;> decide⟩

theorem coefHS : Statement .coefHS := ⟨by decide, fun j => by cases j <;> decide⟩

theorem coefLS1 : Statement .coefLS1 := ⟨by decide, fun j => by cases j <;> decide⟩

theorem coefHS1 : Statement .coefHS1 := ⟨by decide, fun j => by cases j <;> decide⟩

end Sys2Proof.Laws.EncodedWord
end

