-- ==== Sys2Proof/Tests/Slice0.lean ====
section
/-! SUPPORT. The model's own tests. Expected values come from spec/: the words of 30_encoding.md, the vectors of
95_test_vectors.md (named V-…, P…). Then one theorem for each statement with hypotheses: a state and operands that meet
them. -/

namespace Sys2Proof.Tests

open Sys2Proof.Machine

-- One theorem at a time: each kernel evaluation needs a stack of its own.
set_option Elab.async false

/-! ### Ill-formed terms are refused -/

/-- `NOP` with a non-zero kind, `RESET` likewise, `SETC` with kind 7, `PROC` with a non-zero kind (R57). -/
theorem test_illFormed_commands :
    CodeWord.wellFormed (.cmd 0b00001#5) = false ∧ CodeWord.wellFormed (.cmd 0b01111#5) = false ∧
      CodeWord.wellFormed (.cmd 0b10111#5) = false ∧ CodeWord.wellFormed (.cmd 0b11001#5) = false := by decide

/-- `kind = 111` (R116). -/
theorem test_illFormed_kind : CodeWord.wellFormed (.kind 0b111#3) = false := by decide

/-- A chain of 1 stage, or of 5 (R140). -/
theorem test_illFormed_chain : wellFormedChain 1 = false ∧ wellFormedChain 5 = false := by decide

/-- A line that addresses a stage the chain has not. -/
theorem test_illFormed_stage :
    AsmLine.wellFormed 2 (.nop 2) = false ∧ AsmLine.wellFormed 2 (.reset 2) = false ∧
      AsmLine.wellFormed 2 (.proc 2 (.bits 0)) = false ∧ AsmLine.wellFormed 2 (.procblk 3 []) = false ∧
      AsmLine.wellFormed 2 (.setc 2 .lp (.bits 0) (.bits 0) (.bits 0) (.bits 0)) = false := by decide

/-- `_` for an operand the kind uses (R60, R114), each of the four. -/
theorem test_illFormed_any :
    AsmLine.wellFormed 2 (.setc 0 .lp (.any 0) (.bits 0) (.bits 0) (.any 0)) = false ∧
      AsmLine.wellFormed 2 (.setc 0 .lp (.bits 0) (.any 0) (.bits 0) (.any 0)) = false ∧
      AsmLine.wellFormed 2 (.setc 0 .hp (.bits 0) (.bits 0) (.any 0) (.any 0)) = false ∧
      AsmLine.wellFormed 2 (.setc 0 .ls1 (.bits 0) (.bits 0) (.any 0) (.any 0)) = false := by decide

/-- No instruction is ill-formed: it has no field. The checks of a stream: a bad line refuses the whole of it. -/
theorem test_assemble_refuses : assemble 2 [.idle, .nop 2] = none := by decide

/-! ### Words, written out from R51, R52 and R58 -/

theorem test_decode_commands :
    decode (.cmd 0b00000#5) = .ok .nop ∧ decode (.cmd 0b01000#5) = .ok .reset ∧ decode (.cmd 0b10000#5) = .ok .setcLP ∧
      decode (.cmd 0b10001#5) = .ok .setcHP ∧ decode (.cmd 0b10010#5) = .ok .setcPK ∧
      decode (.cmd 0b10011#5) = .ok .setcLS ∧ decode (.cmd 0b10100#5) = .ok .setcHS ∧
      decode (.cmd 0b10101#5) = .ok .setcLS1 ∧ decode (.cmd 0b10110#5) = .ok .setcHS1 ∧
      decode (.cmd 0b11000#5) = .ok .proc := by decide

theorem test_decode_kinds :
    decode (.kind 0b000#3) = .ok .coefLP ∧ decode (.kind 0b001#3) = .ok .coefHP ∧ decode (.kind 0b010#3) = .ok .coefPK ∧
      decode (.kind 0b011#3) = .ok .coefLS ∧ decode (.kind 0b100#3) = .ok .coefHS ∧
      decode (.kind 0b101#3) = .ok .coefLS1 ∧ decode (.kind 0b110#3) = .ok .coefHS1 := by decide

theorem test_decode_reserved :
    decode (.cmd 0b10111#5) = .error (.reservedCommand 0b10111#5) ∧
      decode (.kind 0b111#3) = .error (.reservedKind 0b111#3) := by decide

theorem test_decode_table_words :
    decodeTableWord 8 0x18 = some .proc ∧ decodeTableWord 8 0x16 = some .setcHS1 ∧ decodeTableWord 8 5 = some .coefLS1 ∧
      decodeTableWord 5 0 = some .nop ∧ decodeTableWord 3 0 = some .coefLP ∧ decodeTableWord 8 0x17 = none := by decide

/-- No word selects two rows of the opcode map. -/
theorem test_rows_do_not_overlap :
    (stageRows.Pairwise fun a b => ∀ w : Fin 32, (a.selects w && b.selects w) = false) ∧
      calculatorRows.Pairwise fun a b => ∀ w : Fin 8, (a.selects w && b.selects w) = false := by decide

/-! ### Numerics -/

/-- V-N1. -/
theorem test_narrow :
    narrow 0 0x3FF0000010000000#64 = 0x3F800000#32 ∧ narrow 0 0x3FF0000030000000#64 = 0x3F800002#32 ∧
      narrow 0 0x3FF0000010000001#64 = 0x3F800001#32 ∧ narrow 0 0x47EFFFFFEFFFFFFF#64 = 0x7F7FFFFF#32 ∧
      narrow 0 0x47EFFFFFF0000000#64 = 0x7F800000#32 ∧ narrow 0 0x36A0000000000000#64 = 0x00000001#32 ∧
      narrow 0 0x36A0000000000001#64 = 0x00000001#32 ∧ narrow 0 0x3690000000000000#64 = 0x00000000#32 ∧
      narrow 0 0x36B0000000000000#64 = 0x00000002#32 ∧ narrow 0 0x380FFFFFFFFFFFFF#64 = 0x00800000#32 ∧
      narrow 0 0x3810000000000000#64 = 0x00800000#32 ∧ narrow 0 0x8000000000000000#64 = 0x80000000#32 ∧
      narrow 0 0x3BC79CA10C924223#64 = 0x1E3CE508#32 ∧ narrow 0 0xFFF0000000000000#64 = 0xFF800000#32 := by
  decide +kernel

/-- V-N2. -/
theorem test_widen :
    widen 0 0x00000001#32 = 0x36A0000000000000#64 ∧ widen 0 0x007FFFFF#32 = 0x380FFFFFC0000000#64 ∧
      widen 0 0x00800000#32 = 0x3810000000000000#64 ∧ widen 0 0x7F7FFFFF#32 = 0x47EFFFFFE0000000#64 ∧
      widen 0 0x80000000#32 = 0x8000000000000000#64 ∧ widen 0 0x3DCCCCCD#32 = 0x3FB99999A0000000#64 ∧
      widen 0 0x1E3CE508#32 = 0x3BC79CA100000000#64 ∧ widen 0 0x1E3CE509#32 = 0x3BC79CA120000000#64 ∧
      widen 0 0x7F800000#32 = 0x7FF0000000000000#64 := by decide +kernel

/-- V-N3, V-N4, V-N5. -/
theorem test_operations :
    fmul 0 two64 pi64 = 0x401921FB54442D18#64 ∧ fdiv 0 0x4018000000000000#64 forty64 = 0x3FC3333333333333#64 ∧
      fdiv 0 0xC018000000000000#64 forty64 = 0xBFC3333333333333#64 ∧
      fsqrt 0 0x3FF699C0F7E86E10#64 = 0x3FF3041AE9610AD9#64 ∧ isNaN64 (fmul 0 0 posInf64) = true ∧
      fdiv 0 0x3FC0B5150F6DA2D0#64 0 = posInf64 ∧ isNaN64 (fdiv 0 0xFFF0000000000000#64 posInf64) = true ∧
      fadd 0 one64 (fmul 0 0xBFF0000000000000#64 one64) = 0 ∧
      fsub 0 0x8000000000000000#64 0 = 0x8000000000000000#64 ∧ fadd 0 0x8000000000000000#64 0 = 0 := by decide +kernel

/-- V-N4. -/
theorem test_pow :
    pow64 numCR 0 0x3FC3333333333333#64 = 0x3FF699C0F7E86E10#64 ∧
      pow64 numCR 0 0xBFC3333333333333#64 = 0x3FE6A77DEAE8AB8A#64 := by decide +kernel

/-- R77 `NUM.special`: below 2^-1022 the rounding of R71, by hand: 10^-323 is 2.02 units of 2^-1074. -/
theorem test_pow_subnormal :
    pow64 (fun _ _ _ _ above => above) 0 0xC074300000000000#64 = 2#64 ∧ pow64 numHW 0 0xC079000000000000#64 = 0 ∧
      pow64 numHW 0 0x4073500000000000#64 = posInf64 := by decide +kernel

/-- The assembler's decimal literals, against the table of patterns of 95_test_vectors.md and P1. -/
theorem test_literals :
    valueOfLit64 (.dec false 441000 1) = 0x40E5888000000000#64 ∧ valueOfLit64 (.dec true 60 1) = 0xC018000000000000#64 ∧
      valueOfLit64 (.dec false 7071067811865476 16) = 0x3FE6A09E667F3BCD#64 ∧
      valueOfLit32 (.dec false 1 1) = 0x3DCCCCCD#32 ∧ valueOfLit32 (.dec true 0 0) = 0x80000000#32 := by decide +kernel

/-! ### The calculator, with `NUM_CR` -/

/-- Every NaN of the tests below would be drawn as this one. -/
def noDraw : Nat → NanDraw := fun _ => 0

/-- V-C1. -/
theorem test_coefLP :
    calcTrees numCR noDraw .lp ⟨0x40E7700000000000#64, 0x408F400000000000#64, 0x3FE6A09E667F3BCD#64, 0, 0⟩ =
      ⟨0x3F700A5B3EF1D8DC#64, 0x3F800A5B3EF1D8DC#64, 0x3F700A5B3EF1D8DC#64, 0xBFFD0BA31754D255#64,
        0x3FEA979908A13372#64⟩ := by decide +kernel

/-- V-C8: at a quarter of the sample rate the cosine is not a zero. -/
theorem test_coefLP_quarter :
    calcTrees numCR noDraw .lp ⟨0x40E5888000000000#64, 0x40C5888000000000#64, 0x3FE0000000000000#64, 0, 0⟩ =
      ⟨0x3FCFFFFFFFFFFFFF#64, 0x3FDFFFFFFFFFFFFF#64, 0x3FCFFFFFFFFFFFFF#64, 0xBC91A62633145C07#64, 0⟩ := by
  decide +kernel

/-- V-C2. -/
theorem test_coefHP :
    calcTrees numCR noDraw .hp ⟨0x40E7700000000000#64, 0x408F400000000000#64, 0x3FE6A09E667F3BCD#64, 0, 0⟩ =
      ⟨0x3FED2BB7CDD2B608#64, 0xBFFD2BB7CDD2B608#64, 0x3FED2BB7CDD2B608#64, 0xBFFD0BA31754D255#64,
        0x3FEA979908A13372#64⟩ := by decide +kernel

/-- V-C3. -/
theorem test_coefPK :
    calcTrees numCR noDraw .pk ⟨0x40E7700000000000#64, 0x408F400000000000#64, one64, 0x4018000000000000#64, 0⟩ =
      ⟨0x3FF0B40826F2E860#64, 0xBFFE533BD2CBD1D1#64, 0x3FEBC4618661BA3B#64, 0xBFFE533BD2CBD1D1#64,
        0x3FED2C71D4478AFA#64⟩ := by decide +kernel

/-- V-C4. -/
theorem test_coefLS :
    calcTrees numCR noDraw .ls
        ⟨0x40E7700000000000#64, 0x4069000000000000#64, 0x3FE6A09E667F3BCD#64, 0x4018000000000000#64, 0⟩ =
      ⟨0x3FF01A66ADA1310E#64, 0xBFFF7F6FAA7B756B#64, 0x3FEED1E1280CE932#64, 0xBFFF8068F85F2A1A#64,
        0x3FEF04BBE787E1F1#64⟩ := by decide +kernel

/-- V-C5. -/
theorem test_coefHS :
    calcTrees numCR noDraw .hs
        ⟨0x40E7700000000000#64, 0x40AF400000000000#64, 0x3FE6A09E667F3BCD#64, 0xC018000000000000#64, 0⟩ =
      ⟨0x3FE22BA631C59684#64, 0xBFE50B382BB2FF64#64, 0x3FCE7E5C59F3C567#64, 0xBFF62D05CCAB82DD#64,
        0x3FE11A10B5E68E35#64⟩ := by decide +kernel

/-- V-C6, with a NaN on the `q` port (V-C21). -/
theorem test_coefLS1 :
    calcTrees numCR noDraw .ls1
        ⟨0x40E7700000000000#64, 0x4069000000000000#64, 0x7FF8000000000000#64, 0x4018000000000000#64, 0⟩ =
      ⟨0x3FF034AD0CE7FFF5#64, 0xBFEEC2F0EDE908CC#64, 0, 0xBFEF2C4B07B908B6#64, 0⟩ := by decide +kernel

/-- V-C7. -/
theorem test_coefHS1 :
    calcTrees numCR noDraw .hs1 ⟨0x40E7700000000000#64, 0x40AF400000000000#64, 0, 0xC018000000000000#64, 0⟩ =
      ⟨0x3FE36941D53326D9#64, 0xBFC78BA46B0D67D7#64, 0, 0xBFE279A74590331C#64, 0⟩ := by decide +kernel

/-- R101: at `freq = fs/2` (V-C13) and at `q = 0` (V-C12) the contract is broken; `q = 0` is no matter to `LS1`. -/
theorem test_contract :
    inContract .lp ⟨0x40E7700000000000#64, 0x40D7700000000000#64, 0x3FE6A09E667F3BCD#64, 0, 0⟩ = false ∧
      inContract .lp ⟨0x40E7700000000000#64, 0x408F400000000000#64, 0, 0, 0⟩ = false ∧
      inContract .ls1 ⟨0x40E7700000000000#64, 0x408F400000000000#64, 0, 0, 0⟩ = true ∧
      inContract .pk ⟨0x40E7700000000000#64, 0x408F400000000000#64, one64, posInf64, 0⟩ = false := by decide +kernel

/-! ### The stage -/

/-- The state an instruction leads to. -/
def nextOf (o : Answer) : Option State :=
  match o with
  | .next s => some s
  | .fault _ => none
  | .refused _ => none

/-- Why an instruction is refused. -/
def refusalOf (o : Answer) : Option Refusal :=
  match o with
  | .next _ => none
  | .fault _ => none
  | .refused r => some r

/-- A stage with a bank and a history of its own, and `OUT` as after a `PROC`. -/
def stageOf (c : CoefSet) (h : History) (out : F32) : Stage := ⟨c, h, out, true⟩

/-- Two stages, the first of them addressed, with these levels on the ports. -/
def stateOf (st : Stage) (o : Operands) : State := { State.constructed [st, Stage.reset] with ports := o }

/-- The stages after an instruction. -/
def stagesAfter (i : Instr) (st : Stage) (o : Operands) : Option (List Stage) :=
  (nextOf (exec i (stateOf st o))).map State.stages

/-- The history, `OUT` and `OUT_VALID` of the stages after an instruction. -/
def outputsAfter (i : Instr) (st : Stage) (o : Operands) : Option (List (History × F32 × Bool)) :=
  (nextOf (exec i (stateOf st o))).map fun t => t.stages.map fun st => (st.hist, st.out, st.outValid)

/-- A history to be kept. -/
def someHistory : History := ⟨one64, two64, forty64, negTwo64⟩

/-- R121's example. -/
theorem test_nop :
    stagesAfter .nop (stageOf CoefSet.identity someHistory 0x3F800000#32) ⟨0, 0, 0, 0, 0⟩ =
      some [⟨CoefSet.identity, someHistory, 0x3F800000#32, false⟩, Stage.reset] := by decide

/-- R122's example. -/
theorem test_reset :
    stagesAfter .reset (stageOf ⟨1, 2, 3, 4, 5⟩ someHistory 0x3F800000#32) ⟨1, 1, 1, 1, 1⟩ =
      some [⟨⟨0x3FF0000000000000#64, 0, 0, 0, 0⟩, ⟨0, 0, 0, 0⟩, 0, false⟩, Stage.reset] := by decide

/-- R123: `SETC` keeps the history and `OUT` and clears `OUT_VALID`, whatever the operands (V-S5, V-S6). -/
theorem test_setc_keeps_history :
    ∀ i ∈ [Instr.setcLP, .setcHP, .setcPK, .setcLS, .setcHS, .setcLS1, .setcHS1],
      outputsAfter i (stageOf CoefSet.identity someHistory 0x3DAA9BEA#32) ⟨0, 0, 0, 0, 0⟩ =
        some [(someHistory, 0x3DAA9BEA#32, false), (History.zero, 0, false)] := by decide

/-- P2, steps 2 and 4. -/
theorem test_proc_recursion :
    stagesAfter .proc (stageOf ⟨0x3FE0000000000000#64, 0x3FE0000000000000#64, 0, 0xBFE0000000000000#64,
          0x3FD0000000000000#64⟩ ⟨one64, 0, 0x3FE0000000000000#64, 0⟩ 0x3F000000#32) ⟨0, 0, 0, 0, 0x3F800000#32⟩ =
        some [⟨⟨0x3FE0000000000000#64, 0x3FE0000000000000#64, 0, 0xBFE0000000000000#64, 0x3FD0000000000000#64⟩,
          ⟨one64, one64, 0x3FF4000000000000#64, 0x3FE0000000000000#64⟩, 0x3FA00000#32, true⟩, Stage.reset] ∧
      stagesAfter .proc (stageOf ⟨0x3FE0000000000000#64, 0x3FE0000000000000#64, 0, 0xBFE0000000000000#64,
          0x3FD0000000000000#64⟩ ⟨0, one64, one64, 0x3FF4000000000000#64⟩ 0x3F800000#32) ⟨0, 0, 0, 0, 0xC0000000#32⟩ =
        some [⟨⟨0x3FE0000000000000#64, 0x3FE0000000000000#64, 0, 0xBFE0000000000000#64, 0x3FD0000000000000#64⟩,
          ⟨0xC000000000000000#64, 0, 0xBFEA000000000000#64, one64⟩, 0xBF500000#32, true⟩, Stage.reset] := by
  decide +kernel

/-- `OUT`, `x1` and `y1` of a stage with this bank and no history, after one `PROC`. -/
def procOf (c : CoefSet) (x : F32) : F32 × F64 × F64 :=
  let st := Stage.process noDraw x { Stage.reset with bank := c }
  (st.out, st.hist.x1, st.hist.y1)

/-- V-P1, V-P4, V-P6, V-P8, V-P9, V-P10, V-P11, V-P12, V-P13, V-P15, V-P16. -/
theorem test_proc_corners :
    procOf CoefSet.identity 0x3F800000#32 = (0x3F800000#32, one64, one64) ∧
      procOf CoefSet.identity 0x80000000#32 = (0, 0x8000000000000000#64, 0) ∧
      procOf CoefSet.identity 0x00000001#32 = (0, 0x36A0000000000000#64, 0) ∧
      procOf CoefSet.identity 0x9E3CE508#32 = (0, 0xBBC79CA100000000#64, 0) ∧
      procOf CoefSet.identity 0x1E3CE508#32 = (0, 0x3BC79CA100000000#64, 0) ∧
      procOf CoefSet.identity 0x1E3CE509#32 = (0x1E3CE509#32, 0x3BC79CA120000000#64, 0x3BC79CA120000000#64) ∧
      procOf ⟨0x3BC79CA10C924223#64, 0, 0, 0, 0⟩ 0x3F800000#32 = (0x1E3CE508#32, one64, 0x3BC79CA10C924223#64) ∧
      procOf ⟨0x3BC79CA10C924222#64, 0, 0, 0, 0⟩ 0x3F800000#32 = (0, one64, 0) ∧
      procOf ⟨one64, 0xBFF0000000000000#64, 0xBFF0000000000000#64, one64, one64⟩ 0x80000000#32 =
        (0, 0x8000000000000000#64, 0) ∧
      (procOf ⟨0x3DDB7CDFD9D7BDBB#64, 0, 0, 0, 0⟩ 0x2F24ED3F#32).1 = 0x1E8DABC6#32 ∧
      procOf ⟨0x4010000000000000#64, 0, 0, 0, 0⟩ 0x7F7FFFFF#32 =
        (0x7F800000#32, 0x47EFFFFFE0000000#64, 0x480FFFFFE0000000#64) ∧
      procOf CoefSet.identity 0x7F800000#32 = (0x7F800000#32, posInf64, posInf64) := by decide +kernel

/-! ### The step -/

/-- Every row's table word runs as the first instruction after reset; a reserved one is refused. -/
theorem test_words_run :
    (∀ w ∈ [0, 1, 2, 3, 4, 5, 6, 8, 16, 17, 18, 19, 20, 21, 22, 24],
      (nextOf (step (State.withFetchWord State.reset 8 w))).isSome = true) ∧
      refusalOf (step (State.withFetchWord State.reset 8 23)) = some (.reservedCommand 23#5) ∧
      refusalOf (step (State.withFetchWord State.reset 8 7)) = some (.reservedKind 7#3) := by decide +kernel

/-- A state in which the host presents one thing. -/
def withEvent (stages : List Stage) (e : Event) : State := { State.constructed stages with host := [e] }

/-- V-P20: a command presented under `rst = 1` is dropped. -/
theorem test_rst_drops_command :
    (nextOf (step (withEvent [stageOf ⟨1, 2, 3, 4, 5⟩ someHistory 1, Stage.reset]
      (.clock true [⟨true, true, 0x18#5, ⟨0, 0, 0, 0, 0x3F800000#32⟩⟩])))).map State.stages =
      some [Stage.reset, Stage.reset] := by decide

/-- V-P21; a reserved word that waits is refused too (R164). -/
theorem test_reserved_refused :
    refusalOf (step (withEvent [Stage.reset, Stage.reset] (.clock false [⟨true, true, 0x19#5, ⟨0, 0, 0, 0, 0⟩⟩]))) =
      some (.reservedCommand 0x19#5) ∧
    refusalOf (step { withEvent [Stage.reset, Stage.reset]
      (.clock false [⟨false, true, 0x1F#5, ⟨0, 0, 0, 0, 0⟩⟩, ⟨true, false, 0x19#5, ⟨0, 0, 0, 0, 0⟩⟩]) with
      afterRst := false }) = some (.reservedCommand 0x19#5) := by decide

/-- R25, R173: the first edge of a run must be a reset. -/
theorem test_power_up :
    refusalOf (step { State.constructed [Stage.reset, Stage.reset] with resetSeen := false }) = some .beforeReset ∧
      (nextOf (step { withEvent [stageOf ⟨1, 2, 3, 4, 5⟩ someHistory 1] (.clock true []) with resetSeen := false })).map
        State.stages = some [Stage.reset] := by decide

/-- A second stage's `PROC` takes `sample_out` of the first, not its own pins (R141); the first idles (R20, log 9). -/
theorem test_wired_sample :
    (nextOf (step (withEvent [stageOf CoefSet.identity History.zero 0x3F800000#32, Stage.reset]
      (procEvent 1 0xBF000000#32)))).map State.stages =
      some [⟨CoefSet.identity, History.zero, 0x3F800000#32, false⟩,
        ⟨CoefSet.identity, ⟨one64, 0, one64, 0⟩, 0x3F800000#32, true⟩] := by decide +kernel

/-- A command with `cmd_ready = 0` is not accepted (R53); in the first cycle after a reset it is (R172). -/
theorem test_not_ready :
    (nextOf (step { withEvent [stageOf CoefSet.identity someHistory 7, Stage.reset]
      (.clock false [⟨true, false, 0x08#5, ⟨0, 0, 0, 0, 0⟩⟩]) with afterRst := false })).map State.stages =
      some [⟨CoefSet.identity, someHistory, 7, false⟩, Stage.reset] ∧
    (nextOf (step (withEvent [stageOf CoefSet.identity someHistory 7, Stage.reset]
      (.clock false [⟨true, false, 0x08#5, ⟨0, 0, 0, 0, 0⟩⟩])))).map State.stages = some [Stage.reset, Stage.reset] := by
  decide

/-! ### The notation -/

/-- Lines of R60 and R61, as characters. -/
theorem test_read_lines :
    readLine ['N', 'O', 'P', ' ', ';', ' ', 'x'] = some (.nop 0) ∧
      readLine ['S', '1', ':', ' ', 'P', 'R', 'O', 'C', ' ', '1', '.', '0', 'f'] = some (.proc 1 (.dec false 10 1)) ∧
      readLine ['S', 'E', 'T', 'C', '.', 'L', 'S', '1', ' ', '4', '8', '0', '0', '0', '.', '0', ',', ' ', '2', '0', '0', ',',
        ' ', '_', ',', ' ', '-', '6', '.', '0'] =
        some (.setc 0 .ls1 (.dec false 480000 1) (.dec false 200 0) (.any 0) (.dec true 60 1)) ∧
      readLine ['S', 'E', 'T', 'C', ' ', 'H', 'P', ',', '1', ',', '2', ',', '3', ',', '_'] =
        some (.setc 0 .hp (.dec false 1 0) (.dec false 2 0) (.dec false 3 0) (.any 0)) ∧
      readLine ['C', 'H', 'A', 'I', 'N', ' ', '0', 'x', '3', 'F', '8', '0', '0', '0', '0', '0'] =
        some (.chain (.bits 0x3F800000#32)) ∧
      readLine ['P', 'R', 'O', 'C', ' ', '1', '.', '0'] = none := by decide

/-- What `CHAIN` presents on a chain of two stages (R61). -/
theorem test_chain_expands :
    assemble 2 [.chain (.bits 0x3F800000#32)] = some [procEvent 0 0x3F800000#32, procEvent 1 0x3F800000#32] := by decide

/-! ### Every statement's hypotheses can be met

`witness_X` is for the statement `Obligations.X`. -/

/-- Two stages after reset. -/
def twoStages : State := State.constructed [Stage.reset, Stage.reset]

/-- The ports of a stage to which a command word is presented. -/
def presents (w : CmdBits) (o : Operands) : StagePins := ⟨true, true, w, o⟩

/-- The operands of V-C4: in contract for every kind. -/
def goodSpec : Operands :=
  ⟨0x40E7700000000000#64, 0x4069000000000000#64, 0x3FE6A09E667F3BCD#64, 0x4018000000000000#64, 0x3F800000#32⟩

theorem witness_EncodeThenDecodeIsIdentity : Instr.proc.wellFormed = true := by decide

theorem witness_OpcodeMapSelectsInstructions :
    decode (.cmd 0x18#5) = .ok .proc ∧ decode (.kind 6#3) = .ok .coefHS1 ∧
      (⟨"NOP", .nop, 5, 0x00, 0x1F⟩ : OpRow) ∈ stageRows ∧ (⟨"COEF.HS1", .coefHS1, 3, 6, 7⟩ : OpRow) ∈ calculatorRows := by
  decide

/-- A reserved word for the second of two stages, waiting, and kind 111. -/
theorem witness_ReservedWordsAreRefused :
    (∃ s : State, s.host = .clock false [presents 0x18#5 goodSpec, ⟨true, false, 0x1F#5, goodSpec⟩] :: [] ∧
      s.resetSeen = true ∧
      ∃ p ∈ [presents 0x18#5 goodSpec, (⟨true, false, 0x1F#5, goodSpec⟩ : StagePins)],
        p.cmdValid = true ∧ (CodeWord.cmd p.cmd).wellFormed = false) ∧
    ∃ s : State, s.host = .calculator 0b111#3 0 0 0 0 :: [] :=
  ⟨⟨{ twoStages with host := [.clock false [presents 0x18#5 goodSpec, ⟨true, false, 0x1F#5, goodSpec⟩]] }, by decide⟩,
    ⟨{ twoStages with host := [.calculator 0b111#3 0 0 0 0] }, by decide⟩⟩

theorem witness_StepExecutesPresentedCommand :
    ∃ s : State, s.host = .clock false ([StagePins.idle] ++ [presents 0x18#5 goodSpec]) :: [] ∧ s.resetSeen = true ∧
      (∀ b ∈ [StagePins.idle], s.accepts b = false ∧ b.presentsReserved = false) ∧
      s.accepts (presents 0x18#5 goodSpec) = true ∧ Instr.proc.wellFormed = true ∧ decode (.cmd (presents 0x18#5 goodSpec).cmd) = .ok .proc :=
  ⟨{ twoStages with host := [.clock false [StagePins.idle, presents 0x18#5 goodSpec]] }, by decide⟩

theorem witness_StepExecutesPresentedKind :
    ∃ s : State, s.host = .calculator 6#3 1 2 3 4 :: [] ∧ Instr.coefHS1.wellFormed = true ∧
      decode (.kind 6#3) = .ok .coefHS1 :=
  ⟨{ twoStages with host := [.calculator 6#3 1 2 3 4] }, by decide⟩

theorem witness_ResetPinOverridesCommands :
    (∃ s : State, s.host = .clock true [presents 0x18#5 goodSpec] :: [.clock true []]) ∧
      ∃ s : State,
        s.host = .clock true [] :: [.clock false ([StagePins.idle] ++ [⟨true, false, 0x18#5, goodSpec⟩])] ∧
        [StagePins.idle].length < s.stages.length ∧ (∀ b ∈ [StagePins.idle], b.cmdValid = false) ∧
        decode (.cmd 0x18#5) = .ok .proc :=
  ⟨⟨{ twoStages with host := [.clock true [presents 0x18#5 goodSpec], .clock true []] }, by decide⟩,
    ⟨{ twoStages with host := [.clock true [], .clock false [StagePins.idle, ⟨true, false, 0x18#5, goodSpec⟩]] }, by decide⟩⟩

theorem witness_IdleCycleClearsOnlyOutValid :
    (twoStages.resetSeen = true ∧ twoStages.host = []) ∧
      ∃ s : State, s.resetSeen = true ∧ s.host = .clock false [⟨true, false, 0x18#5, goodSpec⟩, StagePins.idle] :: [] ∧
        ∀ p ∈ [(⟨true, false, 0x18#5, goodSpec⟩ : StagePins), StagePins.idle], p.cmdValid = false ∨
          (p.cmdReady = false ∧ s.afterRst = false ∧ (CodeWord.cmd p.cmd).wellFormed = true) :=
  ⟨by decide, { twoStages with afterRst := false, host := [.clock false [⟨true, false, 0x18#5, goodSpec⟩, StagePins.idle]] }, by decide⟩

theorem witness_NoEdgeRunsBeforeReset :
    (∃ s : State, s.resetSeen = false ∧ s.host = []) ∧
      ∃ s : State, s.resetSeen = false ∧ s.host = .clock false [presents 0x18#5 goodSpec] :: [] :=
  ⟨⟨{ twoStages with resetSeen := false }, by decide⟩,
    ⟨{ twoStages with resetSeen := false, host := [.clock false [presents 0x18#5 goodSpec]] }, by decide⟩⟩

theorem witness_StagesAtOneEdgeSeeOldOutputs :
    ∃ s : State, s.stages = Stage.reset :: Stage.reset :: [] ∧ s.resetSeen = true ∧
      s.host = .clock false [presents 0b11000#5 goodSpec, presents 0b11000#5 goodSpec] :: [] ∧
      s.accepts (presents 0b11000#5 goodSpec) = true ∧ (presents 0b11000#5 goodSpec).cmd = 0b11000#5 :=
  ⟨{ twoStages with host := [.clock false [presents 0b11000#5 goodSpec, presents 0b11000#5 goodSpec]] }, by decide⟩

/-- A stage addressed, of the reset state too: the hypothesis of the statements about one command. -/
theorem witness_addressed_stage :
    twoStages.stages[twoStages.active]? = some Stage.reset ∧ State.reset.stages[State.reset.active]? = some Stage.reset :=
  ⟨by decide, rfl⟩

theorem witness_ResetGivesEveryRegisterItsValue :
    Stage.reset ∈ State.reset.stages ∧
      (nextOf (step { twoStages with host := [.clock true [presents 0x18#5 goodSpec]] })).isSome = true ∧
      twoStages.stages[twoStages.active]? = some Stage.reset :=
  ⟨List.mem_cons_self .., by decide, by decide⟩

theorem witness_StepKeepsChainLength : (nextOf (step twoStages)).isSome = true := by decide

/-- Two accepted words at positions the chain has, and kind 110. -/
theorem witness_EveryCommandAndFunctionGoesOn :
    (∃ s : State, s.host = .clock false [presents 0x18#5 ⟨0, 0, 0, 0, 0⟩, presents 0x16#5 ⟨0, 0, 0, 0, 0⟩] :: [] ∧ s.resetSeen = true ∧
      1 < s.stages.length ∧ decode (.cmd 0x18#5) = .ok .proc ∧ decode (.cmd 0x16#5) = .ok .setcHS1 ∧
      (nextOf (step s)).isSome = true) ∧
    (∃ s : State, s.host = .clock true [presents 0x1F#5 goodSpec] :: []) ∧
    (∃ s : State, s.resetSeen = true ∧ s.host = []) ∧
    ∃ s : State, s.host = .calculator 0b110#3 0 0 0 0 :: [] ∧ (0b110#3 : KindBits) ≠ 0b111#3 :=
  ⟨⟨{ twoStages with host := [.clock false [presents 0x18#5 ⟨0, 0, 0, 0, 0⟩, presents 0x16#5 ⟨0, 0, 0, 0, 0⟩]] }, by decide⟩,
    ⟨{ twoStages with host := [.clock true [presents 0x1F#5 goodSpec]] }, rfl⟩, ⟨twoStages, by decide⟩,
    ⟨{ twoStages with host := [.calculator 0b110#3 0 0 0 0] }, by decide⟩⟩

/-- Three of four stages accept at one edge, a `PROC`, a `SETC` and a `RESET`; the second waits. -/
theorem witness_EveryStageAtOneEdgeSeesOldLevels :
    ∃ (s : State) (pins : List StagePins), s.host = .clock false pins :: [] ∧ s.resetSeen = true ∧
      (∀ p ∈ pins, (decode (.cmd p.cmd)).toOption.isSome = true) ∧ pins.length ≤ s.stages.length ∧
      pins.map s.accepts = [true, false, true, true] ∧ (nextOf (step s)).isSome = true :=
  ⟨{ State.constructed [Stage.reset, Stage.reset, Stage.reset, Stage.reset] with
      afterRst := false, host := [.clock false [presents 0x18#5 ⟨0, 0, 0, 0, 0⟩, ⟨true, false, 0x00#5, goodSpec⟩,
        presents 0x16#5 ⟨0, 0, 0, 0, 0⟩, presents 0x08#5 goodSpec]] }, _, rfl, by decide⟩

theorem witness_SetcLoadsWhatCoefGives :
    (Instr.setcHS1, Instr.coefHS1) ∈ [(Instr.setcLP, Instr.coefLP), (.setcHP, .coefHP), (.setcPK, .coefPK),
      (.setcLS, .coefLS), (.setcHS, .coefHS), (.setcLS1, .coefLS1), (.setcHS1, .coefHS1)] := by decide

/-- Each of the commands goes on, from a state with a stage addressed; so does an edge at which nothing is accepted. -/
theorem witness_AccessMatrix :
    (∀ i ∈ [Instr.nop, .reset, .setcLP, .setcHP, .setcPK, .setcLS, .setcHS, .setcLS1, .setcHS1, .proc],
      (nextOf (exec i twoStages)).isSome = true) ∧
      (nextOf (clockEdge false [StagePins.idle] twoStages)).isSome = true ∧
      (nextOf (clockEdge true [StagePins.idle] twoStages)).isSome = true ∧
      ∀ p ∈ [StagePins.idle], twoStages.accepts p = false := by decide

theorem witness_CommandTouchesOneStage :
    (nextOf (exec .proc twoStages)).isSome = true ∧ (nextOf (exec .coefLP twoStages)).isSome = true ∧
      (1 : Nat) ≠ twoStages.active ∧ encode .proc = .cmd 0x18#5 ∧ encode .coefLP = .kind 0#3 := by decide

theorem witness_OutValidExactlyAfterProc :
    ∃ s : State, s.host = .clock false [presents 0x18#5 goodSpec, presents 0x00#5 goodSpec] :: [] ∧
      (nextOf (step s)).isSome = true :=
  ⟨{ twoStages with host := [.clock false [presents 0x18#5 goodSpec, presents 0x00#5 goodSpec]] }, by decide⟩

theorem witness_NopEqualsIdleCycle : 1 < twoStages.stages.length ∧ twoStages.resetSeen = true := by decide

/-- Other levels on every port that is not consumed, for one instruction of each row of R56. -/
theorem witness_UnconsumedPortsDoNotMatter :
    consumedBy .nop ⟨1, 2, 3, 4, 5⟩ = consumedBy .nop goodSpec ∧ consumedBy .reset ⟨1, 2, 3, 4, 5⟩ = consumedBy .reset goodSpec ∧
      consumedBy .proc { goodSpec with fs := 1, freq := 2, q := 3, gainDb := 4 } = consumedBy .proc goodSpec ∧
      consumedBy .setcLP { goodSpec with gainDb := 1, sampleIn := 2 } = consumedBy .setcLP goodSpec ∧
      consumedBy .coefLS1 { goodSpec with q := 1, sampleIn := 2 } = consumedBy .coefLS1 goodSpec ∧
      (nextOf (exec .setcLP { twoStages with ports := goodSpec })).isSome = true := by decide

/-- V-C4's operands are in contract for every kind; at `q = 0` they are not, for a second-order kind. -/
theorem witness_ValidSpec :
    (∀ k ∈ [FilterKind.lp, .hp, .pk, .ls, .hs, .ls1, .hs1], ValidSpec k goodSpec) ∧
      ¬ValidSpec .lp { goodSpec with q := 0 } := by
  unfold ValidSpec
  decide +kernel

theorem witness_CalculatorIsDeterministicUpToNans : NoNaN (calcTrees numCR noDraw .ls1 goodSpec) := by
  unfold NoNaN
  decide +kernel

theorem witness_ZeroGainIsIdentity :
    mag64 ({ goodSpec with gainDb := 0x8000000000000000#64 } : Operands).gainDb = 0 ∧
      mag64 (csOf numCR noDraw { goodSpec with gainDb := 0x8000000000000000#64 }) ≠ 0 := by decide +kernel

theorem witness_FirstOrderUnityAtZeroGain :
    mag64 ({ goodSpec with gainDb := 0 } : Operands).gainDb = 0 ∧
      mag64 (kOf numCR noDraw { goodSpec with gainDb := 0 }) ≤ mag64 0x7FC0000000000000#64 := by decide +kernel

theorem witness_BasicOperationsRoundToNearestEven :
    isFinite64 0x7FEFFFFFFFFFFFFF#64 = true ∧ isFinite64 1#64 = true ∧ mag64 1#64 ≠ 0 := by decide

theorem witness_SquareRootRoundsToNearestEven :
    (isFinite64 1#64 = true ∧ 0 ≤ value64 1#64) ∧
      isFinite64 0x8000000000000000#64 = true ∧ 0 ≤ value64 0x8000000000000000#64 := by decide +kernel

/-- A pair for each case of the table of R73. -/
theorem witness_SpecialCasesOfBasicOperations :
    isNaN64 0x7FF0000000000001#64 = true ∧ isInf64 posInf64 = true ∧ isInf64 0xFFF0000000000000#64 = true ∧
      sign64 posInf64 ≠ sign64 0xFFF0000000000000#64 ∧ mag64 0x8000000000000000#64 = 0 ∧
      (isFinite64 1#64 = true ∧ mag64 1#64 ≠ 0 ∧ isNaN64 1#64 = false) ∧
      isNaN64 0x8000000000000001#64 = false ∧ sign64 0x8000000000000001#64 = true ∧ mag64 0x8000000000000001#64 ≠ 0 := by
  decide

/-- Operands whose sum, difference, product and quotient are too large. -/
theorem witness_SpecialCases_overflow :
    (2 : ℚ) ^ 1024 - 2 ^ 970 ≤ |value64 0x7FEFFFFFFFFFFFFF#64 + value64 0x7FEFFFFFFFFFFFFF#64| ∧
      (2 : ℚ) ^ 1024 - 2 ^ 970 ≤ |value64 0xFFEFFFFFFFFFFFFF#64 - value64 0x7FEFFFFFFFFFFFFF#64| ∧
      (2 : ℚ) ^ 1024 - 2 ^ 970 ≤ |value64 0x7FEFFFFFFFFFFFFF#64 * value64 0xC000000000000000#64| ∧
      (2 : ℚ) ^ 1024 - 2 ^ 970 ≤ |value64 0x7FEFFFFFFFFFFFFF#64 / value64 0x8000000000000001#64| := by
  decide +kernel

/-- An operation that gives a NaN, and quiet NaNs of both formats. -/
theorem witness_NanResultsAreQuiet :
    isNaN64 (fmul 5 0 posInf64) = true ∧ isNaN64 (widen 0 0x7F800001#32) = true ∧
      isNaN32 (narrow 0 0x7FF0000000000001#64) = true ∧ isQuietNaN64 0xFFF8000000000000#64 = true ∧
      isQuietNaN32 0x7FFFFFFF#32 = true := by decide

theorem witness_SignsAndComparison :
    isFinite64 0x8000000000000000#64 = true ∧ isFinite64 0#64 = true ∧ isNaN64 0xFFFFFFFFFFFFFFFF#64 = true ∧
      isInf64 0xFFF0000000000000#64 = true ∧ isInf64 posInf64 = true := by decide

theorem witness_WidenIsExact :
    (isFinite32 0x00000001#32 = true ∧ mag32 0x00000001#32 ≠ 0) ∧ isInf32 0xFF800000#32 = true ∧
      isNaN32 0x7F800001#32 = true := by decide

/-- At 2^-150 a finite value is still narrowed to a zero. -/
theorem witness_NarrowRoundsToNearestEven :
    isFinite64 0x3690000000000000#64 = true ∧ value64 0x3690000000000000#64 = 1 / 2 ^ 150 ∧
      (isFinite64 0x47EFFFFFF0000000#64 = true ∧ value64 0x47EFFFFFF0000000#64 = 2 ^ 128 - 2 ^ 103) ∧
      isInf64 posInf64 = true ∧ isNaN64 0x7FF0000000000001#64 = true ∧
      (isNaN64 0xFFF0000000000000#64 = false ∧ isNaN64 posInf64 = false ∧
        signed64 0xFFF0000000000000#64 ≤ signed64 posInf64) ∧ isNaN32 0x7F800000#32 = false := by decide +kernel

theorem witness_NumSpecialValuesAndExactPoints :
    (isFinite64 0x7FF0000000000000#64 = false ∧ isNaN64 0x7FF0000000000001#64 = true) ∧
      (∃ y : F64, isFinite64 y = true ∧ (2 : ℝ) ^ 1024 ≤ (10 : ℝ) ^ (value64 y : ℝ)) ∧
      ∃ y : F64, isFinite64 y = true ∧ (10 : ℝ) ^ (value64 y : ℝ) < 1 / 2 ^ 1022 ∧ value64 y ≤ -324 := by
  refine ⟨by decide, ⟨0x4079000000000000#64, by decide, ?_⟩, ⟨0xC074400000000000#64, by decide, ?_, ?_⟩⟩
  · have hv : value64 0x4079000000000000#64 = (400 : Nat) := by decide +kernel
    have hle : 2 ^ 1024 ≤ 10 ^ 400 := by decide +kernel
    rw [hv, Rat.cast_natCast, Real.rpow_natCast]
    exact_mod_cast hle
  · have hv : value64 0xC074400000000000#64 = -((324 : Nat) : ℚ) := by decide +kernel
    have hlt : 2 ^ 1022 < 10 ^ 324 := by decide +kernel
    rw [hv, Rat.cast_neg, Rat.cast_natCast, Real.rpow_neg (by norm_num), Real.rpow_natCast, inv_eq_one_div]
    exact one_div_lt_one_div_of_lt (by positivity) (by exact_mod_cast hlt)
  · decide +kernel

/-- `NUM_CR` and an operand at which the cosine is 1. -/
theorem witness_ElementaryFunctionsAreFaithful :
    ∃ (rnd : NumRounding) (a : F64), rnd.Admissible ∧ isFinite64 a = true ∧ 1 / 2 ^ 100 ≤ |Real.cos (value64 a)| := by
  refine ⟨numCR, 0, fun _ _ _ _ _ h1 h2 => ⟨h1, h2⟩, by decide, ?_⟩
  have hv : value64 0 = 0 := by decide +kernel
  rw [hv, Rat.cast_zero, Real.cos_zero, abs_one]
  norm_num

/-- 10^22, the largest whole power of 10 that binary64 has. -/
theorem witness_RepresentablePowersOfTenAreExact :
    ∃ (rnd : NumRounding) (y c : F64), rnd.Admissible ∧ isFinite64 y = true ∧ isFinite64 c = true ∧ value64 y = (22 : Nat) ∧
      (value64 c : ℝ) = (10 : ℝ) ^ (value64 y : ℝ) := by
  refine ⟨numCR, 0x4036000000000000#64, 0x4480F0CF064DD592#64, fun _ _ _ _ _ h1 h2 => ⟨h1, h2⟩, by decide, by decide, by decide +kernel, ?_⟩
  have hy : value64 0x4036000000000000#64 = (22 : Nat) := by decide +kernel
  have hc : value64 0x4480F0CF064DD592#64 = ((10 ^ 22 : Nat) : ℚ) := by decide +kernel
  rw [hc, hy, Rat.cast_natCast, Rat.cast_natCast, Real.rpow_natCast, Nat.cast_pow, Nat.cast_ofNat]

theorem witness_ReferenceNumIsNearest : ∃ a : F64, isFinite64 a = true ∧ 1 / 2 ^ 100 ≤ |Real.cos (value64 a)| :=
  let ⟨_, a, _, h⟩ := witness_ElementaryFunctionsAreFaithful
  ⟨a, h⟩

/-- The least and the greatest operand of each range. -/
theorem witness_NumRangeAndSign :
    (isFinite64 1#64 = true ∧ 0 < value64 1#64 ∧ value64 1#64 < value64 0x400921FB54442D18#64) ∧
      (isFinite64 0x400921FB54442D17#64 = true ∧ value64 0x400921FB54442D17#64 < value64 0x400921FB54442D18#64) ∧
      isFinite64 0x3FF921FB54442D18#64 = true ∧ 0 < value64 0x3FF921FB54442D18#64 := by decide +kernel

/-- Just below the threshold, at it, and an infinity. -/
theorem witness_SquelchIsStrictAndOnTheFinalSum :
    (isFinite64 0xBBC79CA10C924222#64 = true ∧ |value64 0xBBC79CA10C924222#64| < value64 0x3BC79CA10C924223#64) ∧
      (isFinite64 0xBBC79CA10C924223#64 = true ∧ value64 0x3BC79CA10C924223#64 ≤ |value64 0xBBC79CA10C924223#64|) ∧
      isFinite64 posInf64 = false := by decide +kernel

/-- The reset state, with the last sample that is squelched, the first that passes, and the two zeros. -/
theorem witness_PassthroughOfFiniteSamples :
    Stage.reset.bank = ⟨0x3FF0000000000000#64, 0, 0, 0, 0⟩ ∧
      (isFinite64 Stage.reset.hist.x1 = true ∧ isFinite64 Stage.reset.hist.x2 = true ∧
        isFinite64 Stage.reset.hist.y1 = true ∧ isFinite64 Stage.reset.hist.y2 = true) ∧
      isFinite32 0x1E3CE508#32 = true ∧ isFinite32 0x9E3CE509#32 = true ∧ isFinite32 0x00000000#32 = true ∧
      isFinite32 0x80000000#32 = true :=
  ⟨rfl, by decide, by decide⟩

theorem witness_NonFiniteValuesPersist :
    isFinite32 0x7F800000#32 = false ∧ isFinite64 ({ Stage.reset with hist := ⟨0, 0, posInf64, 0⟩ } : Stage).hist.y1 = false := by
  decide

theorem witness_StepKeepsOutputRange :
    (∀ st ∈ twoStages.stages, st.inRange) ∧
      (nextOf (step { twoStages with host := [procEvent 0 0x3F800000#32] })).isSome = true := by
  unfold Stage.inRange
  decide

theorem witness_StepKeepsOutNarrowedY1 :
    (∀ st ∈ twoStages.stages, outIsNarrowedY1 st) ∧
      (nextOf (step { twoStages with host := [procEvent 0 0x3F800000#32] })).isSome = true := by
  refine ⟨fun st hst => ?_, by decide⟩
  have : st = Stage.reset := by simpa [twoStages, State.constructed] using hst
  subst this
  refine ⟨fun _ d => ?_, fun h => absurd h (by decide)⟩
  rw [show Stage.reset.hist.y1 = zero64 from rfl, narrow_of_finite (by decide)]
  decide +kernel

theorem witness_ChainPushesSampleThroughEveryStage :
    ∃ s : State, s.resetSeen = true ∧ s.host = chainEvents s.stages.length 0x3F800000#32 ++ [.clock false []] :=
  ⟨{ twoStages with host := [procEvent 0 0x3F800000#32, procEvent 1 0x3F800000#32, .clock false []] }, by decide⟩

theorem witness_IdealGainsAtDcAndNyquist :
    |(1 / 2 : ℝ)| < 1 ∧ (0 : ℝ) < 1 ∧ (0 : ℝ) < 2 := by
  refine ⟨?_, one_pos, two_pos⟩
  rw [abs_of_pos] <;> norm_num

theorem witness_IdealPolesInsideUnitCircle :
    |(-1 / 2 : ℝ)| < 1 ∧ (0 : ℝ) < 1 ∧ (0 : ℝ) < 2 := by
  refine ⟨?_, one_pos, two_pos⟩
  rw [abs_of_neg] <;> norm_num

end Sys2Proof.Tests
end

section
/-! PROOFS. The registers and their invariants (10_state.md): what a reset and each command leave in a stage, when
`OUT_VALID` is 1, and the ranges of the outputs (rules R20, R24, R26 to R28). -/

namespace Sys2Proof.Machine

/-! ### What a reset leaves -/

@[simp] theorem Stage.reset_outValid : Stage.reset.outValid = false := rfl

/-- Every stage of the reset state is a reset one (R24, R145). -/
theorem State.eq_reset_of_mem_reset {st : Stage} (h : st ∈ State.reset.stages) : st = Stage.reset := by
  rw [State.reset, State.constructed, List.mem_cons, List.mem_cons] at h
  exact h.elim id fun h => h.elim id List.eq_of_mem_replicate

/-- Every stage is a reset one after a hardware reset (R170, R145). -/
theorem State.eq_reset_of_mem_hardwareReset {s : State} {st : Stage} (h : st ∈ s.hardwareReset.stages) :
    st = Stage.reset := by
  obtain ⟨_, -, rfl⟩ := List.mem_map.1 h
  rfl

/-! ### What a command leaves in the stage it is addressed to -/

/-- A command that goes on leaves its effect in the stage it is addressed to. -/
theorem stage_after_exec {i : Instr} {s t : State} {f : Stage → Stage} {st st' : Stage} (hf : stageEffect s i = some f)
    (h : exec i s = .next t) (hst : s.stages[s.active]? = some st) (hst' : t.stages[s.active]? = some st') :
    st' = f st := by
  rw [exec_stage hf, onStage_of_stage hst, Host.Outcome.next.injEq] at h
  have hlt := (List.getElem?_eq_some_iff.1 hst).1
  simpa [← h, hlt, eq_comm] using hst'

theorem stageEffect_setc (s : State) (k : FilterKind) : stageEffect s (.setc k) = some (Stage.loadBank (s.calculate k)) := by
  cases k <;> rfl

/-- `PROC` alone leaves `OUT_VALID` at 1 (R20). -/
theorem stageEffect_outValid {s : State} {i : Instr} {f : Stage → Stage} (hf : stageEffect s i = some f) (st : Stage) :
    (f st).outValid = true ↔ i = .proc := by
  cases i <;> cases hf <;> simp

/-! ### What an edge leaves at which no command is accepted -/

/-- The ports of a cycle are read with no regard to what the host presents after it. -/
@[simp] theorem State.seen_withHost (s : State) (rest : List Event) : ({ s with host := rest } : State).seen = s.seen := rfl

theorem clockEdge_idle_next {pins : List StagePins} {s t : State} (h : clockEdge false pins s = .next t)
    (hp : ∀ p ∈ pins, s.accepts p = false) : t = s.idleEdge := by
  rcases clockEdge_next h with ⟨hrst, -⟩ | ⟨-, -, -, he⟩
  · cases hrst
  · rw [stagesEdge_idle (by simpa using hp), Host.Outcome.next.injEq] at he
    exact he.symm

/-! ### The two invariants of the outputs -/

/-- R27 of one stage: `y1` is a squelched sum and moves on into `y2`, and `OUT` is narrowed from it. -/
theorem inRange_stageInvariant : StageInvariant Stage.inRange where
  reset := by unfold Stage.inRange; decide
  unstrobe _ h := h
  loadBank _ _ h := h
  process d x st h := by
    obtain ⟨hy1, -, -⟩ := h
    exact ⟨squelch_range _, hy1, narrow_range (squelch_range _)⟩

/-- What is narrowed from `y1`, by whatever draw, is `OUT` as R28 has it. -/
theorem outIsNarrowedY1_of_eq {st : Stage} {d : NanDraw} (h : st.out = narrow d st.hist.y1) : outIsNarrowedY1 st := by
  refine ⟨fun hy d' => ?_, fun hy => ?_⟩
  · rw [h, narrow_draw hy d d']
  · rw [h, narrow_of_nan hy, isNaN32_nan32]

theorem narrow_zero64 (d : NanDraw) : narrow d zero64 = 0 := by
  rw [narrow_of_finite (by decide)]
  decide +kernel

/-- R28 of one stage: `PROC` writes `y1` and `OUT` together, a reset writes two zeros, and no other command writes
either. -/
theorem outIsNarrowedY1_stageInvariant : StageInvariant outIsNarrowedY1 where
  reset := outIsNarrowedY1_of_eq (narrow_zero64 0).symm
  unstrobe _ h := h
  loadBank _ _ h := h
  process d x st _ := outIsNarrowedY1_of_eq (st.process_out d x)

/-! ### The obligations -/

/-- Settles O49: every command keeps the range of a stage's outputs, so every step does. -/
theorem stepKeepsOutputRange : Obligations.StepKeepsOutputRange :=
  fun _ _ hs h => step_keeps inRange_stageInvariant h hs

/-- Settles O50: every command keeps `OUT = narrow(y1)`, so every step does. -/
theorem stepKeepsOutNarrowedY1 : Obligations.StepKeepsOutNarrowedY1 :=
  fun _ _ hs h => step_keeps outIsNarrowedY1_stageInvariant h hs

/-- Settles O51: each stage of the reset state is a reset one, and that meets both invariants. -/
theorem resetStateMeetsOutputInvariants : Obligations.ResetStateMeetsOutputInvariants := by
  intro st hst
  rw [State.eq_reset_of_mem_reset hst]
  exact ⟨inRange_stageInvariant.reset, outIsNarrowedY1_stageInvariant.reset⟩

/-- Settles O19: each command's row is its effect on the stage it is addressed to; the last two rows are those of the
hardware reset and of the idle edge. -/
theorem accessMatrix : Obligations.AccessMatrix := by
  refine ⟨fun s t st st' hst hst' => ⟨fun h => ?nop, fun h => ?reset, fun k h => ?setc, fun h => ?proc⟩,
    fun s t rst pins h hp i st st' hst hst' => ?edge⟩
  case nop => simp [stage_after_exec rfl h hst hst']
  case reset =>
    rw [stage_after_exec rfl h hst hst']
    exact ⟨rfl, rfl, rfl, rfl⟩
  case setc => simp [stage_after_exec (stageEffect_setc s k) h hst hst']
  case proc => simp [stage_after_exec rfl h hst hst']
  case edge =>
    cases rst with
    | true =>
      rw [clockEdge_reset, Host.Outcome.next.injEq] at h
      rw [← h] at hst'
      rw [State.eq_reset_of_mem_hardwareReset (List.mem_of_getElem? hst')]
      exact ⟨rfl, fun _ => ⟨rfl, rfl, rfl⟩, nofun⟩
    | false =>
      rw [clockEdge_idle_next h hp, State.idleEdge_stages, List.getElem?_map, hst, Option.map_some,
        Option.some.injEq] at hst'
      simp [← hst']

/-- Settles O21: what an edge leaves in a stage is the effect of the one command it accepts, or of idling. -/
theorem outValidExactlyAfterProc : Obligations.OutValidExactlyAfterProc := by
  intro s t pins rest hhost h i st' hst'
  rw [step_of_clock hhost] at h
  rcases clockEdge_next h with ⟨hrst, -⟩ | ⟨-, -, -, he⟩
  · cases hrst
  rcases stagesEdge_stage he i with ⟨p, ins, f, n, st, -, hp, hacc, hdec, hf, -, ht⟩ | ⟨hnone, ht⟩
  · -- the stage accepts the command `ins`
    obtain rfl : f st = st' := by simpa [ht] using hst'
    obtain ⟨q, hq, rfl⟩ : ∃ q, pins[i]? = some q ∧ s.seen q = p := by simpa using hp
    rw [State.seen_cmd] at hdec
    rw [stageEffect_outValid hf]
    refine ⟨fun hproc => ⟨q, hq, hacc, hproc ▸ hdec⟩, ?_⟩
    rintro ⟨q', hq', -, hdec'⟩
    obtain rfl : q = q' := by simpa [hq] using hq'
    simpa [hdec] using hdec'
  · -- it accepts none and idles
    obtain ⟨st, -, rfl⟩ : ∃ st, s.stages[i]? = some st ∧ st.unstrobe = st' := by simpa [ht] using hst'
    rw [Stage.unstrobe_outValid]
    refine ⟨nofun, ?_⟩
    rintro ⟨q, hq, hacc, -⟩
    have hno : s.accepts q = false := hnone (s.seen q) (Nat.zero_le i) (by simp [hq])
    simp [hno] at hacc

/-- Settles O11: all three resets leave the one stage `Stage.reset`. -/
theorem resetGivesEveryRegisterItsValue : Obligations.ResetGivesEveryRegisterItsValue := by
  unfold Obligations.ResetGivesEveryRegisterItsValue
  intro isReset
  have hreset : isReset Stage.reset := ⟨rfl, rfl, rfl, rfl, rfl, rfl, rfl, rfl, rfl, rfl, rfl⟩
  refine ⟨fun st hst => ?_, fun s t pins rest hhost h st hst => ?_, fun s st hst => ?_⟩
  · rwa [State.eq_reset_of_mem_reset hst]
  · rw [step_of_clock hhost, clockEdge_reset, Host.Outcome.next.injEq] at h
    rw [← h] at hst
    rwa [State.eq_reset_of_mem_hardwareReset hst]
  · have hlt := (List.getElem?_eq_some_iff.1 hst).1
    exact ⟨_, Stage.reset, onStage_of_stage hst, by simp [hlt], hreset⟩

end Sys2Proof.Machine
end

section
/-! PROOFS. The encoding (30_encoding.md): decoding undoes encoding and gives nothing else, which words are reserved, and
the opcode map (rules R50 to R58, R116). -/

namespace Sys2Proof

/-! ### Encoding and decoding are inverse -/

@[simp] theorem decode_encode (i : Instr) : decode (encode i) = .ok i := by
  cases i <;> rfl

/-- What a word decodes to is encoded by that very word: "every command is one exact word" (R58). -/
theorem encode_of_mem_decode : ∀ c : CodeWord, ∀ i ∈ (decode c).toOption, encode i = c
  | .cmd w => by revert w; decide
  | .kind w => by revert w; decide

theorem decode_eq_ok_iff {c : CodeWord} {i : Instr} : decode c = .ok i ↔ encode i = c := by
  refine ⟨fun h => encode_of_mem_decode c i ?_, ?_⟩
  · rw [h]
    rfl
  · rintro rfl
    exact decode_encode i

theorem encode_setc (k : FilterKind) : encode (.setc k) = .cmd (cmdOf 0b10#2 k.code) := by
  cases k <;> rfl

theorem decode_setc (k : FilterKind) : decode (.cmd (cmdOf 0b10#2 k.code)) = .ok (.setc k) := by
  rw [← encode_setc, decode_encode]

/-! ### The reserved words -/

/-- The decoder gives an instruction exactly where the word is not a reserved one (R57, R116). -/
theorem isOk_decode : ∀ c : CodeWord, (decode c).isOk = c.wellFormed
  | .cmd w => by revert w; decide
  | .kind w => by revert w; decide

theorem decode_error_iff {c : CodeWord} : (∃ r, decode c = .error r) ↔ c.wellFormed = false := by
  rw [← isOk_decode]
  cases decode c <;> simp [Except.isOk, Except.toBool]

/-! ### The rows of the opcode map -/

/-- A row of the command map masks nothing out, and its match is its instruction's word. -/
theorem stageRows_exact :
    ∀ r ∈ stageRows, encode r.instr = .cmd (BitVec.ofNat 5 r.mtch) ∧ r.mask = 2 ^ 5 - 1 ∧ r.mtch < 2 ^ 5 := by
  decide

/-- Nor does a row of the kind map, and its match is its function's kind. -/
theorem calculatorRows_exact :
    ∀ r ∈ calculatorRows, encode r.instr = .kind (BitVec.ofNat 3 r.mtch) ∧ r.mask = 2 ^ 3 - 1 ∧ r.mtch < 2 ^ 3 := by
  decide

/-- Where the mask is whole, the one word that selects a row is its match. -/
theorem OpRow.selects_iff_of_whole_mask {r : OpRow} {n : Nat} (hmask : r.mask = 2 ^ n - 1) (hmtch : r.mtch < 2 ^ n)
    (w : BitVec n) : r.selects w.toNat = true ↔ BitVec.ofNat n r.mtch = w := by
  rw [selects, beq_iff_eq, hmask, Nat.and_two_pow_sub_one_of_lt_two_pow w.isLt, eq_comm, BitVec.toNat_eq,
    BitVec.toNat_ofNat, Nat.mod_eq_of_lt hmtch]

theorem exists_row (i : Instr) : (∃ r ∈ stageRows, r.instr = i) ∨ ∃ r ∈ calculatorRows, r.instr = i := by
  cases i <;> decide

end Sys2Proof

namespace Sys2Proof.Machine

/-- What R164 calls a reserved `cmd` value with `cmd_valid = 1`, by R57's list. -/
theorem StagePins.presentsReserved_iff {p : StagePins} :
    p.presentsReserved = true ↔ p.cmdValid = true ∧ (CodeWord.cmd p.cmd).wellFormed = false := by
  rw [presentsReserved, Bool.and_eq_true, ← isOk_decode]
  cases decode (.cmd p.cmd) <;> simp [Except.isOk, Except.toBool]

/-! ### The obligations -/

/-- Settles O1: by the constructors of the instruction, in `decode_encode`. -/
theorem encodeThenDecodeIsIdentity : Obligations.EncodeThenDecodeIsIdentity :=
  fun i _ => decode_encode i

/-- Settles O2: a word decodes to a row's instruction exactly when it is that instruction's own word, which is the row's
match; and an instruction without a row on one port has its row, and so its word, on the other. -/
theorem opcodeMapSelectsInstructions : Obligations.OpcodeMapSelectsInstructions := by
  refine ⟨fun r hr w => ?stage, fun r hr w => ?calculator, fun w i h => ?ofCmd, fun w i h => ?ofKind⟩
  case stage =>
    obtain ⟨henc, hmask, hmtch⟩ := stageRows_exact r hr
    rw [decode_eq_ok_iff, henc, CodeWord.cmd.injEq, OpRow.selects_iff_of_whole_mask hmask hmtch]
  case calculator =>
    obtain ⟨henc, hmask, hmtch⟩ := calculatorRows_exact r hr
    rw [decode_eq_ok_iff, henc, CodeWord.kind.injEq, OpRow.selects_iff_of_whole_mask hmask hmtch]
  case ofCmd =>
    refine (exists_row i).resolve_right ?_
    rintro ⟨r, hr, rfl⟩
    simp [decode_eq_ok_iff, calculatorRows_exact r hr] at h
  case ofKind =>
    refine (exists_row i).resolve_left ?_
    rintro ⟨r, hr, rfl⟩
    simp [decode_eq_ok_iff, stageRows_exact r hr] at h

/-- Settles O3: each of the words is the encoding of its instruction. -/
theorem writtenWordsDecode : Obligations.WrittenWordsDecode :=
  ⟨decode_encode .nop, decode_encode .reset, decode_encode .setcLS, decode_encode .setcHS1, decode_encode .proc,
    decode_encode .coefPK, decode_encode .coefLS1⟩

/-- Settles O4: the words that do not decode are those listed; the clock edge looks for one before any stage acts, and the
calculator's word is decoded first. -/
theorem reservedWordsAreRefused : Obligations.ReservedWordsAreRefused := by
  refine ⟨fun w => ?list, fun s pins rest hhost hr hp => ?edge, fun s fs freq q g rest hhost => ?calculator⟩
  case list =>
    rw [decode_error_iff]
    revert w
    decide
  case edge =>
    obtain ⟨p, hp, hres⟩ := hp
    obtain ⟨q, hq, hres', hedge⟩ := clockEdge_reserved (s := { s with host := rest }) hr hp
      (StagePins.presentsReserved_iff.2 hres)
    obtain ⟨hvalid, hill⟩ := StagePins.presentsReserved_iff.1 hres'
    exact ⟨q, hq, hvalid, hill, (step_of_clock hhost).trans hedge⟩
  case calculator => exact step_of_calculator hhost

end Sys2Proof.Machine
end

section
/-! PROOFS. What the host presents is what is executed (30_encoding.md rules R53, R54, R56): the step of one command, of
an evaluation and of an idle cycle, and the ports that an instruction does not consume. -/

namespace Sys2Proof.Machine

/-! ### Idle cycles -/

@[simp] theorem Stage.unstrobe_unstrobe (st : Stage) : st.unstrobe.unstrobe = st.unstrobe := rfl

/-- A stage to which nothing is presented accepts nothing, in the first cycle after a reset too. -/
theorem State.accepts_of_not_valid (s : State) {p : StagePins} (h : p.cmdValid = false) : s.accepts p = false := by
  simp [State.accepts, StagePins.accepts, h]

/-- A stage that is not ready accepts nothing, after the first cycle that follows a reset (R172). -/
theorem State.accepts_of_not_ready {s : State} {p : StagePins} (h : p.cmdReady = false) (hs : s.afterRst = false) :
    s.accepts p = false := by
  simp [State.accepts, StagePins.accepts, State.seen, h, hs]

theorem StagePins.presentsReserved_of_not_valid {p : StagePins} (h : p.cmdValid = false) : p.presentsReserved = false := by
  simp [presentsReserved, h]

theorem StagePins.presentsReserved_of_wellFormed {p : StagePins} (h : (CodeWord.cmd p.cmd).wellFormed = true) :
    p.presentsReserved = false :=
  Bool.eq_false_iff.2 fun hres => by simp [presentsReserved_iff, h] at hres

theorem clockEdge_idle {pins : List StagePins} {s : State} (hr : s.resetSeen = true)
    (hp : ∀ p ∈ pins, s.accepts p = false ∧ p.presentsReserved = false) : clockEdge false pins s = .next s.idleEdge := by
  rw [clockEdge_run hr fun p hm => (hp p hm).2]
  exact stagesEdge_idle (by simpa using fun p hm => (hp p hm).1)

/-! ### One command presented -/

/-- The assembler's cycle for one command executes it on the stage it names (R60). -/
theorem step_of_commandEvent {s : State} {i : Nat} {op : BitVec 2} {kind : KindBits} {o : Operands} {rest : List Event}
    {ins : Instr} (hhost : s.host = commandEvent i op kind o :: rest) (hr : s.resetSeen = true)
    (hd : decode (.cmd (cmdOf op kind)) = .ok ins) :
    step s = exec ins (({ s with host := rest } : State).idleEdge.present i o) := by
  rw [step_of_clock hhost, clockEdge_last (s := { s with host := rest }) hr (fun b hb => ?idle) rfl hd,
    List.length_replicate]
  rw [List.eq_of_mem_replicate hb]
  exact ⟨State.accepts_of_not_valid _ rfl, StagePins.presentsReserved_of_not_valid rfl⟩

/-! ### The operands an instruction consumes -/

theorem consumedBy_of_calcKind {i : Instr} {k : FilterKind} (h : calcKind i = some k) (o : Operands) :
    consumedBy i o = consumedByKind k o := by
  cases i <;> cases h <;> rfl

/-- The contract looks at the operands of the kind alone (R101, R114). -/
theorem inContract_consumedByKind (k : FilterKind) (o : Operands) : inContract k (consumedByKind k o) = inContract k o := by
  cases k <;> rfl

/-- So does the branch that the kind selects (R114, R117). -/
theorem preNorm_consumedByKind (rnd : NumRounding) (d : Nat → NanDraw) (k : FilterKind) (o : Operands) :
    preNorm rnd d (consumedByKind k o) k = preNorm rnd d o k := by
  cases k <;> rfl

/-- A calculation is the same from ports that carry the same operands of its kind. -/
theorem State.calculate_withPorts {k : FilterKind} {s : State} {o : Operands}
    (h : consumedByKind k o = consumedByKind k s.ports) : ({ s with ports := o } : State).calculate k = s.calculate k := by
  have hcontract : inContract k o = inContract k s.ports := by
    rw [← inContract_consumedByKind, h, inContract_consumedByKind]
  have htrees : calcTrees numHW s.nanDraw k o = calcTrees numHW s.nanDraw k s.ports := by
    rw [calcTrees, ← preNorm_consumedByKind, h, preNorm_consumedByKind, calcTrees]
  simp only [State.calculate, hcontract]
  rw [← htrees]
  rfl

/-- The effect of a stage command is the same from ports that carry the same operands of it (R56). -/
theorem stageEffect_withPorts {i : Instr} {s : State} {o : Operands} (h : consumedBy i o = consumedBy i s.ports) :
    stageEffect { s with ports := o } i = stageEffect s i := by
  cases i
  case nop | reset => rfl
  case coefLP | coefHP | coefPK | coefLS | coefHS | coefLS1 | coefHS1 => rfl
  case setcLP | setcHP | setcPK | setcLS | setcHS | setcLS1 | setcHS1 =>
    exact congrArg (fun c => some (Stage.loadBank c)) (State.calculate_withPorts h)
  case proc =>
    have hin : o.sampleIn = s.ports.sampleIn := by simpa [consumedBy] using h
    exact congrArg (fun x => some (Stage.process s.nanDraw x)) hin

/-! ### The obligations -/

/-- Settles O5: the stages listed before the accepting one do nothing at the edge. -/
theorem stepExecutesPresentedCommand : Obligations.StepExecutesPresentedCommand :=
  fun _ _ _ _ _ hhost hr hb hp _ hd => (step_of_clock hhost).trans (clockEdge_last hr hb hp hd)

/-- Settles O6: an evaluation runs the kind's word on the levels presented. -/
theorem stepExecutesPresentedKind : Obligations.StepExecutesPresentedKind :=
  fun _ _ _ _ _ _ _ _ hhost _ hd => (step_of_calculator hhost).trans (execWord_of_ok hd)

/-- Settles O8: such a cycle is the idle edge. -/
theorem idleCycleClearsOnlyOutValid : Obligations.IdleCycleClearsOnlyOutValid := by
  refine fun s hr => ⟨fun hhost => ?_, fun pins rest hhost hp => ?_⟩
  · rw [step_of_nothing hhost]
    exact clockEdge_idle hr (by simp)
  · rw [step_of_clock hhost]
    refine clockEdge_idle hr fun p hm => ?_
    rcases hp p hm with hvalid | ⟨hready, hafter, hwf⟩
    · exact ⟨State.accepts_of_not_valid _ hvalid, StagePins.presentsReserved_of_not_valid hvalid⟩
    · exact ⟨State.accepts_of_not_ready hready hafter, StagePins.presentsReserved_of_wellFormed hwf⟩

/-- Settles O22: `NOP` clears `OUT_VALID` of a stage in which the idle edge has already cleared it. -/
theorem nopEqualsIdleCycle : Obligations.NopEqualsIdleCycle := by
  intro s i hi hr
  have hst : (s.stages.map Stage.unstrobe)[i]? = some s.stages[i].unstrobe := by simp [hi]
  have hnop : step { s with host := AsmLine.expand s.stages.length (.nop i) } =
      exec .nop (({ s with host := [] } : State).idleEdge.present i ⟨0, 0, 0, 0, 0⟩) :=
    step_of_commandEvent rfl hr (decode_encode .nop)
  have hidle : step { s with host := AsmLine.expand s.stages.length .idle } = .next ({ s with host := [] } : State).idleEdge :=
    (step_of_clock rfl).trans (clockEdge_idle hr (by simp))
  refine ⟨_, _, hnop.trans (onStage_of_stage hst), hidle, ?_⟩
  simp only [State.spend_stages, State.setStage_stages, State.present_stages, State.present_active, State.idleEdge_stages,
    Stage.unstrobe_unstrobe]
  rw [← List.map_set, List.set_getElem_self]

/-- Settles O23: what an instruction does is its effect on the addressed stage or a calculation of its kind, and either is
the same from ports that carry the same operands of it. -/
theorem unconsumedPortsDoNotMatter : Obligations.UnconsumedPortsDoNotMatter := by
  intro i s t o hc h
  rcases exec_next_cases h with ⟨f, st, hf, hst, rfl⟩ | ⟨k, hk, rfl⟩
  · rw [← stageEffect_withPorts hc] at hf
    rw [exec_stage hf]
    exact onStage_of_stage hst
  · rw [consumedBy_of_calcKind hk, consumedBy_of_calcKind hk] at hc
    rw [exec_calc hk, State.calculate_withPorts hc]
    rfl

end Sys2Proof.Machine
end

section
/-! PROOFS. The assembly lines (30_encoding.md rules R60, R61): what each line presents, and the values of its
literals. -/

namespace Sys2Proof.Machine

/-- A decimal literal of a 64-bit operand is rounded to nearest, ties to even (R60, R71). -/
theorem nearestEven64_valueOfLit64 (neg : Bool) (digits scale : Nat) :
    NearestEven64 (valueOfLit64 (.dec neg digits scale)) (signum neg * ((digits : ℝ) / 10 ^ scale)) := by
  refine nearestEven64_round64 (by positivity) ?_
  have hu := units_ne
  push_cast
  field_simp

/-- Of a sample, likewise. -/
theorem nearestEven32_valueOfLit32 (neg : Bool) (digits scale : Nat) :
    NearestEven32 (valueOfLit32 (.dec neg digits scale)) (signum neg * ((digits : ℝ) / 10 ^ scale)) := by
  refine nearestEven32_round32 (by positivity) ?_
  push_cast
  field_simp

/-- Settles O55: each command's line is one cycle with the encoding of its instruction, and the pseudo-instructions are
lists of such lines; a literal's value is one rounding. -/
theorem assemblyLinesPresentTheirCommands : Obligations.AssemblyLinesPresentTheirCommands := by
  unfold Obligations.AssemblyLinesPresentTheirCommands
  intro presents
  refine ⟨rfl, fun n i k fs freq q g x xs => ⟨rfl, rfl, ?nop, ?reset, ?setc, ?proc, ?procblk, ?chain⟩, fun _ => rfl,
    fun _ => rfl, fun neg digits scale => ⟨nearestEven64_valueOfLit64 neg digits scale,
      nearestEven32_valueOfLit32 neg digits scale⟩⟩
  case nop => exact ⟨_, rfl, rfl, decode_encode .nop, trivial⟩
  case reset => exact ⟨_, rfl, rfl, decode_encode .reset, trivial⟩
  case setc => exact ⟨_, rfl, rfl, decode_setc k, rfl, rfl, rfl, rfl⟩
  case proc => exact ⟨_, rfl, rfl, decode_encode .proc, rfl⟩
  case procblk => exact List.map_eq_flatMap
  case chain => exact List.map_eq_flatMap

end Sys2Proof.Machine
end

section
/-! PROOFS. The rational operations and the square root (40_numerics.md rules R71 to R73): one rounding of the exact result,
and the table of special cases. -/

namespace Sys2Proof.Machine

/-! ### The four rational operations and the square root in real numbers -/

theorem nearestEven64_fadd (d : NanDraw) {a b : F64} (ha : isFinite64 a = true) (hb : isFinite64 b = true) :
    NearestEven64 (fadd d a b) ((value64 a : ℝ) + value64 b) := by
  have hx : (value64 a : ℝ) + value64 b = ((signed64 a + signed64 b : Int) : ℝ) / unitsPerOne := by
    rw [value64_real, value64_real]; push_cast; ring
  rw [fadd_of_finite ha hb, hx]
  split
  · rename_i h
    rw [h, Int.cast_zero, zero_div]
    exact nearestEven64_zero _
  · exact nearestEven64_round64 Nat.one_pos (by rw [Nat.cast_one, div_one, signum_natAbs])

theorem nearestEven64_fsub (d : NanDraw) {a b : F64} (ha : isFinite64 a = true) (hb : isFinite64 b = true) :
    NearestEven64 (fsub d a b) ((value64 a : ℝ) - value64 b) := by
  have h := nearestEven64_fadd d ha ((isFinite64_fneg b).trans hb)
  rwa [value64_fneg, Rat.cast_neg, ← sub_eq_add_neg] at h

theorem nearestEven64_fmul (d : NanDraw) {a b : F64} (ha : isFinite64 a = true) (hb : isFinite64 b = true) :
    NearestEven64 (fmul d a b) ((value64 a : ℝ) * value64 b) := by
  rw [fmul_of_finite ha hb]
  refine nearestEven64_round64 unitsPerOne_pos ?_
  rw [value64_eq, value64_eq, signum_bne, Nat.cast_mul]
  ring

theorem nearestEven64_fdiv (d : NanDraw) {a b : F64} (ha : isFinite64 a = true) (hb : isFinite64 b = true)
    (h : mag64 b ≠ 0) : NearestEven64 (fdiv d a b) ((value64 a : ℝ) / value64 b) := by
  rw [fdiv_of_finite ha hb h]
  have hub : 0 < units64 b := units64_pos.2 (Nat.pos_of_ne_zero h)
  refine nearestEven64_round64 hub ?_
  have hu := units_ne
  have hub' : (units64 b : ℝ) ≠ 0 := Nat.cast_ne_zero.2 hub.ne'
  have hs : signum (sign64 b) ≠ 0 := fun h0 => by simpa [h0] using signum_mul_self (sign64 b)
  rw [value64_eq, value64_eq, signum_bne, Nat.cast_mul]
  field_simp
  rw [sq, signum_mul_self, mul_one]

/-- The root of a positive number of units, in units. -/
theorem sqrt_value64 {a : F64} (hs : sign64 a = false) :
    Real.sqrt (value64 a : ℝ) = Real.sqrt (units64 a * unitsPerOne) / unitsPerOne := by
  have hU : (0 : ℝ) < unitsPerOne := Nat.cast_pos.2 unitsPerOne_pos
  rw [angle_eq, hs, signum_false_mul, ← mul_div_mul_right _ _ hU.ne', Real.sqrt_div' _ (by positivity),
    Real.sqrt_mul_self hU.le]

/-- Twice the root of `R` lies in `[isqrt (4 R), isqrt (4 R) + 1)`. -/
theorem isqrt_bounds (R : Nat) :
    (isqrt (4 * R) : ℝ) ≤ 2 * Real.sqrt R ∧ 2 * Real.sqrt R < isqrt (4 * R) + 1 ∧
      (isqrt (4 * R) * isqrt (4 * R) ≠ 4 * R → (isqrt (4 * R) : ℝ) ≠ 2 * Real.sqrt R) := by
  obtain ⟨h1, h2⟩ := isqrt_spec (4 * R)
  generalize isqrt (4 * R) = n at *
  have h0 := Real.sqrt_nonneg (R : ℝ)
  have hsq := Real.mul_self_sqrt (Nat.cast_nonneg R : (0 : ℝ) ≤ R)
  generalize Real.sqrt (R : ℝ) = t at *
  have e1 : (n : ℝ) * n ≤ 4 * R := by exact_mod_cast h1
  have e2 : 4 * (R : ℝ) < (n + 1) * (n + 1) := by exact_mod_cast h2
  refine ⟨?_, ?_, fun hne he => hne ?_⟩
  · nlinarith
  · nlinarith
  · have : (n : ℝ) * n = 4 * R := by rw [he, ← hsq]; ring
    exact_mod_cast this

/-- What `fsqrt` rounds in place of twice the root of `m`: the doubled whole part, odd where the root is not whole. -/
def doubledRoot (m : Nat) : Nat := 2 * isqrt m + if isqrt m * isqrt m = m then 0 else 1

theorem fsqrt_of_positive (d : NanDraw) {a : F64} (hf : isFinite64 a = true) (hz : mag64 a ≠ 0) (hs : sign64 a = false) :
    fsqrt d a = round64 false (doubledRoot (4 * (units64 a * unitsPerOne))) 4 := by
  obtain ⟨hn, hi⟩ := finite64_iff.1 hf
  simp [fsqrt, doubledRoot, hn, hi, hs, hz, isZero64]

theorem fsqrt_of_zero (d : NanDraw) {a : F64} (hz : mag64 a = 0) : fsqrt d a = a := by
  simp [fsqrt, isNaN64, isZero64, hz]

theorem nearestEven64_fsqrt (d : NanDraw) {a : F64} (hf : isFinite64 a = true) (h0 : 0 ≤ value64 a) :
    NearestEven64 (fsqrt d a) (Real.sqrt (value64 a : ℝ)) := by
  by_cases hz : mag64 a = 0
  · rw [fsqrt_of_zero d hz, value64_of_isZero (by simpa [isZero64] using hz), Real.sqrt_zero, ← pack64_sign_mag a, hz]
    exact nearestEven64_zero _
  · have hs : sign64 a = false := by
      rw [← sign_of_signed64 hz, decide_eq_false_iff_not, not_lt]
      have := value64_le.1 (value64_zero.trans_le h0)
      exact this
    rw [fsqrt_of_positive d hf hz hs, sqrt_value64 hs, ← Nat.cast_mul]
    generalize units64 a * unitsPerOne = R
    unfold doubledRoot
    obtain ⟨h1, h2, h3⟩ := isqrt_bounds R
    generalize isqrt (4 * R) = n at *
    split
    · -- the root is a whole number of halves
      rename_i he
      have hroot : Real.sqrt R = n / 2 := by
        rw [show (R : ℝ) = (n / 2) ^ 2 by
          have : (n : ℝ) * n = 4 * R := by exact_mod_cast he
          linarith, Real.sqrt_sq (by positivity)]
      refine nearestEven64_round64 (by norm_num) ?_
      rw [hroot, signum_false_mul]
      push_cast
      ring
    · -- the root and its stand-in lie strictly between the same two halves
      rename_i hne
      have hlt := lt_of_le_of_ne h1 (h3 hne)
      refine NearestEven64.transfer (k := n) (Int.natCast_nonneg n) (y := ((2 * n + 1 : Nat) : ℝ) / 4) ?_ ?_
        (nearestEven64_round64 (by norm_num) (by rw [signum_false_mul]; norm_num))
      · push_cast
        constructor <;> linarith
      · rw [Int.cast_natCast]
        constructor <;> linarith

/-- Settles O37: each operation rounds the exact result once. -/
theorem basicOperationsRoundToNearestEven : Obligations.BasicOperationsRoundToNearestEven := fun d _ _ ha hb =>
  ⟨nearestEven64_fadd d ha hb, nearestEven64_fsub d ha hb, nearestEven64_fmul d ha hb, nearestEven64_fdiv d ha hb⟩

/-- Settles O38: the whole part of the doubled root, and whether it is exact, decide the rounding of the root. -/
theorem squareRootRoundsToNearestEven : Obligations.SquareRootRoundsToNearestEven := fun d _ hf h0 =>
  nearestEven64_fsqrt d hf h0

/-! ### The special cases -/

theorem fdiv_inf_inf {d : NanDraw} {a b : F64} (ha : isInf64 a = true) (hb : isInf64 b = true) : fdiv d a b = nan64 d := by
  simp [fdiv, ha, hb, inf64_not_nan]

theorem fdiv_finite_inf {d : NanDraw} {a b : F64} (ha : isFinite64 a = true) (hb : isInf64 b = true) :
    fdiv d a b = pack64 (sign64 a != sign64 b) 0 := by
  obtain ⟨hn, hi⟩ := finite64_iff.1 ha
  simp [fdiv, hn, hi, hb, inf64_not_nan]

theorem fdiv_by_zero {d : NanDraw} {a b : F64} (ha : isFinite64 a = true) (hb : mag64 b = 0) :
    fdiv d a b = if mag64 a = 0 then nan64 d else pack64 (sign64 a != sign64 b) inf64 := by
  obtain ⟨hn, hi⟩ := finite64_iff.1 ha
  obtain ⟨hn', hi'⟩ := finite64_iff.1 (isFinite64_of_mag_zero hb)
  simp [fdiv, hn, hi, hn', hi', isZero64, hb]

theorem fdiv_one {d : NanDraw} {x : F64} (hx : isNaN64 x = false) : fdiv d x one64 = x := by
  have h1 : isFinite64 one64 = true := by decide
  have hs1 : sign64 one64 = false := by decide
  by_cases hi : isInf64 x = true
  · have hm : mag64 x = inf64 := by simpa [isInf64] using hi
    obtain ⟨hn, hi1⟩ := finite64_iff.1 h1
    rw [← pack64_sign_mag x, hm]
    simp [fdiv, isInf64_pack, isNaN64_pack_inf, sign64_pack_inf, hn, hi1, hs1]
  · have hf : isFinite64 x = true := finite64_iff.2 ⟨hx, by simpa using hi⟩
    rw [fdiv_of_finite hf h1 (by decide), units64_one, hs1, Bool.bne_false]
    exact round64_exact hx unitsPerOne_pos rfl

theorem fmul_comm (d : NanDraw) (a b : F64) : fmul d a b = fmul d b a := by
  simp only [fmul, Bool.or_comm (isNaN64 a), Bool.or_comm (isInf64 a), Bool.or_comm (isZero64 a),
    Nat.mul_comm (units64 a), bne_comm (a := sign64 a)]

theorem fmul_zero_inf {d : NanDraw} {a b : F64} (ha : mag64 a = 0) (hb : isInf64 b = true) : fmul d a b = nan64 d := by
  simp [fmul, hb, isZero64, ha]

theorem fsqrt_negative {d : NanDraw} {a : F64} (hn : isNaN64 a = false) (hs : sign64 a = true) (hz : mag64 a ≠ 0) :
    fsqrt d a = nan64 d := by
  simp [fsqrt, hn, hs, isZero64, hz]

theorem isInf64_of_mag_zero {z : F64} (h : mag64 z = 0) : isInf64 z = false :=
  (finite64_iff.1 (isFinite64_of_mag_zero h)).2

/-- Adding a zero changes no number and no infinity. -/
theorem fadd_zero_right {d : NanDraw} {a b : F64} (hn : isNaN64 a = false) (ha : mag64 a ≠ 0) (hb : mag64 b = 0) :
    fadd d a b = a := by
  by_cases hi : isInf64 a = true
  · rw [fadd_inf_left hi (finite64_iff.1 (isFinite64_of_mag_zero hb)).1, isInf64_of_mag_zero hb, Bool.false_and,
      if_neg Bool.false_ne_true]
  · exact fadd_zero (finite64_iff.2 ⟨hn, by simpa using hi⟩) ha hb

theorem fsub_self {d : NanDraw} {a : F64} (ha : isFinite64 a = true) : fsub d a a = 0 := by
  rw [fsub, fadd_of_finite ha ((isFinite64_fneg a).trans ha), signed64_fneg, add_neg_cancel, if_pos rfl, sign64_fneg,
    Bool.and_not_self]
  rfl

/-- A rounded result from the midpoint above the largest finite value on is the infinity of its sign. -/
theorem NearestEven64.overflow {r : F64} {q : ℚ} {x : ℝ} (h : NearestEven64 r x) (hx : x = q)
    (hq : (2 : ℚ) ^ 1024 - 2 ^ 970 ≤ |q|) : isInf64 r = true ∧ sign64 r = decide (q < 0) := by
  subst hx
  obtain ⟨hsign, hinf, -⟩ := h
  have hq' : (2 : ℝ) ^ 1024 - 2 ^ 970 ≤ |(q : ℝ)| := by exact_mod_cast hq
  have hpos : (0 : ℝ) < |(q : ℝ)| := (pow_pos two_pos 1023).trans_le (midpoint_ge.trans hq')
  refine ⟨hinf hq', Bool.eq_iff_iff.2 ?_⟩
  rw [hsign (abs_pos.1 hpos), decide_eq_true_eq, Rat.cast_lt_zero]

/-- Settles O39: each row is the operation's answer to that kind of operand; the overflows are those of the rounded
results. -/
theorem specialCasesOfBasicOperations : Obligations.SpecialCasesOfBasicOperations := by
  intro d a b
  refine ⟨?nan, fun ha => by simp [ha], ?infinities, ?zeroTimesInf, ?zeroByZero, ?byZero, ?byInf, ?sqrtNegative, rfl, rfl,
    ?selfDifference, rfl, rfl, rfl, ?addZero, ?timesZero, ?one, ?overflow⟩
  case nan => rintro (h | h) <;> simp [h]
  case infinities =>
    intro ha hb
    refine ⟨fun hs => ?_, fun hs => ?_, by rw [fdiv_inf_inf ha hb, isQuietNaN64_nan64]⟩
    · rw [fadd_inf_left ha (inf64_not_nan hb), hb]
      simp [hs]
    · rw [fsub, fadd_inf_left ha (by simp [inf64_not_nan hb])]
      simp [hb, hs]
  case zeroTimesInf =>
    intro ha hb
    rw [fmul_comm d b a, fmul_zero_inf ha hb]
    exact ⟨isQuietNaN64_nan64 d, isQuietNaN64_nan64 d⟩
  case zeroByZero =>
    intro ha hb
    rw [fdiv_by_zero (isFinite64_of_mag_zero ha) hb, if_pos ha, isQuietNaN64_nan64]
  case byZero =>
    intro hf ha hb
    rw [fdiv_by_zero hf hb, if_neg ha]
    exact ⟨isInf64_pack _, sign64_pack_inf _⟩
  case byInf =>
    intro hf hb
    rw [fdiv_finite_inf hf hb]
    exact ⟨mag64_pack_zero _, sign64_pack_zero _⟩
  case sqrtNegative =>
    intro hn hs hz
    rw [fsqrt_negative hn hs hz, isQuietNaN64_nan64]
  case selfDifference => exact fun ha => ⟨fsub_self ha, fsub_self ha⟩
  case addZero => exact fun hn ha hb => ⟨fadd_zero_right hn ha hb, fadd_zero_right hn ha ((mag64_fneg b).trans hb)⟩
  case timesZero =>
    intro hf hb
    rw [fmul_comm, fmul_zero hb hf, bne_comm]
    exact ⟨mag64_pack_zero _, sign64_pack_zero _⟩
  case one => exact fun hn => ⟨fmul_one hn, fdiv_one hn⟩
  case overflow =>
    intro ha hb
    refine ⟨fun h => ?_, fun h => ?_, fun h => ?_, fun hz h => ?_⟩
    · exact (nearestEven64_fadd d ha hb).overflow (Rat.cast_add ..).symm h
    · exact (nearestEven64_fsub d ha hb).overflow (Rat.cast_sub ..).symm h
    · exact ⟨((nearestEven64_fmul d ha hb).overflow (Rat.cast_mul ..).symm h).1, by simp [fmul_of_finite ha hb]⟩
    · exact ⟨((nearestEven64_fdiv d ha hb hz).overflow (Rat.cast_div ..).symm h).1, by simp [fdiv_of_finite ha hb hz]⟩

end Sys2Proof.Machine
end

section
/-! PROOFS. NaN results, signs and comparison, and the two conversions (40_numerics.md rules R72, R74, R80, R81). -/

namespace Sys2Proof.Machine

/-! ### The elementary functions' results as a sign and a magnitude -/

theorem Enclosure.magnitude_le {e : Enclosure} {rnd : NumRounding} {f : NumFn} {a : F64} {least most : Nat}
    (h : least ≤ most) : e.magnitude rnd f a least most ≤ most :=
  max_le h (min_le_left _ _)

theorem Enclosure.le_magnitude {e : Enclosure} {rnd : NumRounding} {f : NumFn} {a : F64} {least most : Nat} :
    least ≤ e.magnitude rnd f a least most :=
  le_max_left _ _

/-- A cosine has a magnitude of at most that of 1.0, and up to π/2 is positive. -/
theorem cos64_eq_pack (rnd : NumRounding) (d : NanDraw) {a : F64} (ha : isFinite64 a = true) :
    ∃ s m, cos64 rnd d a = pack64 s m ∧ m ≤ mag64 one64 ∧ (mag64 a ≤ mag64 halfPi64 → s = false ∧ 1 ≤ m) := by
  cases hz : isZero64 a
  · simp only [cos64, ha, hz, Bool.not_true, Bool.false_eq_true, if_false]
    split
    · exact ⟨_, _, rfl, Enclosure.magnitude_le (by decide), fun _ => ⟨rfl, Enclosure.le_magnitude⟩⟩
    · exact ⟨_, _, rfl, Enclosure.magnitude_le (Nat.zero_le _), fun h => absurd h ‹_›⟩
  · exact ⟨false, mag64 one64, cos64_zero hz rnd d, le_rfl, fun _ => ⟨rfl, by decide⟩⟩

/-- A sine has a magnitude of at most that of 1.0, and between 0 and `PI64` is positive. -/
theorem sin64_eq_pack (rnd : NumRounding) (d : NanDraw) {a : F64} (ha : isFinite64 a = true) :
    ∃ s m, sin64 rnd d a = pack64 s m ∧ m ≤ mag64 one64 ∧
      (isZero64 a = false → sign64 a = false → mag64 a < mag64 pi64 → s = false ∧ 1 ≤ m) := by
  cases hz : isZero64 a
  · have h0 : 0 < mag64 a := Nat.pos_of_ne_zero (by simpa [isZero64] using hz)
    simp only [sin64, ha, hz, Bool.not_true, Bool.false_eq_true, if_false]
    split
    · refine ⟨_, _, rfl, (Enclosure.magnitude_le ?_).trans (min_le_left _ _), fun _ hs _ => ⟨hs, ?_⟩⟩
      · exact le_min (by split <;> decide) (by split <;> omega)
      · rw [if_neg (by simp [hs])]
        exact Enclosure.le_magnitude
    · exact ⟨_, _, rfl, (Enclosure.magnitude_le (Nat.zero_le _)).trans (min_le_left _ _), fun _ _ h => absurd h ‹_›⟩
  · have h0 : mag64 a = 0 := by simpa [isZero64] using hz
    exact ⟨sign64 a, 0, by rw [sin64_zero hz, ← h0, pack64_sign_mag], Nat.zero_le _, nofun⟩

/-- A tangent is no NaN, and up to π/2 of the operand's sign and at least its magnitude. -/
theorem tan64_eq_pack (rnd : NumRounding) (d : NanDraw) {a : F64} (ha : isFinite64 a = true) :
    ∃ s m, tan64 rnd d a = pack64 s m ∧ m ≤ inf64 ∧ (mag64 a ≤ mag64 halfPi64 → s = sign64 a ∧ mag64 a ≤ m) := by
  cases hz : isZero64 a
  · simp only [tan64, ha, hz, Bool.not_true, Bool.false_eq_true, if_false]
    split
    · exact ⟨_, _, rfl, Enclosure.magnitude_le (mag64_lt_inf ha).le, fun _ => ⟨rfl, Enclosure.le_magnitude⟩⟩
    · exact ⟨_, _, rfl, Enclosure.magnitude_le (Nat.zero_le _), fun h => absurd h ‹_›⟩
  · exact ⟨sign64 a, mag64 a, by rw [tan64_zero hz, pack64_sign_mag], (mag64_lt_inf ha).le, fun _ => ⟨rfl, le_rfl⟩⟩

/-- A power of 10 is neither a NaN nor negative. -/
theorem pow64_eq_pack (rnd : NumRounding) (d : NanDraw) {y : F64} (hy : isNaN64 y = false) :
    ∃ m, pow64 rnd d y = pack64 false m ∧ m ≤ inf64 := by
  simp only [pow64, hy, Bool.false_eq_true, if_false]
  split
  · exact ⟨mag64 one64, rfl, by decide⟩
  split
  · exact ⟨0, rfl, Nat.zero_le _⟩
  split
  · exact ⟨inf64, rfl, le_rfl⟩
  split
  · exact ⟨_, rfl, (Enclosure.magnitude_le (Nat.zero_le _)).trans (by decide)⟩
  · exact ⟨_, rfl, Enclosure.magnitude_le (by decide)⟩

theorem cos64_not_finite {a : F64} (h : isFinite64 a = false) (rnd : NumRounding) (d : NanDraw) : cos64 rnd d a = nan64 d := by
  rw [cos64, if_pos (by rw [h]; rfl)]

theorem sin64_not_finite {a : F64} (h : isFinite64 a = false) (rnd : NumRounding) (d : NanDraw) : sin64 rnd d a = nan64 d := by
  rw [sin64, if_pos (by rw [h]; rfl)]

theorem tan64_not_finite {a : F64} (h : isFinite64 a = false) (rnd : NumRounding) (d : NanDraw) : tan64 rnd d a = nan64 d := by
  rw [tan64, if_pos (by rw [h]; rfl)]

theorem pow64_nan {y : F64} (h : isNaN64 y = true) (rnd : NumRounding) (d : NanDraw) : pow64 rnd d y = nan64 d := by
  rw [pow64, if_pos h]

/-! ### NaN results -/

/-- If it is a NaN, it is a quiet one (R74). -/
def QuietIfNaN (r : F64) : Prop := isNaN64 r = true → isQuietNaN64 r = true

theorem quietIfNaN_nan64 (d : NanDraw) : QuietIfNaN (nan64 d) := fun _ => isQuietNaN64_nan64 d

theorem quietIfNaN_of_not_nan {r : F64} (h : isNaN64 r = false) : QuietIfNaN r := fun hr => absurd hr (by simp [h])

theorem quietIfNaN_pack {s : Bool} {m : Nat} (h : m ≤ inf64) : QuietIfNaN (pack64 s m) :=
  quietIfNaN_of_not_nan (isNaN64_pack h)

theorem quietIfNaN_round64 (s : Bool) (num den : Nat) : QuietIfNaN (round64 s num den) :=
  quietIfNaN_of_not_nan (isNaN64_round64 s num den)

/-- A NaN operand gives the drawn NaN and infinities an infinity or that NaN; else the sum is a rounding. -/
theorem fadd_quietIfNaN (d : NanDraw) (a b : F64) : QuietIfNaN (fadd d a b) := by
  by_cases hn : (isNaN64 a || isNaN64 b) = true
  · rw [fadd, if_pos hn]
    exact quietIfNaN_nan64 d
  · obtain ⟨ha, hb⟩ : isNaN64 a = false ∧ isNaN64 b = false := by simpa using hn
    rw [fadd, if_neg hn]
    split
    · split
      · exact quietIfNaN_nan64 d
      · exact quietIfNaN_of_not_nan ha
    · split
      · exact quietIfNaN_of_not_nan hb
      · simp only
        split
        · exact quietIfNaN_pack (Nat.zero_le _)
        · exact quietIfNaN_round64 _ _ _

theorem fmul_quietIfNaN (d : NanDraw) (a b : F64) : QuietIfNaN (fmul d a b) := by
  unfold fmul
  split
  · exact quietIfNaN_nan64 d
  split
  · split
    · exact quietIfNaN_nan64 d
    · exact quietIfNaN_pack le_rfl
  · exact quietIfNaN_round64 _ _ _

theorem fdiv_quietIfNaN (d : NanDraw) (a b : F64) : QuietIfNaN (fdiv d a b) := by
  unfold fdiv
  split
  · exact quietIfNaN_nan64 d
  split
  · split
    · exact quietIfNaN_nan64 d
    · exact quietIfNaN_pack le_rfl
  split
  · exact quietIfNaN_pack (Nat.zero_le _)
  split
  · split
    · exact quietIfNaN_nan64 d
    · exact quietIfNaN_pack le_rfl
  · exact quietIfNaN_round64 _ _ _

theorem fsqrt_quietIfNaN (d : NanDraw) (a : F64) : QuietIfNaN (fsqrt d a) := by
  by_cases hn : isNaN64 a = true
  · rw [fsqrt_nan hn]
    exact quietIfNaN_nan64 d
  · have ha : isNaN64 a = false := by simpa using hn
    rw [fsqrt, if_neg hn]
    split
    · exact quietIfNaN_of_not_nan ha
    split
    · exact quietIfNaN_nan64 d
    split
    · exact quietIfNaN_of_not_nan ha
    · exact quietIfNaN_round64 _ _ _

/-- The drawn NaN where the operand is not finite, and no NaN where it is. -/
theorem quietIfNaN_of_cases {a r : F64} {d : NanDraw} (hn : isFinite64 a = false → r = nan64 d)
    (hf : isFinite64 a = true → isNaN64 r = false) : QuietIfNaN r := by
  cases h : isFinite64 a
  · rw [hn h]
    exact quietIfNaN_nan64 d
  · exact quietIfNaN_of_not_nan (hf h)

theorem cos64_quietIfNaN (rnd : NumRounding) (d : NanDraw) (a : F64) : QuietIfNaN (cos64 rnd d a) :=
  quietIfNaN_of_cases (fun h => cos64_not_finite h rnd d) fun h => by
    obtain ⟨s, m, hr, hm, -⟩ := cos64_eq_pack rnd d h
    rw [hr, isNaN64_pack (hm.trans (by decide))]

theorem sin64_quietIfNaN (rnd : NumRounding) (d : NanDraw) (a : F64) : QuietIfNaN (sin64 rnd d a) :=
  quietIfNaN_of_cases (fun h => sin64_not_finite h rnd d) fun h => by
    obtain ⟨s, m, hr, hm, -⟩ := sin64_eq_pack rnd d h
    rw [hr, isNaN64_pack (hm.trans (by decide))]

theorem tan64_quietIfNaN (rnd : NumRounding) (d : NanDraw) (a : F64) : QuietIfNaN (tan64 rnd d a) :=
  quietIfNaN_of_cases (fun h => tan64_not_finite h rnd d) fun h => by
    obtain ⟨s, m, hr, hm, -⟩ := tan64_eq_pack rnd d h
    rw [hr, isNaN64_pack hm]

theorem pow64_quietIfNaN (rnd : NumRounding) (d : NanDraw) (y : F64) : QuietIfNaN (pow64 rnd d y) := by
  cases h : isNaN64 y
  · obtain ⟨m, hr, hm⟩ := pow64_eq_pack rnd d h
    rw [hr]
    exact quietIfNaN_pack hm
  · rw [pow64_nan h]
    exact quietIfNaN_nan64 d

theorem widen_of_nan {d : NanDraw} {x : F32} (h : isNaN32 x = true) : widen d x = nan64 d := by rw [widen, if_pos h]

theorem widen_of_inf {d : NanDraw} {x : F32} (h : isInf32 x = true) : widen d x = pack64 (sign32 x) inf64 := by
  have hn : isNaN32 x = false := by
    have hm : mag32 x = inf32 := by simpa [isInf32] using h
    simp [isNaN32, hm]
  simp [widen, hn, h]

theorem widen_quietIfNaN (d : NanDraw) (x : F32) : QuietIfNaN (widen d x) := by
  unfold widen
  split
  · exact quietIfNaN_nan64 d
  split
  · exact quietIfNaN_pack le_rfl
  · exact quietIfNaN_round64 _ _ _

/-- The draw that gives a quiet NaN: its sign above the 51 payload bits. -/
theorem exists_nan64 {q : F64} (h : isQuietNaN64 q = true) : ∃ d, nan64 d = q := by
  rw [isQuietNaN64, Bool.and_eq_true] at h
  obtain ⟨hn, hb⟩ := h
  have hlt := q.isLt
  have hm : inf64 < mag64 q := by simpa [isNaN64] using hn
  simp only [inf64, mag64] at hm
  rw [BitVec.getLsbD, Nat.testBit_eq_decide_div_mod_eq, decide_eq_true_eq] at hb
  refine ⟨BitVec.ofNat 52 (q.toNat / 2 ^ 63 * 2 ^ 51 + q.toNat % 2 ^ 51), BitVec.eq_of_toNat_eq ?_⟩
  rw [toNat_nan64, BitVec.toNat_ofNat]
  omega

theorem exists_nan32 {q : F32} (h : isQuietNaN32 q = true) : ∃ d, nan32 d = q := by
  rw [isQuietNaN32, Bool.and_eq_true] at h
  obtain ⟨hn, hb⟩ := h
  have hlt := q.isLt
  have hm : inf32 < mag32 q := by simpa [isNaN32] using hn
  simp only [inf32, mag32] at hm
  rw [BitVec.getLsbD, Nat.testBit_eq_decide_div_mod_eq, decide_eq_true_eq] at hb
  refine ⟨BitVec.ofNat 52 (q.toNat / 2 ^ 31 * 2 ^ 22 + q.toNat % 2 ^ 22), BitVec.eq_of_toNat_eq ?_⟩
  rw [toNat_nan32, BitVec.toNat_ofNat]
  omega

/-- `narrow` rounds the units of every operand that is no NaN: those of an infinity overflow. -/
theorem narrow_of_not_nan {d : NanDraw} {v : F64} (h : isNaN64 v = false) :
    narrow d v = round32 (sign64 v) (units64 v) unitsPerUnit32 := by
  by_cases hi : isInf64 v = true
  · have hm : mag64 v = inf64 := by simpa [isInf64] using hi
    rw [narrow_of_inf hi, round32, units64, hm,
      show roundNearest 23 inf32 (unitsOf 52 inf64) unitsPerUnit32 = inf32 by decide +kernel]
  · exact narrow_of_finite (finite64_iff.2 ⟨h, by simpa using hi⟩)

/-- Settles O40: each result is the drawn NaN or no NaN. -/
theorem nanResultsAreQuiet : Obligations.NanResultsAreQuiet := by
  refine ⟨fun rnd d a b => ?_, widen_quietIfNaN, fun d v h => ?_, fun q => exists_nan64, fun q => exists_nan32⟩
  · simp only [List.forall_mem_cons]
    exact ⟨fadd_quietIfNaN d a b, fadd_quietIfNaN d a (fneg b), fmul_quietIfNaN d a b, fdiv_quietIfNaN d a b,
      fsqrt_quietIfNaN d a, cos64_quietIfNaN rnd d a, sin64_quietIfNaN rnd d a, tan64_quietIfNaN rnd d a,
      pow64_quietIfNaN rnd d a, nofun⟩
  · cases hv : isNaN64 v
    · rw [narrow_of_not_nan hv, isNaN32_round32] at h
      cases h
    · rw [narrow_of_nan hv, isQuietNaN32_nan32]

/-! ### Comparison -/

theorem signed64_of_inf {a : F64} (h : isInf64 a = true) :
    signed64 a = if sign64 a then -(unitsOf 52 inf64 : Int) else unitsOf 52 inf64 := by
  have hm : mag64 a = inf64 := by simpa [isInf64] using h
  rw [signed64, units64, hm]

/-- A finite value lies strictly between the two infinities. -/
theorem signed64_between {a : F64} (h : isFinite64 a = true) :
    -(unitsOf 52 inf64 : Int) < signed64 a ∧ signed64 a < unitsOf 52 inf64 := by
  have hlt := unitsOf_strictMono 52 (mag64_lt_inf h)
  have habs := natAbs_signed64 a
  rw [units64] at habs
  omega

/-- Settles O41: `flt` compares whole numbers of units, of which an infinity has more than every finite value. -/
theorem signsAndComparison : Obligations.SignsAndComparison := by
  refine ⟨fun a => by simp, fun a b ha hb => ?finite, ?nan, fun a b ha hb => ?finiteInf, fun a b ha hb => ?infInf⟩
  case finite => rw [flt_eq (finite64_iff.1 ha).1 (finite64_iff.1 hb).1, decide_eq_true_eq, value64_lt]
  case nan => rintro a b (h | h) <;> simp [flt, h]
  case finiteInf =>
    obtain ⟨hlo, hhi⟩ := signed64_between ha
    rw [flt_eq (finite64_iff.1 ha).1 (inf64_not_nan hb), flt_eq (inf64_not_nan hb) (finite64_iff.1 ha).1,
      signed64_of_inf hb]
    generalize (unitsOf 52 inf64 : Int) = u at *
    cases sign64 b
    · simp [hhi, hhi.le]
    · simp [hlo, hlo.le]
  case infInf =>
    have hpos : (0 : Int) < unitsOf 52 inf64 := by decide +kernel
    rw [flt_eq (inf64_not_nan ha) (inf64_not_nan hb), signed64_of_inf ha, signed64_of_inf hb]
    generalize (unitsOf 52 inf64 : Int) = u at *
    cases sign64 a <;> cases sign64 b <;> simp <;> omega

/-! ### Widening and narrowing -/

theorem value64_widen (d : NanDraw) {x : F32} (h : isFinite32 x = true) : value64 (widen d x) = value32 x := by
  obtain ⟨-, hs, hu, -⟩ := widen_spec d h
  have hsigned : signed64 (widen d x) = signed32 x * unitsPerUnit32 := by
    rw [signed64, signed32, hs, hu]
    split <;> push_cast <;> ring
  have hne : (unitsPerUnit32 : ℚ) ≠ 0 := Nat.cast_ne_zero.2 unitsPerUnit32_pos.ne'
  rw [value64, value32, hsigned, unitsPerOne_eq]
  rw [Int.cast_mul, Int.cast_natCast, Nat.cast_mul, Nat.cast_pow, Nat.cast_ofNat, mul_comm, mul_div_mul_left _ _ hne]

/-- Settles O42: `widen_spec` in values, with the infinities and NaNs. -/
theorem widenIsExact : Obligations.WidenIsExact := by
  refine ⟨fun d x h => ?_, fun d x h => ?_, fun d x h => ?_, fun d => ?_⟩
  · obtain ⟨hf, hs, -, hn⟩ := widen_spec d h
    exact ⟨hf, value64_widen d h, hs, hn⟩
  · rw [widen_of_inf h]
    exact ⟨isInf64_pack _, sign64_pack_inf _⟩
  · rw [widen_of_nan h, isQuietNaN64_nan64]
  · rw [widen_of_finite (by decide)]
    decide +kernel

theorem nearestEven32_narrow (d : NanDraw) {v : F64} (h : isFinite64 v = true) :
    NearestEven32 (narrow d v) (value64 v : ℝ) := by
  rw [narrow_of_finite h]
  refine nearestEven32_round32 unitsPerUnit32_pos ?_
  rw [value64_eq, unitsPerOne_eq]
  push_cast
  ring

/-- Up to half the smallest binary32 subnormal the rounding is a zero: at the half, the tie goes to it. -/
theorem mag32_narrow_tiny (d : NanDraw) {v : F64} (hf : isFinite64 v = true) (h : |(value64 v : ℝ)| ≤ 1 / 2 ^ 150) :
    mag32 (narrow d v) = 0 := by
  have hhalf : units64 v * 2 ≤ 1 * unitsPerUnit32 := by
    have hU : (0 : ℝ) < unitsPerOne := Nat.cast_pos.2 unitsPerOne_pos
    rw [abs_value64, div_le_div_iff₀ hU (by positivity), unitsPerOne_eq, pow_succ] at h
    push_cast at h
    have : (units64 v : ℝ) * 2 ≤ unitsPerUnit32 :=
      le_of_mul_le_mul_right (by linarith) (by positivity : (0 : ℝ) < 2 ^ 149)
    rw [one_mul]
    exact_mod_cast this
  have hle := roundNearest_mono (fb := 23) (inf := inf32) (by decide) unitsPerUnit32_pos two_pos hhalf
  rw [show roundNearest 23 inf32 1 2 = 0 by decide] at hle
  rw [narrow_of_finite hf, mag32_round32]
  omega

theorem signed32_round32 (s : Bool) (num den : Nat) :
    signed32 (round32 s num den) =
      if s then -(unitsOf 23 (roundNearest 23 inf32 num den) : Int) else unitsOf 23 (roundNearest 23 inf32 num den) := by
  rw [signed32, units32, sign32_round32, mag32_round32]

/-- Rounding keeps the order of signed values. -/
theorem signed32_narrow_mono (d : NanDraw) {a b : F64} (ha : isNaN64 a = false) (hb : isNaN64 b = false)
    (h : signed64 a ≤ signed64 b) : signed32 (narrow d a) ≤ signed32 (narrow d b) := by
  rw [narrow_of_not_nan ha, narrow_of_not_nan hb, signed32_round32, signed32_round32]
  have mono : ∀ {m n : Nat}, m ≤ n → (unitsOf 23 (roundNearest 23 inf32 m unitsPerUnit32) : Int) ≤
      unitsOf 23 (roundNearest 23 inf32 n unitsPerUnit32) := fun hmn =>
    Int.ofNat_le.2 ((unitsOf_strictMono 23).monotone
      (roundNearest_mono (by decide) unitsPerUnit32_pos unitsPerUnit32_pos (Nat.mul_le_mul_right _ hmn)))
  have hzero : (unitsOf 23 (roundNearest 23 inf32 0 unitsPerUnit32) : Int) = 0 := by
    rw [roundNearest_exact (m := 0) (by decide) unitsPerUnit32_pos (by simp), Nat.min_zero, unitsOf_zero, Nat.cast_zero]
  rw [signed64, signed64] at h
  cases hsa : sign64 a <;> cases hsb : sign64 b <;>
    simp only [hsa, hsb, Bool.false_eq_true, if_false, if_true] at h ⊢
  · exact mono (by omega)
  · -- two zeros
    rw [show units64 a = 0 by omega, show units64 b = 0 by omega, hzero, neg_zero]
  · omega
  · exact neg_le_neg (mono (by omega))

/-- Settles O43: `narrow` is one rounding of the operand's units, which keeps their order and gives back what `widen`
gave. -/
theorem narrowRoundsToNearestEven : Obligations.NarrowRoundsToNearestEven := by
  refine ⟨fun d v h => ⟨nearestEven32_narrow d h, by rw [narrow_of_finite h, sign32_round32], mag32_narrow_tiny d h,
    (nearestEven32_narrow d h).2.1⟩, fun d v h => ?_, fun d v h => ?_, fun d _ _ ha hb h => signed32_narrow_mono d ha hb h,
    fun d d' _ h => narrow_widen d d' h, fun d => ?_⟩
  · rw [narrow_of_inf h]
    cases sign64 v <;> exact ⟨by decide, by decide⟩
  · rw [narrow_of_nan h, isQuietNaN32_nan32]
  · rw [narrow_of_finite (by decide), narrow_of_finite (by decide), narrow_of_finite (by decide)]
    decide +kernel

end Sys2Proof.Machine
end

section
/-! PROOFS. The elementary functions (40_numerics.md rules R76 to R78): special values, ranges and signs, faithful results,
exact powers of 10, and the nearest results of `NUM_CR`. -/

namespace Sys2Proof.Machine

/-! ### Special values, ranges and signs -/

theorem sign64_of_value_pos {a : F64} (h : 0 < value64 a) : sign64 a = false := by
  by_contra hs
  have := value64_of_sign_true (y := a) (by simpa using hs)
  exact absurd h (not_lt.2 (by exact_mod_cast this))

theorem sign64_of_value_neg {a : F64} (h : value64 a < 0) : sign64 a = true := by
  by_contra hs
  have := value64_of_sign_false (y := a) (by simpa using hs)
  exact absurd h (not_lt.2 (by exact_mod_cast this))

theorem isZero64_of_value_ne {a : F64} (h : value64 a ≠ 0) : isZero64 a = false := by
  by_contra hz
  have := value64_of_isZero (a := a) (by simpa using hz)
  exact h (by exact_mod_cast this)

/-- A positive magnitude without a sign is a positive value. -/
theorem signed64_pack_pos {m : Nat} (h1 : 1 ≤ m) (h2 : m ≤ inf64) : 0 < signed64 (pack64 false m) := by
  have hm : m < 2 ^ 63 := lt_of_le_of_lt h2 inf64_lt
  have hpos : 0 < unitsOf 52 m := by
    rw [← unitsOf_zero 52]
    exact unitsOf_strictMono 52 h1
  rw [signed64, sign64_pack hm, units64, mag64_pack hm, if_neg Bool.false_ne_true]
  exact Int.natCast_pos.2 hpos

theorem value64_pack_pos {m : Nat} (h1 : 1 ≤ m) (h2 : m ≤ inf64) : 0 < value64 (pack64 false m) := by
  rw [← value64_zero, value64_lt]
  exact signed64_pack_pos h1 h2

/-- Up to the magnitude of 1.0 a pattern is finite and at most 1. -/
theorem pack64_le_one {s : Bool} {m : Nat} (h : m ≤ mag64 one64) :
    isFinite64 (pack64 s m) = true ∧ |value64 (pack64 s m)| ≤ 1 := by
  have hinf : m < inf64 := lt_of_le_of_lt h (by decide)
  have hm : m < 2 ^ 63 := hinf.trans inf64_lt
  refine ⟨by simpa [isFinite64, mag64_pack hm] using hinf, ?_⟩
  have hle : (|(value64 (pack64 s m) : ℝ)|) ≤ 1 := by
    rw [abs_value64, ← mag_one_value, units64, mag64_pack hm]
    exact unitsOf_div_strictMono.monotone h
  exact_mod_cast hle

/-- Settles O45: each result's sign and magnitude are kept in these ranges. -/
theorem numRangeAndSign : Obligations.NumRangeAndSign := by
  intro rnd d a ha
  obtain ⟨sc, mc, hcos, hc1, hc⟩ := cos64_eq_pack rnd d ha
  obtain ⟨ss, ms, hsin, hs1, hs⟩ := sin64_eq_pack rnd d ha
  obtain ⟨st, mt, htan, ht1, ht⟩ := tan64_eq_pack rnd d ha
  obtain ⟨mp, hpow, hp1⟩ := pow64_eq_pack rnd d (finite64_iff.1 ha).1
  rw [hcos, hsin, htan, hpow]
  refine ⟨pack64_le_one hc1, pack64_le_one hs1, ⟨isNaN64_pack hp1, sign64_pack (lt_of_le_of_lt hp1 inf64_lt)⟩,
    fun hpos hlt => ?_, fun hpos hle => ?_⟩
  · have hsign := sign64_of_value_pos hpos
    have hmag : mag64 a < mag64 pi64 := not_le.1 fun h => not_lt.2 ((value64_le_pos (by decide) hsign).2 h) hlt
    obtain ⟨rfl, hm⟩ := hs (isZero64_of_value_ne hpos.ne') hsign hmag
    exact value64_pack_pos hm (hs1.trans (by decide))
  · have hsign := sign64_of_value_pos hpos
    have hmag : mag64 a ≤ mag64 halfPi64 := (value64_le_pos hsign (by decide)).1 hle
    obtain ⟨rfl, hm⟩ := hc hmag
    obtain ⟨rfl, hm'⟩ := ht hmag
    have hmag0 : 1 ≤ mag64 a := mag64_pos_of_value (by exact_mod_cast hpos)
    rw [hsign]
    exact ⟨value64_pack_pos hm (hc1.trans (by decide)), isNaN64_pack ht1, signed64_pack_pos (hmag0.trans hm') ht1⟩

/-- From `pow10Inf` on every `NUM` gives `+Inf`. -/
theorem pow64_of_huge {y : F64} (hf : isFinite64 y = true) (h : (2 : ℝ) ^ 1024 ≤ (10 : ℝ) ^ (value64 y : ℝ))
    (rnd : NumRounding) (d : NanDraw) : pow64 rnd d y = posInf64 := by
  have hle := pow10Inf_iff.1 h
  have hpos : 0 < value64 y := lt_of_lt_of_le (by decide +kernel) hle
  have hs := sign64_of_value_pos hpos
  have hm : mag64 pow10Inf ≤ mag64 y := (value64_le_pos (by decide) hs).1 hle
  simp [pow64, (finite64_iff.1 hf).1, isZero64_of_value_ne hpos.ne', hs, hm]

/-- Below 2^-1022 every `NUM` rounds as `NUM_CR` does. -/
theorem pow64_of_subnormal {y : F64} (h : (10 : ℝ) ^ (value64 y : ℝ) < 1 / 2 ^ 1022) (rnd : NumRounding) (d : NanDraw) :
    pow64 rnd d y = pow64 numCR d y := by
  have hle := pow10Subnormal_iff.1 h
  have hs := sign64_of_value_neg (lt_of_le_of_lt hle (by decide +kernel))
  have hm : mag64 pow10Subnormal ≤ mag64 y := (value64_le_neg hs (by decide)).1 hle
  have hrnd : ∀ r, powRounding r y = numCR := fun r => by simp [powRounding, hs, hm]
  simp only [pow64, hs, hrnd, if_true]

theorem pow64_of_le_neg324 {y : F64} (hf : isFinite64 y = true) (h : value64 y ≤ -324) (rnd : NumRounding) (d : NanDraw) :
    pow64 rnd d y = zero64 := by
  have hneg : value64 y < 0 := lt_of_le_of_lt h (by norm_num)
  have hs := sign64_of_value_neg hneg
  have hm : mag64 pow10Zero ≤ mag64 y :=
    (value64_le_neg hs (by decide)).1 (h.trans_eq (by decide +kernel))
  simp [pow64, (finite64_iff.1 hf).1, isZero64_of_value_ne hneg.ne, hs, hm]

theorem pow64_zero {y : F64} (hz : isZero64 y = true) (rnd : NumRounding) (d : NanDraw) : pow64 rnd d y = one64 := by
  have hf : isFinite64 y = true := isFinite64_of_mag_zero (by simpa [isZero64] using hz)
  rw [pow64, if_neg (by simp [(finite64_iff.1 hf).1]), if_pos hz]

/-- Settles O44: the cases of `pow64` below and above the format's range are those of `pow10Subnormal` and `pow10Inf`. -/
theorem numSpecialValuesAndExactPoints : Obligations.NumSpecialValuesAndExactPoints := by
  intro rnd d
  refine ⟨fun a h => ?_, fun y h => by rw [pow64_nan h, isQuietNaN64_nan64], rfl, rfl,
    fun y hf h => pow64_of_huge hf h rnd d,
    fun y hf h => ⟨pow64_of_subnormal h rnd d, fun h' => pow64_of_le_neg324 hf h' rnd d⟩, fun z hz => ?_⟩
  · rw [cos64_not_finite h, sin64_not_finite h, tan64_not_finite h]
    exact ⟨isQuietNaN64_nan64 d, isQuietNaN64_nan64 d, isQuietNaN64_nan64 d⟩
  · have h0 : isZero64 z = true := by
      rcases List.mem_pair.1 hz with rfl | rfl <;> decide
    exact ⟨cos64_zero h0 rnd d, sin64_zero h0 rnd d, tan64_zero h0 rnd d, pow64_zero h0 rnd d⟩

/-! ### Faithful results -/

theorem numHW_admissible : numHW.Admissible := by
  intro f a below nearest above h1 h2
  have := Nat.mod_lt (Config.numChoice f a) (show 0 < above - below + 1 by omega)
  unfold numHW
  omega

theorem numCR_admissible : numCR.Admissible := fun _ _ _ _ _ h1 h2 => ⟨h1, h2⟩

theorem cos64_faithful {rnd : NumRounding} (hr : rnd.Admissible) (d : NanDraw) {a : F64} (ha : isFinite64 a = true) :
    FaithfulWithin (1 / 2 ^ 1200) (cos64 rnd d a) (Real.cos (value64 a)) := by
  cases hz : isZero64 a
  · obtain ⟨s, least, most, hfit, h⟩ := cos64_fits ha hz
    rw [h]
    exact hfit.faithful (admissible_between hr (ofFix_den _ |>.pos) _ _)
  · rw [cos64_zero hz]
    exact .of_value_eq (margin_pos _) (by decide) (by rw [value64_one, value64_of_isZero hz, Real.cos_zero])

theorem sin64_faithful {rnd : NumRounding} (hr : rnd.Admissible) (d : NanDraw) {a : F64} (ha : isFinite64 a = true) :
    FaithfulWithin (1 / 2 ^ 1200) (sin64 rnd d a) (Real.sin (value64 a)) := by
  cases hz : isZero64 a
  · obtain ⟨s, least, most, hfit, h⟩ := sin64_fits ha hz
    rw [h]
    exact hfit.faithful (admissible_between hr (ofFix_den _ |>.pos) _ _)
  · rw [sin64_zero hz]
    exact .of_value_eq (margin_pos _) (finite64_iff.1 ha).1 (by rw [value64_of_isZero hz, Real.sin_zero])

theorem tan64_faithful {rnd : NumRounding} (hr : rnd.Admissible) (d : NanDraw) {a : F64} (ha : isFinite64 a = true)
    (hc : 1 / 2 ^ 100 ≤ |Real.cos (value64 a)|) :
    FaithfulWithin (1 / 2 ^ 1000) (tan64 rnd d a) (Real.tan (value64 a)) := by
  cases hz : isZero64 a
  · obtain ⟨s, least, hfit, h⟩ := tan64_fits ha hz hc
    rw [h]
    exact hfit.faithful (admissible_between hr (hfit.proper.pos) _ _)
  · rw [tan64_zero hz]
    exact .of_value_eq (margin_pos _) (finite64_iff.1 ha).1 (by rw [value64_of_isZero hz, Real.tan_zero])

theorem pow_margin_pos (y : F64) : 0 < (10 : ℝ) ^ (value64 y : ℝ) / 2 ^ 1000 :=
  div_pos (Real.rpow_pos_of_pos (by norm_num) _) (pow_pos two_pos _)

theorem powEnclosure_within {y : F64} (hu : units64 y ≤ 400 * unitsPerOne) :
    (10 : ℝ) ^ (value64 y : ℝ) - (10 : ℝ) ^ (value64 y : ℝ) / 2 ^ 1000 ≤ (powEnclosure y).low ∧
      (powEnclosure y).high ≤ (10 : ℝ) ^ (value64 y : ℝ) + (10 : ℝ) ^ (value64 y : ℝ) / 2 ^ 1000 := by
  obtain ⟨-, -, -, hmargin⟩ := powEnclosure_near hu
  exact hmargin

theorem pow64_faithful {rnd : NumRounding} (hr : rnd.Admissible) (d : NanDraw) {y : F64} (hf : isFinite64 y = true) :
    FaithfulWithin ((10 : ℝ) ^ (value64 y : ℝ) / 2 ^ 1000) (pow64 rnd d y) ((10 : ℝ) ^ (value64 y : ℝ)) :=
  pow64_within hr d hf (pow_margin_pos y).le powEnclosure_within

/-- Settles O58: each enclosure holds the real result, and every admissible `NUM` answers between its bounds. -/
theorem elementaryFunctionsAreFaithful : Obligations.ElementaryFunctionsAreFaithful :=
  ⟨numHW_admissible, numCR_admissible, fun _ d _ hr ha =>
    ⟨cos64_faithful hr d ha, sin64_faithful hr d ha, tan64_faithful hr d ha, pow64_faithful hr d ha⟩⟩

/-! ### Representable powers of 10 -/

/-- Where the power of 10 is the value of a finite pattern, the exponent is a whole number, its enclosure is exact, and
the result has that value. -/
theorem value64_pow64_of_representable {rnd : NumRounding} (hr : rnd.Admissible) (d : NanDraw) {y c : F64}
    (hf : isFinite64 y = true) (hc : isFinite64 c = true) (h : (value64 c : ℝ) = (10 : ℝ) ^ (value64 y : ℝ)) :
    value64 (pow64 rnd d y) = value64 c := by
  have hdvd : (unitsPerOne : Int) ∣ signed64 y :=
    whole_of_rational_pow unitsPerOne_pos (r := value64 c) (by rw [h, value64_real y])
  have hwhole : units64 y % unitsPerOne = 0 := by
    rw [← natAbs_signed64]
    exact Nat.mod_eq_zero_of_dvd (Int.natCast_dvd.1 hdvd)
  obtain ⟨hlow, hhigh⟩ := powEnclosure_whole hwhole
  obtain ⟨-, hcmp⟩ := pow64_within hr d hf le_rfl fun _ => ⟨by rw [hlow, sub_zero], by rw [hhigh, add_zero]⟩
  obtain ⟨hge, hle⟩ := hcmp c hc
  exact le_antisymm (hle (by rw [add_zero, h])) (hge (by rw [add_zero, h]))

/-- The powers of 10 up to 10^22 are binary64 values. -/
theorem exists_pow10 {n : Nat} (hn : n ≤ 22) : ∃ c : F64, isFinite64 c = true ∧ value64 c = 10 ^ n := by
  have h : ∀ n < 23, isFinite64 (round64 false (10 ^ n * unitsPerOne) 1) = true ∧
      signed64 (round64 false (10 ^ n * unitsPerOne) 1) = (10 ^ n * unitsPerOne : Nat) := by decide +kernel
  obtain ⟨hf, hs⟩ := h n (by omega)
  refine ⟨_, hf, ?_⟩
  have hU : (unitsPerOne : ℚ) ≠ 0 := Nat.cast_ne_zero.2 unitsPerOne_pos.ne'
  rw [value64, hs, Int.cast_natCast, Nat.cast_mul, mul_div_cancel_right₀ _ hU, Nat.cast_pow, Nat.cast_ofNat]

/-- Settles O59: a rational power of 10 is a whole one, and those are enclosed exactly. -/
theorem representablePowersOfTenAreExact : Obligations.RepresentablePowersOfTenAreExact := by
  refine fun rnd d y hr hf => ⟨fun c hc h => value64_pow64_of_representable hr d hf hc h, fun n hn hy => ?_⟩
  obtain ⟨c, hc, hv⟩ := exists_pow10 hn
  rw [← hv]
  refine value64_pow64_of_representable hr d hf hc ?_
  rw [hv, hy, Rat.cast_natCast, Real.rpow_natCast, Rat.cast_pow, Rat.cast_ofNat]

/-! ### The nearest result -/

/-- An enclosure's nearest magnitude is nearest where nothing comes near the overflow. -/
theorem Enclosure.Fits.nearestWithin {e : Enclosure} {s : Bool} {x δ : ℝ} {least most : Nat} (h : e.Fits s x δ least most)
    (hsmall : |x| + 2 * δ < (2 : ℝ) ^ 1024 - 2 ^ 970) (f : NumFn) (a : F64) :
    NearestWithin (2 * δ) (pack64 s (e.magnitude numCR f a least most)) x := by
  rw [Enclosure.magnitude_numCR]
  exact .of_small hsmall (mul_nonneg two_pos.le h.margin) (h.nearest hsmall)

theorem small_of_abs_le {x B : ℝ} (n : Nat) (hx : |x| ≤ B) (hB : B + 2 < 2 ^ 200) :
    |x| + 2 * (1 / 2 ^ n) < (2 : ℝ) ^ 1024 - 2 ^ 970 := by
  refine lt_midpoint (n := 200) ?_ (by norm_num)
  linarith [margin_le_one n]

theorem cos64_nearest (d : NanDraw) {a : F64} (ha : isFinite64 a = true) :
    NearestWithin (2 * (1 / 2 ^ 1200)) (cos64 numCR d a) (Real.cos (value64 a)) := by
  have hsmall := small_of_abs_le 1200 (Real.abs_cos_le_one (value64 a)) (by norm_num)
  cases hz : isZero64 a
  · obtain ⟨s, least, most, hfit, h⟩ := cos64_fits ha hz
    rw [h]
    exact hfit.nearestWithin hsmall _ _
  · rw [cos64_zero hz]
    exact .of_value_eq (mul_nonneg two_pos.le (margin_pos _)) hsmall (by decide)
      (by rw [value64_one, value64_of_isZero hz, Real.cos_zero])

theorem sin64_nearest (d : NanDraw) {a : F64} (ha : isFinite64 a = true) :
    NearestWithin (2 * (1 / 2 ^ 1200)) (sin64 numCR d a) (Real.sin (value64 a)) := by
  have hsmall := small_of_abs_le 1200 (Real.abs_sin_le_one (value64 a)) (by norm_num)
  cases hz : isZero64 a
  · obtain ⟨s, least, most, hfit, h⟩ := sin64_fits ha hz
    rw [h]
    exact hfit.nearestWithin hsmall _ _
  · rw [sin64_zero hz]
    exact .of_value_eq (mul_nonneg two_pos.le (margin_pos _)) hsmall ha (by rw [value64_of_isZero hz, Real.sin_zero])

theorem abs_tan_le {x : ℝ} (hc : 1 / 2 ^ 100 ≤ |Real.cos x|) : |Real.tan x| ≤ 2 ^ 100 := by
  have hpos : (0 : ℝ) < |Real.cos x| := lt_of_lt_of_le (by positivity) hc
  rw [Real.tan_eq_sin_div_cos, abs_div, div_le_iff₀ hpos]
  rw [div_le_iff₀ (by positivity)] at hc
  linarith [Real.abs_sin_le_one x]

theorem tan64_nearest (d : NanDraw) {a : F64} (ha : isFinite64 a = true) (hc : 1 / 2 ^ 100 ≤ |Real.cos (value64 a)|) :
    NearestWithin (2 * (1 / 2 ^ 1000)) (tan64 numCR d a) (Real.tan (value64 a)) := by
  have hsmall := small_of_abs_le 1000 (abs_tan_le hc) (by norm_num)
  cases hz : isZero64 a
  · obtain ⟨s, least, hfit, h⟩ := tan64_fits ha hz hc
    rw [h]
    exact hfit.nearestWithin hsmall _ _
  · rw [tan64_zero hz]
    exact .of_value_eq (mul_nonneg two_pos.le (margin_pos _)) hsmall ha (by rw [value64_of_isZero hz, Real.tan_zero])

/-- Below half the smallest subnormal nothing is nearer than a zero. -/
theorem zero_nearest {x : ℝ} (h0 : 0 ≤ x) (h : x < 1 / unitsPerOne / 2) (c : F64) : |0 - x| ≤ |(value64 c : ℝ) - x| := by
  rw [zero_sub, abs_neg, abs_of_nonneg h0]
  rcases le_or_gt (value64 c : ℝ) 0 with hc | hc
  · rw [abs_of_nonpos (by linarith)]
    linarith
  · exact le_trans (by linarith [unit_le_of_pos hc]) (le_abs_self _)

theorem small_of_le_one {x δ : ℝ} (h0 : 0 < x) (hδ : δ ≤ x) (h1 : x ≤ 1) : |x| + 2 * δ < (2 : ℝ) ^ 1024 - 2 ^ 970 := by
  refine lt_midpoint (n := 2) ?_ (by norm_num)
  rw [abs_of_pos h0]
  linarith

theorem powRounding_numCR (y : F64) : powRounding numCR y = numCR := ite_self _

theorem pow64_nearest (d : NanDraw) {y : F64} (hf : isFinite64 y = true) :
    NearestWithin (2 * ((10 : ℝ) ^ (value64 y : ℝ) / 2 ^ 1000)) (pow64 numCR d y) ((10 : ℝ) ^ (value64 y : ℝ)) := by
  have hX0 : (0 : ℝ) < (10 : ℝ) ^ (value64 y : ℝ) := Real.rpow_pos_of_pos (by norm_num) _
  have hδ := pow_margin_pos y
  have hδX : (10 : ℝ) ^ (value64 y : ℝ) / 2 ^ 1000 ≤ (10 : ℝ) ^ (value64 y : ℝ) :=
    div_le_self hX0.le (one_le_pow₀ one_le_two)
  have small := small_of_le_one hX0 hδX
  rcases pow64_cases hf with ⟨hz, h⟩ | ⟨hs, hm, h⟩ | ⟨hs, hm, h⟩ | ⟨hz, hlo, hhi⟩
  · -- the power is 1
    have hX : (10 : ℝ) ^ (value64 y : ℝ) = 1 := by rw [value64_of_isZero hz, Real.rpow_zero]
    rw [h]
    exact .of_value_eq (by positivity) (small hX.le) (by decide) (value64_one.trans hX.symm)
  · -- below half the smallest subnormal
    have hX := pow10_tiny hs hm
    rw [h]
    refine .of_small (small (by linarith [tiny_le])) (by positivity) ⟨by decide, fun c _ => ?_⟩
    rw [value64_zero, Rat.cast_zero]
    exact (zero_nearest hX0.le hX c).trans (le_add_of_nonneg_right (by positivity))
  · -- too large
    have hX := pow10_huge hs hm
    rw [h]
    refine ⟨fun _ => by decide, fun hb => absurd hb (not_lt.2 ?_)⟩
    rw [abs_of_pos hX0]
    exact ((sub_le_self _ (pow_nonneg two_pos.le 970)).trans hX).trans (le_add_of_nonneg_right (by positivity))
  · obtain ⟨least, most, hfit, h⟩ := pow64_fits hf hz hlo hhi hδ.le (powEnclosure_within (pow_operand hlo hhi))
    rw [h, powRounding_numCR, Enclosure.magnitude_numCR]
    exact ⟨fun hb => hfit.overflow hδ (by rwa [abs_of_pos hX0] at hb), hfit.nearest⟩

/-- Settles O60: `NUM_CR` takes its enclosures' nearest magnitudes. -/
theorem referenceNumIsNearest : Obligations.ReferenceNumIsNearest := fun d _ ha =>
  ⟨cos64_nearest d ha, sin64_nearest d ha, tan64_nearest d ha, pow64_nearest d ha⟩

end Sys2Proof.Machine
end

section
/-! PROOFS. The contract of the calculator and what each `COEF` answers (41_coeff_calculator.md rules R100 to R113): the
check in real values, the roundings of each kind's tree inside the contract, five free constants outside it. -/

namespace Sys2Proof.Machine

/-! ### The contract in real values -/

theorem signed64_pos_iff {x : F64} : 0 < signed64 x ↔ sign64 x = false ∧ 0 < mag64 x := by
  have h := @units64_pos x
  rw [signed64]
  cases sign64 x <;> simp; omega

theorem value64_pos_iff {x : F64} : 0 < value64 x ↔ sign64 x = false ∧ 0 < mag64 x := by
  rw [← value64_zero, value64_lt, show signed64 zero64 = 0 by decide, signed64_pos_iff]

theorem isPositiveFinite_iff {x : F64} : isPositiveFinite x = true ↔ isFinite64 x = true ∧ 0 < value64 x := by
  simp only [isPositiveFinite, value64_pos_iff, Bool.and_eq_true, Bool.not_eq_true', decide_eq_true_eq]
  tauto

theorem value64_lt_half_iff {x y : F64} : value64 x < value64 y / 2 ↔ 2 * signed64 x < signed64 y := by
  have hu : (0 : ℚ) < unitsPerOne := Nat.cast_pos.2 unitsPerOne_pos
  rw [value64, value64, div_right_comm, div_lt_div_iff_of_pos_right hu, lt_div_iff₀ two_pos, mul_comm]
  exact_mod_cast Iff.rfl

theorem signed64_of_value_pos {x : F64} (h : 0 < value64 x) : signed64 x = units64 x := by
  rw [signed64, (value64_pos_iff.1 h).1, if_neg Bool.false_ne_true]

/-- Below a positive `fs` the check of the Nyquist limit is the comparison of the real values (U2). -/
theorem isBelowNyquist_iff {freq fs : F64} (hfs : 0 < value64 fs) : isBelowNyquist freq fs = true ↔
    isFinite64 freq = true ∧ 0 < value64 freq ∧ value64 freq < value64 fs / 2 := by
  rw [isBelowNyquist, Bool.and_eq_true, isPositiveFinite_iff, decide_eq_true_eq, and_assoc]
  refine and_congr_right fun _ => and_congr_right fun hfreq => ?_
  rw [value64_lt_half_iff, signed64_of_value_pos hfreq, signed64_of_value_pos hfs]
  exact_mod_cast Iff.rfl

/-- Settles O24: each conjunct of the check is its row of R101. -/
theorem contractComparesRealValues : Obligations.ContractComparesRealValues := by
  intro k o
  rw [inContract, ValidSpec, Bool.and_eq_true, Bool.and_eq_true, Bool.and_eq_true, Bool.or_eq_true, Bool.or_eq_true,
    Bool.not_eq_true', Bool.not_eq_true', ← Bool.not_eq_true, ← Bool.not_eq_true, ← imp_iff_not_or, ← imp_iff_not_or,
    isPositiveFinite_iff, isPositiveFinite_iff, and_assoc, and_assoc]
  exact and_congr_right fun hfs => and_congr_left' (isBelowNyquist_iff hfs.2)

/-! ### What each `COEF` answers -/

/-- In contract a `COEF` answers its tree's five values (R100). -/
theorem exec_coef_of_valid {k : FilterKind} {s : State} (h : ValidSpec k s.ports) :
    exec (.coef k) s =
      .next { s with calcOut := normalise s.nanDraw (preNorm numHW s.nanDraw s.ports k), draws := s.draws + 64 } := by
  rw [exec_coef, State.calculate, if_pos ((contractComparesRealValues k s.ports).2 h)]
  rfl

/-- `2.0 · PI64` is exact: the pattern of 2π that the trees of the statements start from (R102). -/
theorem fmul_two_pi (d : NanDraw) : fmul d two64 pi64 = 0x401921FB54442D18#64 := by
  rw [fmul_of_finite (by decide) (by decide)]
  decide +kernel

/-- `omega` from the pattern of 2π (R102). -/
theorem omegaOf_eq (d : Nat → NanDraw) (o : Operands) :
    omegaOf d o = fdiv (d 2) (fmul (d 1) 0x401921FB54442D18#64 o.freq) o.fs := by
  rw [omegaOf, fmul_two_pi]

theorem fdiv_zero_one (d : NanDraw) : fdiv d zero64 one64 = 0 := fdiv_one (by decide)

/-- Settles O25: the outputs of `normalise` and `preLP`, from the pattern of 2π. -/
theorem coefLowPassFollowsItsTree : Obligations.CoefLowPassFollowsItsTree := by
  intro s h
  refine (exec_coef_of_valid h).trans ?_
  simp only [← omegaOf_eq, preNorm, preLP, normalise, one64, two64, negTwo64]
  rfl

/-- Settles O26: the outputs of `normalise` and `preHP`, from the pattern of 2π. -/
theorem coefHighPassFollowsItsTree : Obligations.CoefHighPassFollowsItsTree := by
  intro s h
  refine (exec_coef_of_valid h).trans ?_
  simp only [← omegaOf_eq, preNorm, preHP, normalise, one64, two64, negTwo64]
  rfl

/-- Settles O27: the outputs of `normalise` and `prePK`, from the pattern of 2π. -/
theorem coefPeakingFollowsItsTree : Obligations.CoefPeakingFollowsItsTree := by
  intro s h
  refine (exec_coef_of_valid h).trans ?_
  simp only [← omegaOf_eq, preNorm, prePK, normalise, one64, negTwo64]
  rfl

/-- Settles O28: the outputs of `normalise` and `preLS`, from the pattern of 2π. -/
theorem coefLowShelfFollowsItsTree : Obligations.CoefLowShelfFollowsItsTree := by
  intro s h
  simp only [← omegaOf_eq]
  exact exec_coef_of_valid h

/-- Settles O29: the outputs of `normalise` and `preHS`, from the pattern of 2π. -/
theorem coefHighShelfFollowsItsTree : Obligations.CoefHighShelfFollowsItsTree := by
  intro s h
  simp only [← omegaOf_eq]
  exact exec_coef_of_valid h

/-- The zeros of a first-order branch stay `+0` under the final step (R110 to R112). -/
theorem normalise_firstOrder (d : Nat → NanDraw) (b0 b1 a1 : F64) :
    normalise d { b0 := b0, b1 := b1, b2 := zero64, a1 := a1, a2 := zero64, a0 := one64 } =
      ⟨fdiv (d 40) b0 one64, fdiv (d 41) b1 one64, 0, fdiv (d 43) a1 one64, 0⟩ := by
  simp only [normalise, fdiv_zero_one]

/-- Settles O30: the outputs of `normalise` and `preLS1`, whose two zeros stay `+0`. -/
theorem coefFirstOrderLowShelfFollowsItsTree : Obligations.CoefFirstOrderLowShelfFollowsItsTree := by
  intro s h
  refine (exec_coef_of_valid h).trans ?_
  rw [preNorm, preLS1, normalise_firstOrder]
  rfl

/-- Settles O31: the outputs of `normalise` and `preHS1`, whose two zeros stay `+0`. -/
theorem coefFirstOrderHighShelfFollowsItsTree : Obligations.CoefFirstOrderHighShelfFollowsItsTree := by
  intro s h
  refine (exec_coef_of_valid h).trans ?_
  rw [preNorm, preHS1, normalise_firstOrder]
  rfl

/-- Settles O32: outside the contract `calculate` is the free bank. -/
theorem outOfContractCoefficientsAreFree : Obligations.OutOfContractCoefficientsAreFree := by
  intro k s h
  rw [exec_coef, State.calculate, if_neg (mt (contractComparesRealValues k s.ports).1 h)]
  rfl

end Sys2Proof.Machine
end

section
/-! PROOFS. Results up to the bits of NaNs (40_numerics.md rule R74): every operation and every tree of the calculator
gives the same pattern, or again a NaN, from operands that are the same or NaNs, and so do the corner cases of
41_coeff_calculator.md. -/

namespace Sys2Proof.Machine

/-! ### The same, or two NaNs -/

namespace SameOrNaN

theorem refl (x : F64) : SameOrNaN x x := .inl rfl

theorem symm {x y : F64} : SameOrNaN x y → SameOrNaN y x
  | .inl h => .inl h.symm
  | .inr h => .inr h.symm

theorem trans {x y z : F64} (hxy : SameOrNaN x y) (hyz : SameOrNaN y z) : SameOrNaN x z := by
  rcases hxy with rfl | ⟨hx, hy⟩
  · exact hyz
  · rcases hyz with rfl | ⟨-, hz⟩
    · exact .inr ⟨hx, hy⟩
    · exact .inr ⟨hx, hz⟩

theorem eq {x y : F64} (h : SameOrNaN x y) (hy : isNaN64 y = false) : x = y :=
  h.resolve_right fun hn => by simp [hy] at hn

theorem nan (d d' : NanDraw) : SameOrNaN (nan64 d) (nan64 d') := .inr ⟨isNaN64_nan64 d, isNaN64_nan64 d'⟩

/-- An operation on one operand that gives its draw on a NaN, and elsewhere depends on the draw in a NaN alone, keeps
the relation. -/
theorem unary {f : NanDraw → F64 → F64} (hnan : ∀ {d a}, isNaN64 a = true → f d a = nan64 d)
    (hdraw : ∀ d d' a, SameOrNaN (f d a) (f d' a)) {d d' : NanDraw} {a a' : F64} (ha : SameOrNaN a a') :
    SameOrNaN (f d a) (f d' a') := by
  rcases ha with rfl | ⟨h, h'⟩
  · exact hdraw d d' a
  · rw [hnan h, hnan h']
    exact nan d d'

/-- Likewise on two operands. -/
theorem binary {f : NanDraw → F64 → F64 → F64} (hleft : ∀ {d a b}, isNaN64 a = true → f d a b = nan64 d)
    (hright : ∀ {d a b}, isNaN64 b = true → f d a b = nan64 d) (hdraw : ∀ d d' a b, SameOrNaN (f d a b) (f d' a b))
    {d d' : NanDraw} {a a' b b' : F64} (ha : SameOrNaN a a') (hb : SameOrNaN b b') :
    SameOrNaN (f d a b) (f d' a' b') := by
  rcases ha with rfl | ⟨h, h'⟩
  · exact unary hright (fun d d' => hdraw d d' a) hb
  · rw [hleft h, hleft h']
    exact nan d d'

/-- A choice between two results keeps the relation of each. -/
theorem ite {p : Prop} [Decidable p] {x x' y y' : F64} (hx : SameOrNaN x x') (hy : SameOrNaN y y') :
    SameOrNaN (if p then x else y) (if p then x' else y') := by
  split
  · exact hx
  · exact hy

/-! ### The operations -/

theorem fneg {a a' : F64} : SameOrNaN a a' → SameOrNaN (fneg a) (fneg a')
  | .inl h => .inl (congrArg Machine.fneg h)
  | .inr ⟨h, h'⟩ => .inr ⟨(isNaN64_fneg a).trans h, (isNaN64_fneg a').trans h'⟩

theorem fadd {d d' : NanDraw} {a a' b b' : F64} : SameOrNaN a a' → SameOrNaN b b' →
    SameOrNaN (fadd d a b) (fadd d' a' b') :=
  binary fadd_nan_left fadd_nan_right fun d d' _ _ =>
    .ite (nan d d') (.ite (.ite (nan d d') (refl _)) (refl _))

theorem fsub {d d' : NanDraw} {a a' b b' : F64} (ha : SameOrNaN a a') (hb : SameOrNaN b b') :
    SameOrNaN (fsub d a b) (fsub d' a' b') :=
  .fadd ha hb.fneg

theorem fmul {d d' : NanDraw} {a a' b b' : F64} : SameOrNaN a a' → SameOrNaN b b' →
    SameOrNaN (fmul d a b) (fmul d' a' b') :=
  binary fmul_nan_left fmul_nan_right fun d d' _ _ =>
    .ite (nan d d') (.ite (.ite (nan d d') (refl _)) (refl _))

theorem fdiv {d d' : NanDraw} {a a' b b' : F64} : SameOrNaN a a' → SameOrNaN b b' →
    SameOrNaN (fdiv d a b) (fdiv d' a' b') :=
  binary fdiv_nan_left fdiv_nan_right fun d d' _ _ =>
    .ite (nan d d') (.ite (.ite (nan d d') (refl _)) (.ite (refl _) (.ite (.ite (nan d d') (refl _)) (refl _))))

theorem fsqrt {d d' : NanDraw} {a a' : F64} : SameOrNaN a a' → SameOrNaN (fsqrt d a) (fsqrt d' a') :=
  unary fsqrt_nan fun d d' _ => .ite (nan d d') (.ite (refl _) (.ite (nan d d') (refl _)))

theorem cos64 {rnd : NumRounding} {d d' : NanDraw} {a a' : F64} :
    SameOrNaN a a' → SameOrNaN (cos64 rnd d a) (cos64 rnd d' a') :=
  unary (fun h => cos64_not_finite (not_finite64_iff.2 (.inl h)) rnd _) fun d d' _ => .ite (nan d d') (refl _)

theorem sin64 {rnd : NumRounding} {d d' : NanDraw} {a a' : F64} :
    SameOrNaN a a' → SameOrNaN (sin64 rnd d a) (sin64 rnd d' a') :=
  unary (fun h => sin64_not_finite (not_finite64_iff.2 (.inl h)) rnd _) fun d d' _ => .ite (nan d d') (refl _)

theorem tan64 {rnd : NumRounding} {d d' : NanDraw} {a a' : F64} :
    SameOrNaN a a' → SameOrNaN (tan64 rnd d a) (tan64 rnd d' a') :=
  unary (fun h => tan64_not_finite (not_finite64_iff.2 (.inl h)) rnd _) fun d d' _ => .ite (nan d d') (refl _)

theorem pow64 {rnd : NumRounding} {d d' : NanDraw} {a a' : F64} :
    SameOrNaN a a' → SameOrNaN (pow64 rnd d a) (pow64 rnd d' a') :=
  unary (fun h => pow64_nan h rnd _) fun d d' _ => .ite (nan d d') (refl _)

end SameOrNaN

/-! ### The calculator's sub-terms, whatever the draws -/

section
variable (rnd : NumRounding) (d d' : Nat → NanDraw) (o : Operands)

theorem omegaOf_draws : SameOrNaN (omegaOf d o) (omegaOf d' o) :=
  .fdiv (.fmul (.fmul (.refl _) (.refl _)) (.refl _)) (.refl _)

theorem csOf_draws : SameOrNaN (csOf rnd d o) (csOf rnd d' o) := .cos64 (omegaOf_draws d d' o)

theorem alphaOf_draws : SameOrNaN (alphaOf rnd d o) (alphaOf rnd d' o) :=
  .fdiv (.sin64 (omegaOf_draws d d' o)) (.fmul (.refl _) (.refl _))

theorem gainOf_draws : SameOrNaN (gainOf rnd d o) (gainOf rnd d' o) := .pow64 (.fdiv (.refl _) (.refl _))

theorem kOf_draws : SameOrNaN (kOf rnd d o) (kOf rnd d' o) :=
  .tan64 (.fdiv (.fmul (.refl _) (.refl _)) (.refl _))

theorem v0Of_draws : SameOrNaN (v0Of rnd d o) (v0Of rnd d' o) :=
  .fmul (gainOf_draws rnd d d' o) (gainOf_draws rnd d d' o)

theorem normOf_draws : SameOrNaN (normOf rnd d o) (normOf rnd d' o) :=
  .fdiv (.refl _) (.fadd (.refl _) (kOf_draws rnd d d' o))

/-! ### The branches, whatever the draws -/

/-- The six values of two branches are the same, or two NaNs each. -/
structure PreNorm.Same (p p' : PreNorm) : Prop where
  b0 : SameOrNaN p.b0 p'.b0
  b1 : SameOrNaN p.b1 p'.b1
  b2 : SameOrNaN p.b2 p'.b2
  a1 : SameOrNaN p.a1 p'.a1
  a2 : SameOrNaN p.a2 p'.a2
  a0 : SameOrNaN p.a0 p'.a0

theorem PreNorm.Same.intro {x0 x1 x2 x3 x4 x5 y0 y1 y2 y3 y4 y5 : F64} (b0 : SameOrNaN x0 y0) (b1 : SameOrNaN x1 y1)
    (b2 : SameOrNaN x2 y2) (a1 : SameOrNaN x3 y3) (a2 : SameOrNaN x4 y4) (a0 : SameOrNaN x5 y5) :
    (PreNorm.mk x0 x1 x2 x3 x4 x5).Same ⟨y0, y1, y2, y3, y4, y5⟩ :=
  ⟨b0, b1, b2, a1, a2, a0⟩

/-- The terms of two shelves, likewise. -/
structure ShelfTerms.Same (s s' : ShelfTerms) : Prop where
  A : SameOrNaN s.A s'.A
  beta : SameOrNaN s.beta s'.beta
  pm : SameOrNaN s.pm s'.pm
  pp : SameOrNaN s.pp s'.pp
  mm : SameOrNaN s.mm s'.mm
  mp : SameOrNaN s.mp s'.mp

theorem ShelfTerms.Same.intro {x0 x1 x2 x3 x4 x5 y0 y1 y2 y3 y4 y5 : F64} (A : SameOrNaN x0 y0) (beta : SameOrNaN x1 y1)
    (pm : SameOrNaN x2 y2) (pp : SameOrNaN x3 y3) (mm : SameOrNaN x4 y4) (mp : SameOrNaN x5 y5) :
    (ShelfTerms.mk x0 x1 x2 x3 x4 x5).Same ⟨y0, y1, y2, y3, y4, y5⟩ :=
  ⟨A, beta, pm, pp, mm, mp⟩

theorem preLP_draws : (preLP rnd d o).Same (preLP rnd d' o) := by
  have cs := csOf_draws rnd d d' o
  have alpha := alphaOf_draws rnd d d' o
  have t : SameOrNaN (fsub (d 10) one64 (csOf rnd d o)) (fsub (d' 10) one64 (csOf rnd d' o)) := .fsub (.refl _) cs
  simp only [preLP]
  exact .intro
    (b0 := .fdiv t (.refl _)) (b1 := t) (b2 := .fdiv t (.refl _))
    (a0 := .fadd (.refl _) alpha) (a1 := .fmul (.refl _) cs) (a2 := .fsub (.refl _) alpha)

theorem preHP_draws : (preHP rnd d o).Same (preHP rnd d' o) := by
  have cs := csOf_draws rnd d d' o
  have alpha := alphaOf_draws rnd d d' o
  have t : SameOrNaN (fadd (d 10) one64 (csOf rnd d o)) (fadd (d' 10) one64 (csOf rnd d' o)) := .fadd (.refl _) cs
  simp only [preHP]
  exact .intro
    (b0 := .fdiv t (.refl _)) (b1 := t.fneg) (b2 := .fdiv t (.refl _))
    (a0 := .fadd (.refl _) alpha) (a1 := .fmul (.refl _) cs) (a2 := .fsub (.refl _) alpha)

theorem prePK_draws : (prePK rnd d o).Same (prePK rnd d' o) := by
  have cs := csOf_draws rnd d d' o
  have alpha := alphaOf_draws rnd d d' o
  have A := gainOf_draws rnd d d' o
  simp only [prePK]
  exact .intro
    (b0 := .fadd (.refl _) (.fmul alpha A)) (b1 := .fmul (.refl _) cs) (b2 := .fsub (.refl _) (.fmul alpha A))
    (a0 := .fadd (.refl _) (.fdiv alpha A)) (a1 := .fmul (.refl _) cs) (a2 := .fsub (.refl _) (.fdiv alpha A))

theorem shelfTerms_draws : (shelfTerms rnd d o).Same (shelfTerms rnd d' o) := by
  have cs := csOf_draws rnd d d' o
  have A := gainOf_draws rnd d d' o
  have Ap1 : SameOrNaN (fadd (d 10) (gainOf rnd d o) one64) (fadd (d' 10) (gainOf rnd d' o) one64) := .fadd A (.refl _)
  have Am1 : SameOrNaN (fsub (d 11) (gainOf rnd d o) one64) (fsub (d' 11) (gainOf rnd d' o) one64) := .fsub A (.refl _)
  simp only [shelfTerms]
  exact .intro
    (A := A) (beta := .fmul (.fmul (.refl _) A.fsqrt) (alphaOf_draws rnd d d' o))
    (pm := .fsub Ap1 (.fmul Am1 cs)) (pp := .fadd Ap1 (.fmul Am1 cs))
    (mm := .fsub Am1 (.fmul Ap1 cs)) (mp := .fadd Am1 (.fmul Ap1 cs))

theorem preLS_draws : (preLS rnd d o).Same (preLS rnd d' o) := by
  have s := shelfTerms_draws rnd d d' o
  simp only [preLS]
  exact .intro
    (b0 := .fmul s.A (.fadd s.pm s.beta)) (b1 := .fmul (.fmul (.refl _) s.A) s.mm) (b2 := .fmul s.A (.fsub s.pm s.beta))
    (a0 := .fadd s.pp s.beta) (a1 := .fmul (.refl _) s.mp) (a2 := .fsub s.pp s.beta)

theorem preHS_draws : (preHS rnd d o).Same (preHS rnd d' o) := by
  have s := shelfTerms_draws rnd d d' o
  simp only [preHS]
  exact .intro
    (b0 := .fmul s.A (.fadd s.pp s.beta)) (b1 := .fmul (.fmul (.refl _) s.A) s.mp) (b2 := .fmul s.A (.fsub s.pp s.beta))
    (a0 := .fadd s.pm s.beta) (a1 := .fmul (.refl _) s.mm) (a2 := .fsub s.pm s.beta)

theorem preLS1_draws : (preLS1 rnd d o).Same (preLS1 rnd d' o) := by
  have K := kOf_draws rnd d d' o
  have norm := normOf_draws rnd d d' o
  have w : SameOrNaN (fmul (d 16) (v0Of rnd d o) (kOf rnd d o)) (fmul (d' 16) (v0Of rnd d' o) (kOf rnd d' o)) :=
    .fmul (v0Of_draws rnd d d' o) K
  simp only [preLS1]
  exact .intro
    (b0 := .fmul (.fadd w (.refl _)) norm) (b1 := .fmul (.fsub w (.refl _)) norm) (b2 := .refl _)
    (a0 := .refl _) (a1 := .fmul (.fsub K (.refl _)) norm) (a2 := .refl _)

theorem preHS1_draws : (preHS1 rnd d o).Same (preHS1 rnd d' o) := by
  have K := kOf_draws rnd d d' o
  have V0 := v0Of_draws rnd d d' o
  have norm := normOf_draws rnd d d' o
  simp only [preHS1]
  exact .intro
    (b0 := .fmul (.fadd K V0) norm) (b1 := .fmul (.fsub K V0) norm) (b2 := .refl _)
    (a0 := .refl _) (a1 := .fmul (.fsub K (.refl _)) norm) (a2 := .refl _)

theorem preNorm_draws (k : FilterKind) : (preNorm rnd d o k).Same (preNorm rnd d' o k) :=
  match k with
  | .lp => preLP_draws rnd d d' o
  | .hp => preHP_draws rnd d d' o
  | .pk => prePK_draws rnd d d' o
  | .ls => preLS_draws rnd d d' o
  | .hs => preHS_draws rnd d d' o
  | .ls1 => preLS1_draws rnd d d' o
  | .hs1 => preHS1_draws rnd d d' o

end

/-- The five coefficients of two banks are the same, or two NaNs each. -/
structure SameCoefs (c c' : CoefSet) : Prop where
  b0 : SameOrNaN c.b0 c'.b0
  b1 : SameOrNaN c.b1 c'.b1
  b2 : SameOrNaN c.b2 c'.b2
  a1 : SameOrNaN c.a1 c'.a1
  a2 : SameOrNaN c.a2 c'.a2

theorem normalise_same (d d' : Nat → NanDraw) {p p' : PreNorm} (h : p.Same p') :
    SameCoefs (normalise d p) (normalise d' p') :=
  ⟨.fdiv h.b0 h.a0, .fdiv h.b1 h.a0, .fdiv h.b2 h.a0, .fdiv h.a1 h.a0, .fdiv h.a2 h.a0⟩

theorem SameCoefs.eq {c c' : CoefSet} (h : SameCoefs c c') (hn : NoNaN c') : c = c' := by
  obtain ⟨hb0, hb1, hb2, ha1, ha2⟩ := hn
  cases c
  cases c'
  rw [CoefSet.mk.injEq]
  exact ⟨h.b0.eq hb0, h.b1.eq hb1, h.b2.eq hb2, h.a1.eq ha1, h.a2.eq ha2⟩

/-- Settles O33: each of the five results of other draws is the same, or both are NaNs. -/
theorem calculatorIsDeterministicUpToNans : Obligations.CalculatorIsDeterministicUpToNans :=
  fun rnd d d' k o h => (normalise_same d' d (preNorm_draws rnd d' d o k)).eq h

/-- Settles O34: each pair is one operation, drawn twice, on the same operands. -/
theorem lowAndHighPassShareDenominator : Obligations.LowAndHighPassShareDenominator := by
  intro rnd d o
  simp only [calcTrees, preNorm, normalise, preLP, preHP]
  exact ⟨.fdiv (.fdiv (.refl _) (.refl _)) (.refl _), .fdiv (.fdiv (.refl _) (.refl _)) (.refl _), .refl _, .refl _⟩

end Sys2Proof.Machine
end

section
/-! PROOFS. The corner cases of the calculator (41_coeff_calculator.md rules R105 to R112): the first-order kinds' final
step, and a gain of 0 dB. -/

namespace Sys2Proof.Machine

/-! ### Neutral operands -/

theorem fmul_one_same (d : NanDraw) (x : F64) : SameOrNaN (fmul d one64 x) x := by
  cases h : isNaN64 x
  · exact .inl (fmul_one h)
  · exact .inr ⟨by rw [fmul_nan_right h, isNaN64_nan64], h⟩

theorem fmul_one_right_same (d : NanDraw) (x : F64) : SameOrNaN (fmul d x one64) x := by
  rw [fmul_comm]
  exact fmul_one_same d x

theorem fdiv_one_same (d : NanDraw) (x : F64) : SameOrNaN (fdiv d x one64) x := by
  cases h : isNaN64 x
  · exact .inl (fdiv_one h)
  · exact .inr ⟨by rw [fdiv_nan_left h, isNaN64_nan64], h⟩

theorem fadd_comm (d : NanDraw) (a b : F64) : fadd d a b = fadd d b a := by
  simp only [fadd, Bool.or_comm (isNaN64 b), Bool.and_comm (sign64 b), add_comm (signed64 b)]
  cases ha : isInf64 a <;> cases hb : isInf64 b
  case true.true =>
    have hm : mag64 a = mag64 b := by simp_all [isInf64]
    by_cases hs : sign64 a = sign64 b
    · rw [eq_of_sign_mag64 hs hm]
    · simp [hs, Ne.symm hs]
  all_goals simp

theorem fadd_zero_left {d : NanDraw} {z x : F64} (hz : mag64 z = 0) (hn : isNaN64 x = false) (hx : mag64 x ≠ 0) :
    fadd d z x = x := by
  rw [fadd_comm, fadd_zero_right hn hx hz]

/-- A sign moves from one factor to the other. -/
theorem fmul_fneg (d : NanDraw) (a b : F64) : fmul d (fneg a) b = fmul d a (fneg b) := by
  have hsign : (sign64 (fneg a) != sign64 b) = (sign64 a != sign64 (fneg b)) := by simp
  simp only [fmul, isNaN64_fneg, isInf64_fneg, units64_fneg, isZero64, mag64_fneg, hsign]

/-- A quotient of equal operands is 1.0, or a NaN. -/
theorem fdiv_same (d : NanDraw) {x y : F64} (h : SameOrNaN x y) : fdiv d x y = one64 ∨ isNaN64 (fdiv d x y) = true := by
  rcases h with rfl | ⟨hx, -⟩
  · cases hf : isFinite64 x
    · right
      rcases not_finite64_iff.1 hf with hn | hi
      · rw [fdiv_nan_left hn, isNaN64_nan64]
      · rw [fdiv_inf_inf hi hi, isNaN64_nan64]
    · by_cases hz : mag64 x = 0
      · rw [fdiv_by_zero hf hz, if_pos hz, isNaN64_nan64]
        exact .inr rfl
      · left
        rw [fdiv_of_finite hf hf hz, bne_self_eq_false]
        exact round64_exact (x := one64) (by decide) (units64_pos.2 (Nat.pos_of_ne_zero hz))
          (by rw [units64_one, Nat.mul_comm])
  · rw [fdiv_nan_left hx, isNaN64_nan64]
    exact .inr rfl

/-! ### The first-order kinds -/

/-- Settles O36: the final step divides by 1.0, and the two kinds' `a1` are one tree, drawn twice. -/
theorem firstOrderFinalStepIsIdentity : Obligations.FirstOrderFinalStepIsIdentity := by
  intro rnd d o
  rw [List.forall_mem_cons, List.forall_mem_singleton]
  simp only [calcTrees, preNorm, preLS1, preHS1, normalise_firstOrder]
  refine ⟨⟨trivial, trivial, fdiv_one_same _ _, fdiv_one_same _ _, fdiv_one_same _ _, .refl _⟩,
    trivial, trivial, fdiv_one_same _ _, fdiv_one_same _ _, fdiv_one_same _ _, ?_⟩
  exact .fdiv (.fmul (.fsub (.refl _) (.refl _)) (.refl _)) (.refl _)

/-! ### A gain of 0 dB -/

theorem mag64_fdiv_zero {d : NanDraw} {z x : F64} (hz : mag64 z = 0) (hf : isFinite64 x = true) (hx : mag64 x ≠ 0) :
    mag64 (fdiv d z x) = 0 := by
  rw [fdiv_of_finite (isFinite64_of_mag_zero hz) hf hx, units64_eq_zero.2 hz, Nat.zero_mul,
    round64_zero _ (units64_pos.2 (Nat.pos_of_ne_zero hx)), mag64_pack_zero]

/-- The amplitude of 0 dB is exactly 1 (R77 `NUM.exact_points`). -/
theorem gainOf_zero (rnd : NumRounding) (d : Nat → NanDraw) {o : Operands} (h : mag64 o.gainDb = 0) :
    gainOf rnd d o = one64 := by
  have hzero : mag64 (fdiv (d 7) o.gainDb forty64) = 0 := mag64_fdiv_zero h (by decide) (by decide)
  exact pow64_zero (by simpa [isZero64] using hzero) rnd (d 8)

/-- `V0` of 0 dB is exactly 1. -/
theorem v0Of_zero (rnd : NumRounding) (d : Nat → NanDraw) {o : Operands} (h : mag64 o.gainDb = 0) :
    v0Of rnd d o = one64 := by
  rw [v0Of, gainOf_zero rnd d h, fmul_one (by decide)]

/-- A finite value is its own rounding, in magnitude. -/
theorem roundNearest_units64 {x : F64} (hx : isFinite64 x = true) : roundNearest 52 inf64 (units64 x) 1 = mag64 x := by
  rw [roundNearest_exact (m := mag64 x) (by decide) Nat.one_pos (by rw [units64, Nat.mul_one]),
    min_eq_right (mag64_lt_inf hx).le]

theorem mag64_le_fmul_two (d : NanDraw) {x : F64} (hx : isFinite64 x = true) : mag64 x ≤ mag64 (fmul d two64 x) := by
  have htwo : unitsPerOne ≤ units64 two64 := units64_one ▸ units64_le.2 (by decide)
  calc mag64 x = roundNearest 52 inf64 (units64 x) 1 := (roundNearest_units64 hx).symm
    _ ≤ roundNearest 52 inf64 (units64 two64 * units64 x) unitsPerOne := by
        refine roundNearest_mono (by decide) Nat.one_pos unitsPerOne_pos ?_
        rw [Nat.mul_comm, Nat.mul_one]
        exact Nat.mul_le_mul_right _ htwo
    _ = mag64 (fmul d two64 x) := by rw [fmul_of_finite (by decide) hx, mag64_round64]

/-- A cosine is a finite value or a NaN. -/
theorem csOf_finite_or_nan (rnd : NumRounding) (d : Nat → NanDraw) (o : Operands) :
    isFinite64 (csOf rnd d o) = true ∨ isNaN64 (csOf rnd d o) = true := by
  cases h : isFinite64 (omegaOf d o)
  · rw [csOf, cos64_not_finite h, isNaN64_nan64]
    exact .inr rfl
  · obtain ⟨s, m, hr, hm, -⟩ := cos64_eq_pack rnd (d 3) h
    rw [csOf, hr]
    exact .inl (pack64_le_one hm).1

theorem fadd_one_one (d : NanDraw) : fadd d one64 one64 = two64 := by
  rw [fadd_of_finite (by decide) (by decide)]
  decide +kernel

section
variable {rnd : NumRounding} {d : Nat → NanDraw} {o : Operands} (h : mag64 o.gainDb = 0)
include h

theorem shelfTerms_A_zeroGain : (shelfTerms rnd d o).A = one64 := gainOf_zero rnd d h

/-- With `A - 1` a zero the two sums with `A + 1` are both 2.0 (R106). -/
theorem shelfTerms_pm_zeroGain : SameOrNaN (shelfTerms rnd d o).pm (shelfTerms rnd d o).pp := by
  simp only [shelfTerms, gainOf_zero rnd d h, fadd_one_one, fsub_self (show isFinite64 one64 = true by decide)]
  rcases csOf_finite_or_nan rnd d o with hf | hn
  · have hz : ∀ e, mag64 (fmul e 0 (csOf rnd d o)) = 0 := fun e => mag64_fmul_zero (by decide) hf
    rw [fsub, fadd_zero_right (by decide) (by decide) (by rw [mag64_fneg, hz]),
      fadd_zero_right (by decide) (by decide) (hz _)]
    exact .refl _
  · rw [fmul_nan_right hn, fmul_nan_right hn]
    exact .inr ⟨by simp, by simp⟩

/-- With `A - 1` a zero the two sums with it are the negatives of each other, where the cosine is not a zero (R106). -/
theorem shelfTerms_mm_zeroGain (hc : mag64 (csOf rnd d o) ≠ 0) :
    SameOrNaN (shelfTerms rnd d o).mm (fneg (shelfTerms rnd d o).mp) := by
  simp only [shelfTerms, gainOf_zero rnd d h, fadd_one_one, fsub_self (show isFinite64 one64 = true by decide)]
  rcases csOf_finite_or_nan rnd d o with hf | hn
  · have hpos : ∀ e, mag64 (fmul e two64 (csOf rnd d o)) ≠ 0 := fun e => by
      have := mag64_le_fmul_two e hf
      omega
    have hnum : ∀ e, isNaN64 (fmul e two64 (csOf rnd d o)) = false := fun e => by
      rw [fmul_of_finite (by decide) hf, isNaN64_round64]
    rw [fsub, fadd_zero_left (by decide) (by simp [hnum]) (by simp [hpos]),
      fadd_zero_left (by decide) (hnum _) (hpos _)]
    exact .fneg (.fmul (.refl _) (.refl _))
  · rw [fmul_nan_right hn, fmul_nan_right hn]
    exact .inr ⟨by simp, by simp⟩

/-- Before the final step the numerator of `PK` is its denominator. -/
theorem prePK_zeroGain : SameOrNaN (prePK rnd d o).b0 (prePK rnd d o).a0 ∧
    SameOrNaN (prePK rnd d o).b1 (prePK rnd d o).a1 ∧ SameOrNaN (prePK rnd d o).b2 (prePK rnd d o).a2 := by
  simp only [prePK, gainOf_zero rnd d h]
  have huv : ∀ e e', SameOrNaN (fmul e (alphaOf rnd d o) one64) (fdiv e' (alphaOf rnd d o) one64) := fun e e' =>
    (fmul_one_right_same e _).trans (fdiv_one_same e' _).symm
  exact ⟨.fadd (.refl _) (huv _ _), .fmul (.refl _) (.refl _), .fsub (.refl _) (huv _ _)⟩

theorem preLS_zeroGain : SameOrNaN (preLS rnd d o).b0 (preLS rnd d o).a0 ∧
    SameOrNaN (preLS rnd d o).b2 (preLS rnd d o).a2 := by
  have hp := shelfTerms_pm_zeroGain (rnd := rnd) (d := d) h
  simp only [preLS, shelfTerms_A_zeroGain h]
  exact ⟨(fmul_one_same _ _).trans (.fadd hp (.refl _)), (fmul_one_same _ _).trans (.fsub hp (.refl _))⟩

theorem preHS_zeroGain : SameOrNaN (preHS rnd d o).b0 (preHS rnd d o).a0 ∧
    SameOrNaN (preHS rnd d o).b2 (preHS rnd d o).a2 := by
  have hp := (shelfTerms_pm_zeroGain (rnd := rnd) (d := d) h).symm
  simp only [preHS, shelfTerms_A_zeroGain h]
  exact ⟨(fmul_one_same _ _).trans (.fadd hp (.refl _)), (fmul_one_same _ _).trans (.fsub hp (.refl _))⟩

theorem preLS_b1_zeroGain (hc : mag64 (csOf rnd d o) ≠ 0) : SameOrNaN (preLS rnd d o).b1 (preLS rnd d o).a1 := by
  have hm := shelfTerms_mm_zeroGain h hc
  simp only [preLS, shelfTerms_A_zeroGain h]
  refine (SameOrNaN.fmul (d' := d 30) (fmul_one_right_same _ _) hm).trans ?_
  rw [← fmul_fneg]
  exact .fmul (.refl _) (.refl _)

theorem preHS_b1_zeroGain (hc : mag64 (csOf rnd d o) ≠ 0) : SameOrNaN (preHS rnd d o).b1 (preHS rnd d o).a1 := by
  have hm := shelfTerms_mm_zeroGain h hc
  simp only [preHS, shelfTerms_A_zeroGain h]
  refine .trans ?_ (SameOrNaN.fmul (d := d 26) (.refl _) hm.symm)
  rw [← fmul_fneg]
  exact .fmul (fmul_one_right_same _ _) (.refl _)

/-- `V0·K` is `K` (R110). -/
theorem preLS1_zeroGain : SameOrNaN (preLS1 rnd d o).b1 (preLS1 rnd d o).a1 := by
  simp only [preLS1, v0Of_zero rnd d h]
  exact .fmul (.fsub (fmul_one_same _ _) (.refl _)) (.refl _)

theorem preHS1_zeroGain : SameOrNaN (preHS1 rnd d o).b1 (preHS1 rnd d o).a1 := by
  simp only [preHS1, v0Of_zero rnd d h]
  exact .fmul (.fsub (.refl _) (.refl _)) (.refl _)

end

/-- The final step of a branch whose numerator is its denominator, but for the middle term. -/
theorem normalise_unity (d : Nat → NanDraw) {p : PreNorm} (h : SameOrNaN p.b0 p.a0 ∧ SameOrNaN p.b2 p.a2) :
    ((normalise d p).b0 = one64 ∨ isNaN64 (normalise d p).b0 = true) ∧
      SameOrNaN (normalise d p).b2 (normalise d p).a2 :=
  ⟨fdiv_same _ h.1, .fdiv h.2 (.refl _)⟩

theorem normalise_middle (d : Nat → NanDraw) {p : PreNorm} (h : SameOrNaN p.b1 p.a1) :
    SameOrNaN (normalise d p).b1 (normalise d p).a1 :=
  .fdiv h (.refl _)

/-- Settles O35: before the final step the values are the same, and the final step divides them by the same `a0`. -/
theorem zeroGainIsIdentity : Obligations.ZeroGainIsIdentity := by
  intro rnd d o h
  obtain ⟨hpk0, hpk1, hpk2⟩ := prePK_zeroGain (rnd := rnd) (d := d) h
  simp only [List.forall_mem_cons]
  refine ⟨⟨normalise_unity d ⟨hpk0, hpk2⟩, normalise_unity d (preLS_zeroGain h), normalise_unity d (preHS_zeroGain h),
    nofun⟩, ⟨normalise_middle d hpk1, normalise_middle d (preLS1_zeroGain h), normalise_middle d (preHS1_zeroGain h),
    nofun⟩, fun hc => ?_⟩
  exact ⟨normalise_middle d (preLS_b1_zeroGain h hc), normalise_middle d (preHS_b1_zeroGain h hc), nofun⟩

end Sys2Proof.Machine
end

section
/-! PROOFS. `s · (1/s)`, both rounded, is 1.0 or its neighbour below, and so is `b0` of the first-order kinds at a
gain of 0 dB (41_coeff_calculator.md rules R109 to R111, 40_numerics.md rule R71). -/

namespace Sys2Proof.Machine

/-! ### The error of one rounding -/

/-- Magnitudes next to each other differ by at most `2^-fb` of the lower one, or by one unit. -/
theorem unitsOf_gap (fb m : Nat) :
    2 ^ fb * unitsOf fb (m + 1) ≤ 2 ^ fb * unitsOf fb m + max (unitsOf fb m) (2 ^ fb) := by
  obtain ⟨k, q, rfl, hq, hk⟩ := exists_scaled fb m
  rw [Nat.add_assoc, unitsOf_scaled (by omega) (hk.imp_right (by omega)), unitsOf_scaled hq.le hk, Nat.add_mul,
    Nat.mul_add, Nat.one_mul]
  refine Nat.add_le_add_left ?_ _
  rcases hk with rfl | hk
  · simp
  · exact (Nat.mul_le_mul_right _ hk).trans (le_max_left _ _)

/-- A rounding is off by at most half the distance of the magnitudes around the value. -/
theorem roundNearest_half_gap {fb inf num den : Nat} (hfb : 0 < fb) (hd : 0 < den)
    (hfin : roundNearest fb inf num den < inf) :
    2 * |(unitsOf fb (roundNearest fb inf num den) * den : Int) - num| + unitsOf fb (floorMag fb num den) * den ≤
      unitsOf fb (floorMag fb num den + 1) * den := by
  obtain ⟨hlo, hhi⟩ := floorMag_bounds fb (num := num) hd
  have h0 := roundNearest_nearest hfb hd hfin (floorMag fb num den)
  have h1 := roundNearest_nearest hfb hd hfin (floorMag fb num den + 1)
  zify at hlo hhi
  rw [abs_of_nonpos (sub_nonpos.2 hlo)] at h0
  rw [abs_of_pos (sub_pos.2 hhi)] at h1
  omega

/-- A rounding is off by at most `2^-(fb+1)` of a value that is not subnormal (R71). -/
theorem roundNearest_error {fb inf num den : Nat} (hfb : 0 < fb) (hd : 0 < den)
    (hfin : roundNearest fb inf num den < inf) (hnum : 2 ^ fb * den ≤ num) :
    2 ^ (fb + 1) * |(unitsOf fb (roundNearest fb inf num den) * den : Int) - num| ≤ num := by
  have hhalf := mul_le_mul_of_nonneg_left (roundNearest_half_gap hfb hd hfin) (pow_nonneg zero_le_two fb)
  have hlo := (floorMag_bounds fb (num := num) hd).1
  have hgap := Nat.mul_le_mul_right den (unitsOf_gap fb (floorMag fb num den))
  have hmax : max (unitsOf fb (floorMag fb num den)) (2 ^ fb) * den ≤ num := by
    rw [max_mul_of_nonneg _ _ (Nat.zero_le den)]
    exact max_le hlo hnum
  rw [Nat.add_mul] at hgap
  zify at hgap hmax
  rw [pow_succ]
  linarith

/-! ### A number times its reciprocal -/

/-- 1.0's neighbour below (R71). -/
def belowOne64 : F64 := 0x3FEFFFFFFFFFFFFF#64

/-- Within `2^-53` of 1 a value is rounded to 1.0 or its neighbour below. -/
theorem round64_near_one {num : Nat}
    (h : 2 ^ 53 * |(num : Int) - (unitsPerOne * unitsPerOne : Nat)| ≤ (unitsPerOne * unitsPerOne : Nat)) :
    round64 false num unitsPerOne = one64 ∨ round64 false num unitsPerOne = belowOne64 := by
  have hlo := neg_abs_le ((num : Int) - (unitsPerOne * unitsPerOne : Nat))
  have hhi := le_abs_self ((num : Int) - (unitsPerOne * unitsPerOne : Nat))
  have hbelow : mag64 belowOne64 ≤ roundNearest 52 inf64 num unitsPerOne := by
    rw [show mag64 belowOne64 = roundNearest 52 inf64 ((2 ^ 53 - 1) * unitsPerOne) (2 ^ 53) by decide +kernel]
    refine roundNearest_mono (by decide) (Nat.two_pow_pos 53) unitsPerOne_pos ?_
    rw [Nat.mul_assoc]
    omega
  have habove : roundNearest 52 inf64 num unitsPerOne ≤ mag64 one64 := by
    rw [show mag64 one64 = roundNearest 52 inf64 ((2 ^ 53 + 1) * unitsPerOne) (2 ^ 53) by decide +kernel]
    refine roundNearest_mono (by decide) unitsPerOne_pos (Nat.two_pow_pos 53) ?_
    rw [Nat.mul_assoc]
    omega
  have hnext : mag64 one64 = mag64 belowOne64 + 1 := by decide
  rcases Nat.lt_or_ge (mag64 belowOne64) (roundNearest 52 inf64 num unitsPerOne) with hlt | hge
  · exact .inl (eq_of_sign_mag64 (by rw [sign64_round64]; decide) (by rw [mag64_round64]; omega))
  · exact .inr (eq_of_sign_mag64 (by rw [sign64_round64]; decide) (by rw [mag64_round64]; omega))

/-- The reciprocal is off by at most `2^-53` of it, so the product with it is that near to 1. -/
theorem fmul_reciprocal (d d' : NanDraw) {s : F64} (hf : isFinite64 s = true) (hz : mag64 s ≠ 0)
    (hr : isFinite64 (fdiv d' one64 s) = true) (hbig : 2 ^ 52 * units64 s ≤ unitsPerOne * unitsPerOne) :
    fmul d s (fdiv d' one64 s) = one64 ∨ fmul d s (fdiv d' one64 s) = belowOne64 := by
  have hpos : 0 < units64 s := units64_pos.2 (Nat.pos_of_ne_zero hz)
  have hdiv : fdiv d' one64 s = round64 (sign64 s) (unitsPerOne * unitsPerOne) (units64 s) := by
    rw [fdiv_of_finite (by decide) hf hz, units64_one, show sign64 one64 = false by decide, Bool.false_bne]
  have hfin : roundNearest 52 inf64 (unitsPerOne * unitsPerOne) (units64 s) < inf64 := by
    have := mag64_lt_inf hr
    rwa [hdiv, mag64_round64] at this
  have herr := roundNearest_error (by decide) hpos hfin hbig
  rw [fmul_of_finite hf hr, hdiv, sign64_round64, bne_self_eq_false, units64, units64, mag64_round64, ← units64]
  refine round64_near_one ?_
  rw [Nat.mul_comm, Nat.cast_mul]
  exact herr

/-! ### `1 + K` -/

theorem le_mag64_round64 {t : F64} {n : Nat} (s : Bool) (ht : isFinite64 t = true) (h : units64 t ≤ n) :
    mag64 t ≤ mag64 (round64 s n 1) := by
  rw [mag64_round64, ← roundNearest_units64 ht]
  exact roundNearest_mono (by decide) Nat.one_pos Nat.one_pos (Nat.mul_le_mul_right 1 h)

theorem mag64_round64_le {t : F64} {n : Nat} (s : Bool) (ht : isFinite64 t = true) (h : n ≤ units64 t) :
    mag64 (round64 s n 1) ≤ mag64 t := by
  rw [mag64_round64, ← roundNearest_units64 ht]
  exact roundNearest_mono (by decide) Nat.one_pos Nat.one_pos (Nat.mul_le_mul_right 1 h)

/-- `1 + K` cancels to 0 or leaves at least `2^60` units: where `K` is near to -1 it is a multiple of as many. -/
theorem one_add_units {x : F64} (h : (unitsPerOne : Int) + signed64 x ≠ 0) :
    2 ^ 60 ≤ ((unitsPerOne : Int) + signed64 x).natAbs := by
  obtain ⟨k, q, hm, hq, hk⟩ := exists_scaled 52 (mag64 x)
  have hu : units64 x = q * 2 ^ k := by rw [units64, hm, unitsOf_scaled hq.le hk]
  rcases Nat.lt_or_ge k 60 with hk60 | hk60
  · -- `K` is far below 1
    have hsmall : units64 x ≤ 2 ^ 53 * 2 ^ 60 := by
      rw [hu]
      exact Nat.mul_le_mul hq.le (Nat.pow_le_pow_right two_pos hk60.le)
    have hone : 2 ^ 53 * 2 ^ 60 + 2 ^ 60 ≤ unitsPerOne := by decide +kernel
    have habs := natAbs_signed64 x
    omega
  · have hdvd : (2 ^ 60 : Int) ∣ unitsPerOne + signed64 x := by
      refine dvd_add (by decide +kernel) (Int.dvd_natAbs.1 ?_)
      rw [natAbs_signed64, hu]
      exact_mod_cast (pow_dvd_pow 2 hk60).mul_left q
    have := Nat.le_of_dvd (Int.natAbs_pos.2 h) (Int.natAbs_dvd_natAbs.2 hdvd)
    simpa using this

/-- `2^60` units, that is `2^-1014`. -/
def leastSum64 : F64 := 0x0090000000000000#64

/-- `2^1022`. -/
def mostSum64 : F64 := 0x7FD0000000000000#64

/-- From `2^60` units on a reciprocal is finite. -/
theorem isFinite64_reciprocal (d : NanDraw) {s : F64} (hf : isFinite64 s = true) (h : mag64 leastSum64 ≤ mag64 s) :
    isFinite64 (fdiv d one64 s) = true := by
  have hunits : units64 leastSum64 ≤ units64 s := units64_le.2 h
  have hpos : 0 < units64 leastSum64 := by decide +kernel
  have hz : mag64 s ≠ 0 := (units64_pos.1 (hpos.trans_le hunits)).ne'
  have hmono : roundNearest 52 inf64 (units64 one64 * unitsPerOne) (units64 s) ≤
      roundNearest 52 inf64 (units64 one64 * unitsPerOne) (units64 leastSum64) :=
    roundNearest_mono (by decide) (hpos.trans_le hunits) hpos (Nat.mul_le_mul_left _ hunits)
  have hfin : roundNearest 52 inf64 (units64 one64 * unitsPerOne) (units64 leastSum64) < inf64 := by decide +kernel
  rw [fdiv_of_finite (by decide) hf hz, isFinite64, mag64_round64, decide_eq_true_eq]
  exact hmono.trans_lt hfin

/-- `1 + K` of a `K` up to `2^1021` in magnitude is a zero or between `2^-1014` and `2^1022` in magnitude. -/
theorem one_add_cases (d : NanDraw) {x : F64} (hx : mag64 x ≤ mag64 0x7FC0000000000000#64) :
    mag64 (fadd d one64 x) = 0 ∨
      (mag64 leastSum64 ≤ mag64 (fadd d one64 x) ∧ mag64 (fadd d one64 x) ≤ mag64 mostSum64) := by
  have hf : isFinite64 x = true := by
    have : mag64 0x7FC0000000000000#64 < inf64 := by decide
    simp only [isFinite64, decide_eq_true_eq]
    omega
  have hone : signed64 one64 = unitsPerOne := by decide +kernel
  rw [fadd_of_finite (by decide) hf, hone]
  split
  · exact .inl (mag64_pack_zero _)
  · rename_i hne
    have hunits : units64 x ≤ units64 0x7FC0000000000000#64 := units64_le.2 hx
    have habs := natAbs_signed64 x
    have hmost : unitsPerOne + units64 0x7FC0000000000000#64 ≤ units64 mostSum64 := by decide +kernel
    refine .inr ⟨le_mag64_round64 _ (by decide) ?_, mag64_round64_le _ (by decide) (by omega)⟩
    rw [show units64 leastSum64 = 2 ^ 60 by decide +kernel]
    exact one_add_units hne

/-- `(1 + K) · (1 / (1 + K))`, rounded three times. -/
theorem fmul_norm (d₁ d₂ d₃ : NanDraw) {x : F64} (hx : mag64 x ≤ mag64 0x7FC0000000000000#64) :
    let p := fmul d₃ (fadd d₁ one64 x) (fdiv d₂ one64 (fadd d₁ one64 x))
    p = one64 ∨ p = belowOne64 ∨ isNaN64 p = true := by
  intro p
  rcases one_add_cases d₁ hx with hz | ⟨hlo, hhi⟩
  · -- the reciprocal of a zero is an infinity
    have hinf : isInf64 (fdiv d₂ one64 (fadd d₁ one64 x)) = true := by
      rw [fdiv_by_zero (by decide) hz, if_neg (by decide), isInf64_pack]
    exact .inr (.inr (by rw [show p = nan64 d₃ from fmul_zero_inf hz hinf, isNaN64_nan64]))
  · have hf : isFinite64 (fadd d₁ one64 x) = true := by
      have : mag64 mostSum64 < inf64 := by decide
      simp only [isFinite64, decide_eq_true_eq]
      omega
    have hleast : 0 < mag64 leastSum64 := by decide
    have hmost : 2 ^ 52 * units64 mostSum64 ≤ unitsPerOne * unitsPerOne := by decide +kernel
    exact (fmul_reciprocal d₃ d₂ hf (by omega) (isFinite64_reciprocal d₂ hf hlo)
      ((Nat.mul_le_mul_left _ (units64_le.2 hhi)).trans hmost)).imp_right .inl

/-! ### The first-order kinds at 0 dB -/

/-- At 0 dB `b0` of the first-order kinds is `(1 + K) · norm` (R110, R111). -/
theorem firstOrder_b0_zeroGain (rnd : NumRounding) (d : Nat → NanDraw) {o : Operands} (h : mag64 o.gainDb = 0) :
    ∀ k ∈ [FilterKind.ls1, .hs1],
      SameOrNaN (calcTrees rnd d k o).b0 (fmul (d 18) (fadd (d 14) one64 (kOf rnd d o)) (normOf rnd d o)) := by
  rw [List.forall_mem_cons, List.forall_mem_singleton]
  simp only [calcTrees, preNorm, preLS1, preHS1, v0Of_zero rnd d h, normalise_firstOrder, fadd_comm _ one64]
  exact ⟨(fdiv_one_same _ _).trans (.fmul (.fadd (fmul_one_same _ _) (.refl _)) (.refl _)),
    (fdiv_one_same _ _).trans (.fmul (.fadd (.refl _) (.refl _)) (.refl _))⟩

/-- Settles O56: `b0` is `(1 + K) · (1 / (1 + K))`, rounded. -/
theorem firstOrderUnityAtZeroGain : Obligations.FirstOrderUnityAtZeroGain := by
  intro rnd d o h hK k hk
  rcases firstOrder_b0_zeroGain rnd d h k hk with heq | ⟨hn, -⟩
  · simp only [heq]
    exact fmul_norm (d 14) (d 15) (d 18) hK
  · exact .inr (.inr hn)

end Sys2Proof.Machine
end

section
/-! PROOFS. What the coefficients mean in exact arithmetic (41_coeff_calculator.md rule R115): the gains at DC and at
the Nyquist frequency, and the poles. -/

namespace Sys2Proof.Machine

/-! ### Gains -/

/-- The sums of the numerator's and of the denominator's coefficients, with and without the signs turned, give the two
gains: `g` at DC and `g'` at the Nyquist frequency. -/
theorem IdealBranch.gains_of_sums {K : Type} [Field K] {p : IdealBranch K} {g g' : K} (h0 : p.a0 ≠ 0)
    (hdc : p.a0 + p.a1 + p.a2 ≠ 0) (hny : p.a0 - p.a1 + p.a2 ≠ 0)
    (hg : p.b0 + p.b1 + p.b2 = g * (p.a0 + p.a1 + p.a2)) (hg' : p.b0 - p.b1 + p.b2 = g' * (p.a0 - p.a1 + p.a2)) :
    p.dcGain = g ∧ p.nyquistGain = g' := by
  have hone : p.a0 / p.a0 = 1 := div_self h0
  constructor
  · rw [dcGain, ← hone, ← add_div, ← add_div, ← add_div, ← add_div, div_div_div_cancel_right₀ h0, hg,
      mul_div_cancel_right₀ _ hdc]
  · rw [nyquistGain, ← hone, ← sub_div, ← add_div, ← sub_div, ← add_div, div_div_div_cancel_right₀ h0, hg',
      mul_div_cancel_right₀ _ hny]

section
variable {cs alpha A beta k : ℝ}

theorem gains_idealLP (hcs : |cs| < 1) (ha : 0 < alpha) :
    (idealLP cs alpha).dcGain = 1 ∧ (idealLP cs alpha).nyquistGain = 0 := by
  obtain ⟨hlo, hhi⟩ := abs_lt.1 hcs
  apply IdealBranch.gains_of_sums <;> simp only [idealLP]
  case h0 => positivity
  case hdc | hny => linarith
  case hg | hg' => ring

theorem gains_idealHP (hcs : |cs| < 1) (ha : 0 < alpha) :
    (idealHP cs alpha).dcGain = 0 ∧ (idealHP cs alpha).nyquistGain = 1 := by
  obtain ⟨hlo, hhi⟩ := abs_lt.1 hcs
  apply IdealBranch.gains_of_sums <;> simp only [idealHP]
  case h0 => positivity
  case hdc | hny => linarith
  case hg | hg' => ring

theorem gains_idealPK (hcs : |cs| < 1) (ha : 0 < alpha) (hA : 0 < A) :
    (idealPK cs alpha A).dcGain = 1 ∧ (idealPK cs alpha A).nyquistGain = 1 := by
  obtain ⟨hlo, hhi⟩ := abs_lt.1 hcs
  apply IdealBranch.gains_of_sums <;> simp only [idealPK]
  case h0 => positivity
  case hdc | hny => linarith
  case hg | hg' => ring

theorem gains_idealLS (hcs : |cs| < 1) (hA : 0 < A) (hb : 0 < beta) :
    (idealLS cs beta A).dcGain = A ^ 2 ∧ (idealLS cs beta A).nyquistGain = 1 := by
  obtain ⟨hlo, hhi⟩ := abs_lt.1 hcs
  have hpos : 0 < A * (1 + cs) := mul_pos hA (by linarith)
  apply IdealBranch.gains_of_sums <;> simp only [idealLS]
  case h0 | hdc | hny => linarith
  case hg | hg' => ring

theorem gains_idealHS (hcs : |cs| < 1) (hA : 0 < A) (hb : 0 < beta) :
    (idealHS cs beta A).dcGain = 1 ∧ (idealHS cs beta A).nyquistGain = A ^ 2 := by
  obtain ⟨hlo, hhi⟩ := abs_lt.1 hcs
  have hpos : 0 < A * (1 - cs) := mul_pos hA (by linarith)
  apply IdealBranch.gains_of_sums <;> simp only [idealHS]
  case h0 | hdc | hny => linarith
  case hg | hg' => ring

/-- The denominators' sums of the first-order kinds are `2·K/(1 + K)` and `2/(1 + K)`. -/
theorem firstOrder_sums (hk : 0 < k) :
    1 + (k - 1) / (1 + k) + 0 = 2 * k / (1 + k) ∧ 1 - (k - 1) / (1 + k) + 0 = 2 / (1 + k) := by
  have : 1 + k ≠ 0 := by positivity
  constructor <;> field_simp <;> ring

theorem gains_idealLS1 (hk : 0 < k) (V0 : ℝ) : (idealLS1 k V0).dcGain = V0 ∧ (idealLS1 k V0).nyquistGain = 1 := by
  obtain ⟨hsum, hdiff⟩ := firstOrder_sums hk
  apply IdealBranch.gains_of_sums <;> simp only [idealLS1, hsum, hdiff]
  case h0 => exact one_ne_zero
  case hdc | hny => positivity
  case hg | hg' => ring

theorem gains_idealHS1 (hk : 0 < k) (V0 : ℝ) : (idealHS1 k V0).dcGain = 1 ∧ (idealHS1 k V0).nyquistGain = V0 := by
  obtain ⟨hsum, hdiff⟩ := firstOrder_sums hk
  apply IdealBranch.gains_of_sums <;> simp only [idealHS1, hsum, hdiff]
  case h0 => exact one_ne_zero
  case hdc | hny => positivity
  case hg | hg' => ring

end

/-- Settles O53: each kind's two sums have the stated quotients. -/
theorem idealGainsAtDcAndNyquist : Obligations.IdealGainsAtDcAndNyquist := by
  intro cs alpha A beta K V0 hcs ha hA hb hK
  simp only [gains_idealLP hcs ha, gains_idealHP hcs ha, gains_idealPK hcs ha hA, gains_idealLS hcs hA hb,
    gains_idealHS hcs hA hb, gains_idealLS1 hK V0, gains_idealHS1 hK V0, and_self]

/-! ### Poles -/

/-- A real root of `x² + a·x + b` lies between -1 and 1 when the quadratic is positive at both and `b < 1`. -/
theorem abs_real_root_lt_one {a b x : ℝ} (hb : b < 1) (ha : |a| < 1 + b) (hx : x ^ 2 + a * x + b = 0) : |x| < 1 := by
  obtain ⟨hlo, hhi⟩ := abs_lt.1 ha
  refine abs_lt.2 ⟨?_, ?_⟩ <;> by_contra hc <;> rw [not_lt] at hc <;> nlinarith

/-- The roots of `z² + a·z + b` lie inside the unit circle: a real one as above, and of a pair of complex ones the
product is `b`. -/
theorem norm_root_lt_one {a b : ℝ} (hb : |b| < 1) (ha : |a| < 1 + b) {z : ℂ} (hz : z ^ 2 + (a : ℂ) * z + (b : ℂ) = 0) :
    ‖z‖ < 1 := by
  have hb1 : b < 1 := (abs_lt.1 hb).2
  have hre := congrArg Complex.re hz
  have him := congrArg Complex.im hz
  simp only [sq, Complex.add_re, Complex.mul_re, Complex.ofReal_re, Complex.ofReal_im, zero_mul, sub_zero,
    Complex.zero_re, Complex.add_im, Complex.mul_im, add_zero, Complex.zero_im] at hre him
  rcases eq_or_ne z.im 0 with h0 | h0
  · have hx : |z.re| < 1 := abs_real_root_lt_one hb1 ha (by rw [h0] at hre; linarith)
    rwa [← Complex.abs_re_eq_norm.2 h0]
  · have hsum : a = -(2 * z.re) := mul_right_cancel₀ h0 (by linarith)
    have hsq : ‖z‖ ^ 2 = b := by
      rw [← Complex.normSq_eq_norm_sq, Complex.normSq_apply]
      rw [hsum] at hre
      linarith
    nlinarith [norm_nonneg z]

/-- The denominator `1 + a`, `-2·cs`, `1 - a` meets the two conditions. -/
theorem secondOrder_poles {p : IdealBranch ℝ} {cs a : ℝ} (hcs : |cs| < 1) (ha : 0 < a) (h0 : p.a0 = 1 + a)
    (h1 : p.a1 = -2 * cs) (h2 : p.a2 = 1 - a) :
    |p.a2 / p.a0| < 1 ∧ |p.a1 / p.a0| < 1 + p.a2 / p.a0 ∧
      ∀ z : ℂ, z ^ 2 + ((p.a1 / p.a0 : ℝ) : ℂ) * z + ((p.a2 / p.a0 : ℝ) : ℂ) = 0 → ‖z‖ < 1 := by
  rw [h0, h1, h2]
  have hpos : 0 < 1 + a := by linarith
  have ha2 : |(1 - a) / (1 + a)| < 1 := by
    rw [abs_div, abs_of_pos hpos, div_lt_one hpos, abs_lt]
    constructor <;> linarith
  have ha1 : |-2 * cs / (1 + a)| < 1 + (1 - a) / (1 + a) := by
    have hsum : 1 + (1 - a) / (1 + a) = 2 / (1 + a) := by
      field_simp
      ring
    rw [hsum, abs_div, abs_of_pos hpos, div_lt_div_iff_of_pos_right hpos, abs_mul, abs_neg, abs_two]
    linarith
  exact ⟨ha2, ha1, fun z hz => norm_root_lt_one ha2 ha1 hz⟩

/-- The pole of the first-order kinds is `(1 - K)/(1 + K)`. -/
theorem firstOrder_pole {k : ℝ} (hk : 0 < k) {z : ℂ} (hz : z + (((k - 1) / (1 + k) / 1 : ℝ) : ℂ) = 0) : ‖z‖ < 1 := by
  have hpos : 0 < 1 + k := by linarith
  rw [eq_neg_of_add_eq_zero_left hz, norm_neg, Complex.norm_real, Real.norm_eq_abs, div_one, abs_div, abs_of_pos hpos,
    div_lt_one hpos, abs_lt]
  constructor <;> linarith

/-- Settles O54: `LP` and `HP` have the denominator of `alpha`, `PK` that of `alpha/A`. -/
theorem idealPolesInsideUnitCircle : Obligations.IdealPolesInsideUnitCircle := by
  intro cs alpha A K V0 hcs ha hA hK
  simp only [List.forall_mem_cons]
  exact ⟨⟨secondOrder_poles hcs ha rfl rfl rfl, secondOrder_poles hcs ha rfl rfl rfl,
    secondOrder_poles hcs (div_pos ha hA) rfl rfl rfl, nofun⟩,
    fun _ => firstOrder_pole hK, fun _ => firstOrder_pole hK, nofun⟩

end Sys2Proof.Machine
end

section
/-! PROOFS. The commands of the filter stage (42_stage_commands.md rules R120 to R134): the state each command answers,
what the squelch does to a sum, and what becomes of a sample in a stage with the identity coefficients and in one that
holds a value that is not finite. -/

namespace Sys2Proof.Machine

/-! ### The state each command answers -/

/-- A stage command completes on every stage the chain has, and changes that stage and the count of draws (R120, R144). -/
theorem exec_of_stageEffect {i : Instr} {s : State} {f : Stage → Stage} {st : Stage} (hf : stageEffect s i = some f)
    (hst : s.stages[s.active]? = some st) :
    exec i s = .next { s with stages := s.stages.set s.active (f st), draws := s.draws + drawsPerCommand } :=
  (exec_stage hf).trans (onStage_of_stage hst)

/-- Settles O15: the effect of `NOP` on its stage is to clear `OUT_VALID`. -/
theorem nopChangesOnlyOutValid : Obligations.NopChangesOnlyOutValid :=
  ⟨rfl, fun s _ hst => ⟨s.draws + drawsPerCommand, exec_of_stageEffect (f := Stage.unstrobe) rfl hst⟩⟩

/-- Settles O16: the effect of `RESET` is the same on every stage, so a second one writes again what stands there. -/
theorem resetCommandWritesEveryRegister : Obligations.ResetCommandWritesEveryRegister := by
  refine ⟨rfl, fun s st hst => ⟨_, exec_of_stageEffect rfl hst, rfl, ?_⟩⟩
  have hreset : (s.stages.set s.active Stage.reset)[s.active]? = some Stage.reset :=
    List.getElem?_set_self (List.getElem?_eq_some_iff.1 hst).1
  exact ⟨_, exec_of_stageEffect rfl hreset, List.set_set _⟩

/-- Settles O17: both the `SETC` and the `COEF` of a kind write what the one calculator gives for that kind. -/
theorem setcLoadsWhatCoefGives : Obligations.SetcLoadsWhatCoefGives := by
  intro setc coef hmem s st hst
  obtain ⟨k, -, hk⟩ : ∃ k ∈ [FilterKind.lp, .hp, .pk, .ls, .hs, .ls1, .hs1],
      (Instr.setc k, Instr.coef k) = (setc, coef) := List.mem_map.1 hmem
  cases hk
  exact ⟨_, exec_coef k s, exec_of_stageEffect (stageEffect_setc s k) hst⟩

/-- Settles O18: the pseudocode is the effect of `PROC`, with the draws of the state in which it is executed. -/
theorem procComputesTheRecursion : Obligations.ProcComputesTheRecursion :=
  ⟨rfl, fun s _ hst => ⟨s.nanDraw, s.draws + drawsPerCommand,
    exec_of_stageEffect (f := Stage.process s.nanDraw s.ports.sampleIn) rfl hst⟩⟩

/-! ### The squelch -/

/-- `THRESH` is the rounding of 10^-20 (R79). -/
theorem thresh_eq_round64 : thresh = round64 false unitsPerOne (10 ^ 20) := by decide +kernel

theorem thresh_nearest {c : F64} (hc : isFinite64 c = true) :
    |value64 thresh - 1 / 10 ^ 20| ≤ |value64 c - 1 / 10 ^ 20| := by
  have hround : NearestEven64 thresh (1 / 10 ^ 20) := by
    rw [thresh_eq_round64]
    refine nearestEven64_round64 (by norm_num) ?_
    rw [signum_false_mul, div_right_comm, div_self units_ne, Nat.cast_pow, Nat.cast_ofNat]
  obtain ⟨-, -, hfinite⟩ := hround
  have hsmall : |(1 / 10 ^ 20 : ℝ)| < 2 ^ 1024 - 2 ^ 970 := by
    have h := small_of_le_one (x := 1 / 10 ^ 20) (δ := 0) (by norm_num) (by norm_num) (by norm_num)
    rwa [mul_zero, add_zero] at h
  rw [← Rat.cast_le (K := ℝ)]
  push_cast
  exact ((hfinite hsmall).2 c hc).1

theorem value64_fabs (x : F64) : value64 (fabs x) = |value64 x| := by
  have h : ((value64 (fabs x) : ℚ) : ℝ) = |(value64 x : ℝ)| := by
    rw [abs_value64, value64_eq, sign64_fabs, units64_fabs, signum_false_mul]
  exact_mod_cast h

/-- The test of the squelch compares real values (R132). -/
theorem squelch_of_finite {raw : F64} (h : isFinite64 raw = true) :
    squelch raw = if |value64 raw| < value64 thresh then zero64 else raw := by
  obtain ⟨hn, -⟩ := finite64_iff.1 h
  rw [squelch, flt_eq (by rwa [isNaN64_fabs]) (by decide), ← value64_fabs]
  simp only [decide_eq_true_eq, value64_lt]

/-- Settles O46: below the threshold, from it on, and not finite are the three cases of the squelch's test. -/
theorem squelchIsStrictAndOnTheFinalSum : Obligations.SquelchIsStrictAndOnTheFinalSum :=
  ⟨fun _ hc => thresh_nearest hc, fun _ hf hlt => (squelch_of_finite hf).trans (if_pos hlt),
    fun _ hf hle => (squelch_of_finite hf).trans (if_neg hle.not_gt), fun _ hf => squelch_not_finite hf,
    fun d x st => ⟨st.process_y1 d x, st.process_out d x, st.process_x1 d x, st.process_x2 d x⟩⟩

theorem squelch_of_mag_zero {x : F64} (h : mag64 x = 0) : squelch x = zero64 := by
  obtain ⟨hn, -⟩ := finite64_iff.1 (isFinite64_of_mag_zero h)
  rw [squelch_eq, if_pos ⟨hn, by rw [h]; decide⟩]

/-! ### The identity coefficients -/

/-- Adding four zeros of any signs can change the sign of a zero, which the squelch makes `+0`, and nothing else. -/
theorem squelch_fadd_four_zeros (d₁ d₂ d₃ d₄ : NanDraw) {x z₁ z₂ z₃ z₄ : F64} (hx : isFinite64 x = true) (h₁ : mag64 z₁ = 0)
    (h₂ : mag64 z₂ = 0) (h₃ : mag64 z₃ = 0) (h₄ : mag64 z₄ = 0) :
    squelch (fadd d₄ (fadd d₃ (fadd d₂ (fadd d₁ x z₁) z₂) z₃) z₄) = squelch x := by
  by_cases h : mag64 x = 0
  · rw [squelch_of_mag_zero h, squelch_of_mag_zero]
    exact mag64_fadd_zeros (mag64_fadd_zeros (mag64_fadd_zeros (mag64_fadd_zeros h h₁) h₂) h₃) h₄
  · rw [fadd_zero hx h h₁, fadd_zero hx h h₂, fadd_zero hx h h₃, fadd_zero hx h h₄]

/-- With the identity coefficients and a finite history the sum is the sample, but for the sign of a zero. -/
theorem squelch_rawOf_identity (d : Nat → NanDraw) {h : History} {inp : F64} (hx1 : isFinite64 h.x1 = true)
    (hx2 : isFinite64 h.x2 = true) (hy1 : isFinite64 h.y1 = true) (hy2 : isFinite64 h.y2 = true)
    (hinp : isFinite64 inp = true) : squelch (rawOf d CoefSet.identity h inp) = squelch inp := by
  have product : ∀ (n : Nat) {v : F64}, isFinite64 v = true → mag64 (fmul (d n) 0 v) = 0 := fun _ _ => mag64_fmul_zero rfl
  have hone : fmul (d 1) CoefSet.identity.b0 inp = inp := fmul_one (finite64_iff.1 hinp).1
  rw [rawOf, hone]
  exact squelch_fadd_four_zeros _ _ _ _ hinp (product 2 hx1) (product 4 hx2) ((mag64_fneg _).trans (product 6 hy1))
    ((mag64_fneg _).trans (product 8 hy2))

/-- `THRESH` lies between two neighbouring binary32 values, and `0x1E3CE509` is the upper one (R134). -/
theorem mag64_widen_lt_thresh (d : NanDraw) {x : F32} (hx : isFinite32 x = true) :
    mag64 (widen d x) < mag64 thresh ↔ mag32 x < 0x1E3CE509 := by
  have hbelow : units32 0x1E3CE508#32 * unitsPerUnit32 < units64 thresh := by decide +kernel
  have habove : units64 thresh ≤ units32 0x1E3CE509#32 * unitsPerUnit32 := by decide +kernel
  obtain ⟨-, -, hunits, -⟩ := widen_spec d hx
  rw [← units64_lt, hunits]
  refine ⟨fun h => ?_, fun h => ?_⟩
  · by_contra hge
    have hle : units32 0x1E3CE509#32 ≤ units32 x := units32_le.2 (not_lt.1 hge)
    exact absurd (h.trans_le habove) (Nat.mul_le_mul_right _ hle).not_gt
  · have hle : units32 x ≤ units32 0x1E3CE508#32 := units32_le.2 (Nat.le_of_lt_succ h)
    exact (Nat.mul_le_mul_right _ hle).trans_lt hbelow

theorem squelch_widen (d : NanDraw) {x : F32} (hx : isFinite32 x = true) :
    squelch (widen d x) = if mag32 x < 0x1E3CE509 then zero64 else widen d x := by
  obtain ⟨hf, -⟩ := widen_spec d hx
  simp only [squelch_eq, (finite64_iff.1 hf).1, true_and, mag64_widen_lt_thresh d hx]

/-- Settles O47: the sum is the sample, which the squelch compares with the threshold and `narrow` gives back. -/
theorem passthroughOfFiniteSamples : Obligations.PassthroughOfFiniteSamples := by
  intro d x st hbank hx1 hx2 hy1 hy2 hx
  have hout : (st.process d x).out = if mag32 x < 0x1E3CE509 then 0 else x := by
    rw [Stage.process_out, Stage.process_y1, show st.bank = CoefSet.identity from hbank,
      squelch_rawOf_identity d hx1 hx2 hy1 hy2 (widen_spec (d 0) hx).1, squelch_widen _ hx,
      apply_ite (narrow (d 10)), narrow_zero64, narrow_widen _ _ (finite32_iff.1 hx).1]
  rw [hout]
  split
  case isTrue h => exact ⟨by rw [or_iff_right h.not_ge, eq_comm], fun _ => rfl⟩
  case isFalse h => exact ⟨by simp [not_lt.1 h], fun hne => absurd rfl hne⟩

/-! ### Values that are not finite -/

/-- The products of the sample and of `y1` are terms of the sum, whatever the coefficients (R133). -/
theorem rawOf_not_finite (d : Nat → NanDraw) (c : CoefSet) {h : History} {inp : F64}
    (hne : isFinite64 inp = false ∨ isFinite64 h.y1 = false) : isFinite64 (rawOf d c h inp) = false := by
  refine fsub_not_finite (.inl ?_)
  rcases hne with hinp | hy1
  · exact fsub_not_finite (.inl (fadd_not_finite (.inl (fadd_not_finite (.inl (fmul_not_finite (.inr hinp)))))))
  · exact fsub_not_finite (.inr (fmul_not_finite (.inr hy1)))

/-- Settles O48: a sum that is not finite passes the squelch and stays so in `narrow`. -/
theorem nonFiniteValuesPersist : Obligations.NonFiniteValuesPersist := by
  intro d x st h
  have hy1 : isFinite64 (st.process d x).hist.y1 = false := by
    have hraw := rawOf_not_finite d st.bank (h.imp_left (widen_not_finite (d := d 0)))
    rwa [Stage.process_y1, squelch_not_finite hraw]
  exact ⟨hy1, narrow_not_finite hy1⟩

end Sys2Proof.Machine
end

section
/-! PROOFS. The chain of stages (43_filter_chain.md rules R140 to R145): its length, what a command leaves of the other
stages, the levels that the stages see at one edge, and the cycles of `CHAIN`. -/

namespace Sys2Proof.Machine

/-! ### The number of stages -/

theorem clockEdge_keeps_length {rst : Bool} {pins : List StagePins} {s t : State} (h : clockEdge rst pins s = .next t) :
    t.stages.length = s.stages.length := by
  rcases clockEdge_next h with ⟨-, rfl⟩ | ⟨-, -, -, he⟩
  · simp
  · simpa using stagesEdge_keeps_length he

/-- Settles O12: the two stages written out and the extra ones, of which there are at most 2. -/
theorem resetChainHasTwoToFourStages : Obligations.ResetChainHasTwoToFourStages := by
  have hlen : State.reset.stages.length = Config.extraStages.val + 2 := by simp [State.reset, State.constructed]
  have hlt := Config.extraStages.isLt
  exact ⟨hlen, by omega, by omega⟩

/-- Settles O13: neither a clock edge nor an instruction of the calculator changes the length. -/
theorem stepKeepsChainLength : Obligations.StepKeepsChainLength := by
  intro s t h
  rcases step_next h with ⟨_, _, rest, hc⟩ | ⟨_, fs, freq, q, g, rest, _, -, he⟩
  · exact clockEdge_keeps_length (s := { s with host := rest }) hc
  · exact exec_keeps_length (s := ({ s with host := rest } : State).presentCalc fs freq q g) he

/-! ### What a command leaves alone -/

/-- What has an effect on a stage is a word of the command port (R58). -/
theorem encode_of_stageEffect {s : State} {i : Instr} {f : Stage → Stage} (h : stageEffect s i = some f) :
    ∃ w, encode i = .cmd w := by
  cases i <;> cases h <;> exact ⟨_, rfl⟩

/-- What has a kind of calculation is a word of the kind port (R54). -/
theorem encode_of_calcKind {i : Instr} {k : FilterKind} (h : calcKind i = some k) : ∃ w, encode i = .kind w := by
  cases i <;> cases h <;> exact ⟨_, rfl⟩

/-- Settles O20: a stage command sets one stage, a calculator function the calculator's outputs. -/
theorem commandTouchesOneStage : Obligations.CommandTouchesOneStage := by
  intro i s t h
  rcases exec_next_cases h with ⟨f, st, hf, -, rfl⟩ | ⟨k, hk, rfl⟩
  · obtain ⟨w, hw⟩ := encode_of_stageEffect hf
    exact ⟨fun j hj => by simp [List.getElem?_set_ne hj.symm], by simp, fun _ => rfl, by simp [hw],
      rfl, rfl, rfl, rfl, rfl, rfl⟩
  · obtain ⟨w, hw⟩ := encode_of_calcKind hk
    exact ⟨fun _ _ => rfl, rfl, by simp [hw], fun _ => rfl, rfl, rfl, rfl, rfl, rfl, rfl⟩

/-! ### The levels before an edge -/

/-- The wire from the stage before, if the chain has one there (R141). -/
theorem sampleInOf_succ (l : List Stage) (j : Nat) (x : F32) :
    sampleInOf l (j + 1) x = ((l[j]?).map Stage.out).getD x := by
  rw [sampleInOf]
  cases l[j]? <;> rfl

/-- The level on a stage's `sample_in` depends on what the stages before it show, and on nothing else (R141). -/
theorem sampleInOf_congr {l l' : List Stage} {i : Nat} (h : ∀ j < i, (l[j]?).map Stage.out = (l'[j]?).map Stage.out)
    (x : F32) : sampleInOf l i x = sampleInOf l' i x := by
  cases i with
  | zero => rfl
  | succ j => rw [sampleInOf_succ, sampleInOf_succ, h j j.lt_succ_self]

/-- What an idle edge does to the stages is not seen on the wires. -/
@[simp] theorem sampleInOf_map_unstrobe (l : List Stage) (i : Nat) (x : F32) :
    sampleInOf (l.map Stage.unstrobe) i x = sampleInOf l i x :=
  sampleInOf_congr (fun j _ => by simp [Function.comp_def]) x

/-- Nor is what is written in a stage seen by it or by one before it. -/
theorem sampleInOf_set {l : List Stage} {i k : Nat} (h : i ≤ k) (st : Stage) (x : F32) :
    sampleInOf (l.set k st) i x = sampleInOf l i x :=
  sampleInOf_congr (fun j hj => by rw [List.getElem?_set_ne (by omega)]) x

/-- No command reads `OUT_VALID`. -/
theorem stageEffect_unstrobe {s : State} {i : Instr} {f : Stage → Stage} (h : stageEffect s i = some f) (st : Stage) :
    f st.unstrobe = f st := by
  rcases stageEffect_cases h with rfl | rfl | ⟨c, rfl⟩ | rfl <;> rfl

@[simp] theorem Stage.process_unstrobe (d : Nat → NanDraw) (x : F32) (st : Stage) :
    st.unstrobe.process d x = st.process d x := rfl

/-- `PROC` completes on every stage the chain has, with the level on its `sample_in` (R131, R141). -/
theorem exec_proc_present {s : State} {i : Nat} {st : Stage} (hst : s.stages[i]? = some st) (o : Operands) :
    ∃ t, exec .proc (s.present i o) = .next t ∧ t.host = s.host ∧ t.resetSeen = s.resetSeen ∧
      t.draws = s.draws + drawsPerCommand ∧
      t.stages = s.stages.set i (st.process s.nanDraw (sampleInOf s.stages i o.sampleIn)) :=
  ⟨_, exec_of_stageEffect (s := s.present i o) (f := Stage.process s.nanDraw (sampleInOf s.stages i o.sampleIn)) rfl hst,
    rfl, rfl, rfl, rfl⟩

/-- At an edge, a stage that accepts a `PROC` executes it. -/
theorem stageEdge_proc {s : State} {i : Nat} {p : StagePins} (hp : p.accepts = true) (hw : decode (.cmd p.cmd) = .ok .proc) :
    stageEdge i p s = exec .proc (s.present i p.operands) := by
  rw [stageEdge_accepts hp, execWord_of_ok hw]

/-- Settles O10: the second stage's `PROC` is run before the first's, which is seen in the numbers of the draws alone. -/
theorem stagesAtOneEdgeSeeOldOutputs : Obligations.StagesAtOneEdgeSeeOldOutputs := by
  intro s st₀ st₁ more p₀ p₁ rest hstages hhost hr ha₀ ha₁ hw₀ hw₁
  have hd₀ : decode (.cmd p₀.cmd) = .ok .proc := by rw [hw₀]; rfl
  have hd₁ : decode (.cmd p₁.cmd) = .ok .proc := by rw [hw₁]; rfl
  have hreserved : ∀ p ∈ [p₀, p₁], p.presentsReserved = false := by
    simp [presentsReserved_of_ok hd₀, presentsReserved_of_ok hd₁]
  rw [step_of_run hhost hr hreserved]
  generalize hidle : ({ s with host := rest } : State).idleEdge = idle
  have hstages' : idle.stages = st₀.unstrobe :: st₁.unstrobe :: more.map Stage.unstrobe := by simp [← hidle, hstages]
  obtain ⟨t, ht, hhost₁, -, hdraws, hset₁⟩ :=
    exec_proc_present (s := idle) (i := 1) (st := st₁.unstrobe) (by simp [hstages']) p₁.operands
  obtain ⟨u, hu, hhost₀, -, -, hset₀⟩ :=
    exec_proc_present (s := t) (i := 0) (st := st₀.unstrobe) (by simp [hset₁, hstages']) p₀.operands
  refine ⟨u, ?edge, ?host, ?stages⟩
  case edge =>
    rw [List.map_cons, List.map_singleton, stagesEdge, stagesEdge, stagesEdge, andThen_of_next,
      stageEdge_proc (p := s.seen p₁) ha₁ hd₁, State.seen_operands, ht, andThen_of_next,
      stageEdge_proc (p := s.seen p₀) ha₀ hd₀, State.seen_operands, hu]
  case host => rw [hhost₀, hhost₁, ← hidle, State.idleEdge_host]
  case stages =>
    have hdraws₁ : idle.nanDraw = fun n => Config.nanDraw (s.draws + n) := by rw [← hidle]; rfl
    have hdraws₀ : t.nanDraw = fun n => Config.nanDraw (s.draws + 64 + n) := by
      funext n
      rw [State.nanDraw, hdraws, ← hidle]
      rfl
    rw [hset₀, hset₁, hstages', hdraws₁, hdraws₀]
    rfl

/-- An edge goes on at which every presented word decodes and every accepted one is at a position the chain has. -/
theorem step_goesOn_of_decoding {s : State} {pins : List StagePins} {rest : List Event}
    (hhost : s.host = .clock false pins :: rest) (hr : s.resetSeen = true)
    (hpins : ∀ (i : Nat) (p : StagePins), pins[i]? = some p → p.cmdValid = true →
      (∃ ins, decode (.cmd p.cmd) = .ok ins) ∧ (s.accepts p = true → i < s.stages.length)) :
    ∃ t, step s = .next t ∧ stagesEdge 0 (pins.map s.seen) ({ s with host := rest } : State).idleEdge = .next t := by
  have hreserved : ∀ p ∈ pins, p.presentsReserved = false := by
    intro p hp
    obtain ⟨i, hi⟩ := List.mem_iff_getElem?.1 hp
    cases hv : p.cmdValid with
    | false => exact StagePins.presentsReserved_of_not_valid hv
    | true =>
      obtain ⟨⟨ins, hd⟩, -⟩ := hpins i p hi hv
      exact presentsReserved_of_ok hd
  obtain ⟨t, ht⟩ : ∃ t, stagesEdge 0 (pins.map s.seen) ({ s with host := rest } : State).idleEdge = .next t := by
    refine stagesEdge_goesOn fun i p hp hacc => ?_
    obtain ⟨q, hq, rfl⟩ : ∃ q, pins[i]? = some q ∧ s.seen q = p := by simpa using hp
    have hvalid : q.cmdValid = true := (Bool.and_eq_true_iff.1 hacc).1
    obtain ⟨hd, hlt⟩ := hpins i q hq hvalid
    exact ⟨by simpa using hlt hacc, hd⟩
  exact ⟨t, (step_of_run hhost hr hreserved).trans ht, ht⟩

/-- Settles O57: what an edge leaves in a stage is the effect of the command it accepts, which neither depends on
`OUT_VALID` nor sees another level than before the edge. -/
theorem everyStageAtOneEdgeSeesOldLevels : Obligations.EveryStageAtOneEdgeSeesOldLevels := by
  intro s pins rest hhost hr hpins
  obtain ⟨t, hstep, ht⟩ := step_goesOn_of_decoding hhost hr hpins
  refine ⟨t, hstep, stagesEdge_keeps_host ht, by simpa using stagesEdge_keeps_length ht, fun i st st' hst hst' => ?_⟩
  rcases stagesEdge_stage ht i with ⟨p, ins, f, n, st₀, -, hp, hacc, hdec, hf, hst₀, hti⟩ | ⟨hnone, hti⟩
  · -- the stage accepts the command `ins`
    obtain ⟨q, hq, rfl⟩ : ∃ q, pins[i]? = some q ∧ s.seen q = p := by simpa using hp
    obtain rfl : st.unstrobe = st₀ := by simpa [hst] using hst₀
    obtain rfl : f st = st' := by simpa [hti, stageEffect_unstrobe hf] using hst'
    refine ⟨fun q' ins' hq' _ hdec' => ?_, fun hno => ?_⟩
    · obtain rfl : q = q' := by simpa [hq] using hq'
      obtain rfl : ins = ins' := Except.ok.inj (hdec.symm.trans hdec')
      have hf' : stageEffect (({ s with draws := n } : State).present i q.operands) ins = some f := by
        rw [← hf]
        exact stageEffect_congr (by simp) (by simp) ins
      have hlt := (List.getElem?_eq_some_iff.1 hst).1
      exact ⟨n, _, exec_of_stageEffect hf' hst, by simp [hlt]⟩
    · simp [hno q hq] at hacc
  · -- it accepts none and idles
    refine ⟨fun q ins hq hacc _ => ?_, fun _ => ?_⟩
    · have hno : s.accepts q = false := hnone (s.seen q) (Nat.zero_le i) (by simp [hq])
      simp [hno] at hacc
    · simpa [hti, hst, eq_comm, Stage.unstrobe] using hst'

/-! ### The cycles of `CHAIN` -/

/-- A run of any machine goes on by a step from where it has come to. -/
theorem run_succ_of_step {M : Host.Core} {k : Nat} {s t u : M.State} (hrun : M.run k s = .next t)
    (hstep : M.step t = .next u) : M.run (k + 1) s = .next u := by
  induction k generalizing s with
  | zero =>
    obtain rfl : s = t := Host.Outcome.next.inj hrun
    simp only [Host.Core.run, hstep]
  | succ k ih =>
    rw [Host.Core.run] at hrun ⊢
    cases hs : M.step s with
    | next s' => exact ih (by simpa only [hs] using hrun)
    | fault r => simp [hs] at hrun
    | refused r => simp [hs] at hrun

/-- The assembler's cycle of one `PROC` (R60): the stages idle but the one it names. -/
theorem step_of_procEvent {s : State} {i : Nat} {x : F32} {rest : List Event} {st : Stage}
    (hhost : s.host = procEvent i x :: rest) (hr : s.resetSeen = true) (hst : s.stages[i]? = some st) :
    ∃ t, step s = .next t ∧ t.host = rest ∧ t.resetSeen = true ∧ t.draws = s.draws + drawsPerCommand ∧
      t.stages = (s.stages.map Stage.unstrobe).set i (st.process s.nanDraw (sampleInOf s.stages i x)) := by
  have hidle : (({ s with host := rest } : State).idleEdge).stages[i]? = some st.unstrobe := by simp [hst]
  obtain ⟨t, ht, hrest, hseen, hdraws, hstages⟩ := exec_proc_present hidle ⟨0, 0, 0, 0, x⟩
  refine ⟨t, (step_of_commandEvent hhost hr (decode_encode .proc)).trans ht, hrest, hseen.trans hr, hdraws, ?_⟩
  rw [hstages, State.idleEdge_stages, sampleInOf_map_unstrobe, Stage.process_unstrobe]
  rfl

/-- What the first `k` cycles of `CHAIN` leave in the stage at position `i` before `k`, with `sample_in` from `now`: its
`PROC` of the chain, and `OUT_VALID` at 1 when that was in the last of those cycles. -/
def State.chained (s : State) (x : F32) (now : List Stage) (k i : Nat) (st : Stage) : Stage :=
  { st.process (fun n => Config.nanDraw (s.draws + i * 64 + n)) (sampleInOf now i x) with
    outValid := decide (i + 1 = k) }

/-- `t` is the state after the first `k` cycles of `CHAIN` from `s`. -/
structure ChainProgress (s : State) (x : F32) (k : Nat) (t : State) : Prop where
  resetSeen : t.resetSeen = true
  draws : t.draws = s.draws + k * 64
  length : t.stages.length = s.stages.length
  done : ∀ i < k, t.stages[i]? = (s.stages[i]?).map (s.chained x t.stages k i)
  todo : ∀ i, k ≤ i → (t.stages[i]?).map Stage.unstrobe = (s.stages[i]?).map Stage.unstrobe

theorem ChainProgress.start {s : State} (hr : s.resetSeen = true) (x : F32) : ChainProgress s x 0 s where
  resetSeen := hr
  draws := by simp
  length := rfl
  done _ h := absurd h (Nat.not_lt_zero _)
  todo _ _ := rfl

/-- One more cycle. -/
theorem ChainProgress.succ {s t : State} {x : F32} {k : Nat} {rest : List Event} (h : ChainProgress s x k t)
    (hk : k < s.stages.length) (hhost : t.host = procEvent k x :: rest) :
    ∃ u, step t = .next u ∧ u.host = rest ∧ ChainProgress s x (k + 1) u := by
  obtain ⟨st₀, hst₀⟩ : ∃ st₀, s.stages[k]? = some st₀ := ⟨_, List.getElem?_eq_getElem hk⟩
  obtain ⟨st, hst, hsame⟩ : ∃ st, t.stages[k]? = some st ∧ st.unstrobe = st₀.unstrobe := by
    simpa [hst₀] using h.todo k le_rfl
  obtain ⟨u, hstep, hrest, hseen, hdraws, hstages⟩ := step_of_procEvent hhost h.resetSeen hst
  have hsample : ∀ i ≤ k, sampleInOf u.stages i x = sampleInOf t.stages i x := fun i hi => by
    rw [hstages, sampleInOf_set hi, sampleInOf_map_unstrobe]
  have hother : ∀ i ≠ k, u.stages[i]? = (t.stages[i]?).map Stage.unstrobe := fun i hi => by
    rw [hstages, List.getElem?_set_ne hi.symm, List.getElem?_map]
  refine ⟨u, hstep, hrest, ⟨hseen, ?draws, ?length, fun i hi => ?done, fun i hi => ?todo⟩⟩
  case draws => rw [hdraws, h.draws, drawsPerCommand]; omega
  case length => simp [hstages, h.length]
  case done =>
    rcases Nat.lt_succ_iff_lt_or_eq.1 hi with hlt | rfl
    · rw [hother i hlt.ne, h.done i hlt, Option.map_map]
      congr 1
      funext st
      simp [State.chained, hsample i hlt.le, hlt.ne, Stage.unstrobe]
    · have hproc : ∀ d y, st.process d y = st₀.process d y := fun d y => by
        rw [← Stage.process_unstrobe, hsame, Stage.process_unstrobe]
      have hdraw : t.nanDraw = fun n => Config.nanDraw (s.draws + i * 64 + n) := by
        funext n
        rw [State.nanDraw, h.draws]
      rw [hst₀, Option.map_some, State.chained, hsample i le_rfl, ← hdraw, ← hproc, hstages,
        List.getElem?_set_self (by simpa [h.length] using hk), decide_eq_true rfl]
      rfl
  case todo =>
    rw [hother i (by omega), Option.map_map, ← h.todo i (by omega)]
    rfl

/-- The first `k` cycles of `CHAIN`. -/
theorem run_chainEvents {s : State} {x : F32} {k : Nat} {rest : List Event} (hr : s.resetSeen = true)
    (hk : k ≤ s.stages.length) (hhost : s.host = chainEvents k x ++ rest) :
    ∃ t, Host.Core.run Sys2Proof.core k s = .next t ∧ t.host = rest ∧ ChainProgress s x k t := by
  induction k generalizing rest with
  | zero => exact ⟨s, rfl, hhost, .start hr x⟩
  | succ k ih =>
    have hsplit : s.host = chainEvents k x ++ procEvent k x :: rest := by
      simpa [chainEvents, List.range_succ] using hhost
    obtain ⟨t, hrun, hnext, hprogress⟩ := ih (Nat.le_of_succ_le hk) hsplit
    obtain ⟨u, hstep, hrest, hprogress'⟩ := hprogress.succ hk hnext
    exact ⟨u, run_succ_of_step hrun hstep, hrest, hprogress'⟩

/-- Settles O52: after as many cycles as the chain has stages, each stage has had its `PROC`. -/
theorem chainPushesSampleThroughEveryStage : Obligations.ChainPushesSampleThroughEveryStage := by
  intro s x rest hr hhost
  obtain ⟨t, hrun, hrest, h⟩ := run_chainEvents hr le_rfl hhost
  refine ⟨t, hrun, hrest, h.length, fun i st st' hst hst' => ?_⟩
  have hdone := h.done i (List.getElem?_eq_some_iff.1 hst).1
  rw [hst, hst', Option.map_some, Option.some.injEq] at hdone
  exact hdone

end Sys2Proof.Machine
end

section
/-! PROOFS. Completion (60_exceptions.md rules R150, R164): every command and every function goes on. -/

namespace Sys2Proof.Machine

/-- Every code but 111 is the code of a kind (R52); the kinds are listed for `decide` to search. -/
theorem exists_kind_of_code_ne : ∀ w : KindBits, w ≠ 0b111#3 →
    ∃ k ∈ [FilterKind.lp, .hp, .pk, .ls, .hs, .ls1, .hs1], k.code = w := by
  decide

/-- The code of a kind, on the calculator's port, is the word of the kind's function (R54, R58). -/
theorem decode_coef (k : FilterKind) : decode (.kind k.code) = .ok (.coef k) := by
  cases k <;> rfl

/-- A function of the calculator completes from every state, with any levels on its ports (R150). -/
theorem step_goesOn_of_kind {s : State} {k : FilterKind} {fs freq q g : F64} {rest : List Event}
    (hhost : s.host = .calculator k.code fs freq q g :: rest) : ∃ t, step s = .next t := by
  rw [step_of_calculator hhost, execWord_of_ok (decode_coef k), exec_coef]
  exact ⟨_, rfl⟩

/-- Settles O14: a reset and an idle edge have their next state written out; at a running edge each stage goes on that
the chain has and that is given a word that decodes; and each kind's function drives the calculator's outputs. -/
theorem everyCommandAndFunctionGoesOn : Obligations.EveryCommandAndFunctionGoesOn := by
  refine fun s => ⟨fun pins rest hhost => ?reset, fun hr hhost => ?idle, fun pins rest hhost hr hpins => ?commands,
    fun w fs freq q g rest hhost hw => ?function⟩
  case reset => exact ⟨_, (step_of_clock hhost).trans (clockEdge_reset pins _)⟩
  case idle => exact ⟨_, (step_of_nothing hhost).trans (clockEdge_idle hr (by simp))⟩
  case commands =>
    obtain ⟨t, hstep, -⟩ := step_goesOn_of_decoding hhost hr hpins
    exact ⟨t, hstep⟩
  case function =>
    obtain ⟨k, -, rfl⟩ := exists_kind_of_code_ne w hw
    exact step_goesOn_of_kind hhost

end Sys2Proof.Machine
end

section
/-! PROOFS. Hardware reset (70_reset_and_hazards.md rules R170, R172, R173): what its edge leaves, the first cycle after
it, and the edges before the first one. -/

namespace Sys2Proof.Machine

/-! ### The edge of a reset -/

/-- Holding `rst` high repeats the same write (R172). -/
@[simp] theorem State.hardwareReset_hardwareReset (s : State) : s.hardwareReset.hardwareReset = s.hardwareReset := by
  simp [State.hardwareReset]

theorem step_of_reset {s : State} {pins : List StagePins} {rest : List Event} (h : s.host = .clock true pins :: rest) :
    step s = .next ({ s with host := rest } : State).hardwareReset :=
  (step_of_clock h).trans (clockEdge_reset pins _)

/-! ### The first cycle after a reset -/

/-- In the first cycle after a reset a stage accepts whatever it is presented (R172). -/
theorem State.accepts_of_afterRst {s : State} {p : StagePins} (hs : s.afterRst = true) (h : p.cmdValid = true) :
    s.accepts p = true := by
  simp [State.accepts, StagePins.accepts, State.seen, hs, h]

/-- A command presented to a stage the chain has completes (R150). -/
theorem exec_present_goesOn_of_cmd {w : CmdBits} {ins : Instr} {s : State} {i : Nat} (hd : decode (.cmd w) = .ok ins)
    (hi : i < s.stages.length) (o : Operands) : ∃ u, exec ins (s.present i o) = .next u := by
  obtain ⟨f, hf⟩ := stageEffect_of_cmd hd (s.present i o)
  exact ⟨_, exec_of_stageEffect hf (List.getElem?_eq_getElem hi)⟩

/-- In the first cycle after a reset the step is the one command presented, and it completes. -/
theorem step_firstCycle {s : State} {before : List StagePins} {p : StagePins} {rest : List Event} {i : Instr}
    (hhost : s.host = .clock false (before ++ [p]) :: rest) (hr : s.resetSeen = true) (hs : s.afterRst = true)
    (hlt : before.length < s.stages.length) (hb : ∀ b ∈ before, b.cmdValid = false) (hv : p.cmdValid = true)
    (hd : decode (.cmd p.cmd) = .ok i) :
    ∃ u, step s = .next u ∧
      exec i (({ s with host := rest } : State).idleEdge.present before.length p.operands) = .next u := by
  have hidle : ∀ b ∈ before, ({ s with host := rest } : State).accepts b = false ∧ b.presentsReserved = false :=
    fun b hm => ⟨State.accepts_of_not_valid _ (hb b hm), StagePins.presentsReserved_of_not_valid (hb b hm)⟩
  have hstep := (step_of_clock hhost).trans (clockEdge_last hr hidle (State.accepts_of_afterRst hs hv) hd)
  obtain ⟨u, hu⟩ := exec_present_goesOn_of_cmd (s := ({ s with host := rest } : State).idleEdge)
    (i := before.length) hd (by simpa using hlt) p.operands
  exact ⟨u, hstep.trans hu, hu⟩

/-! ### Before the first reset -/

theorem clockEdge_beforeReset {s : State} (h : s.resetSeen = false) (pins : List StagePins) :
    clockEdge false pins s = .refused .beforeReset := by
  simp [clockEdge, h]

/-! ### The obligations -/

/-- Settles O7: the edge looks at no port but `rst`; a second one repeats its write; and its mark of the first cycle makes
every stage ready for the command presented in it. -/
theorem resetPinOverridesCommands : Obligations.ResetPinOverridesCommands := by
  intro s pins rest hhost
  refine ⟨_, step_of_reset hhost, by simp, fun st => State.eq_reset_of_mem_hardwareReset, rfl, rfl, rfl, rfl, rfl, rfl, rfl,
    fun pins' rest' hrest => ?again, fun before p rest' i hrest hlt hb hv hd => ?command⟩
  case again =>
    rw [step_of_reset (s := ({ s with host := rest } : State).hardwareReset) hrest]
    exact congrArg Host.Outcome.next (State.hardwareReset_hardwareReset { s with host := rest' })
  case command => exact step_firstCycle hrest rfl rfl (by simpa using hlt) hb hv hd

/-- Settles O9: an idle edge before the first reset is refused as any other edge is. -/
theorem noEdgeRunsBeforeReset : Obligations.NoEdgeRunsBeforeReset := by
  refine fun s hr => ⟨fun hhost => ?nothing, fun pins rest hhost => ?presented⟩
  case nothing => exact (step_of_nothing hhost).trans (clockEdge_beforeReset hr [])
  case presented => exact (step_of_clock hhost).trans (clockEdge_beforeReset (s := { s with host := rest }) hr pins)

end Sys2Proof.Machine
end
